-- ==== Sys2Proof/Word.lean ====
section
/-!
DEFINITION. Word.lean: the bit-vector types of the block and nothing else (10_state.md rules R10, R17, R18, R20).
-/
namespace Sys2Proof

/-- A register, a window word and a command word are 32 bits (R10, R59). -/
abbrev Word := BitVec 32

/-- One byte of a buffer. Bit 0 is the least significant bit (R11, R40). -/
abbrev Byte := BitVec 8

/-- A lane in its widest form, 64 bits. With `w < 64` only bits `0 .. w-1` are used and the rest are zero (R17, R41). -/
abbrev Lane := BitVec 64

/-- The 1600-bit storage `STORE` (R18), and any other vector of 1600 bits the block holds (VIEWBUF, R32). -/
abbrev Store := BitVec 1600

end Sys2Proof
end

