-- ==== Sys2Proof/Syntax.lean ====
section
/-!
DEFINITION. Syntax.lean: the commands, one constructor per row of the opcode table (30_encoding.md rule R63).
Operands are the fields of the command word, unsigned and as wide as the encoding has them (R59, R61).
-/
namespace Sys2Proof

/-- The operand of a Format V command: KIND, ALL and the coordinates X, Y and Z as the word holds them (R60, R61).
Codes 6 and 7 of `kind` are reserved (R62), and a coordinate is not reduced (R61). -/
structure ViewSel where
  kind : BitVec 3
  all  : Bool
  x    : BitVec 3
  y    : BitVec 3
  z    : BitVec 6
  deriving DecidableEq, Repr

/-- The 19 commands (R63). -/
inductive Instr where
  | nop
  | configure
  | clear
  | theta
  | rho
  | pi
  | khi
  | iota (ir : BitVec 8)
  | round (ir : BitVec 8)
  | permute
  | absorbBlock
  | extractBlock
  | process
  | selectVariant (v : BitVec 8)
  | hashInit (v : BitVec 8)
  | hashUpdate (n : BitVec 8)
  | viewGet (sel : ViewSel)
  | viewSet (sel : ViewSel)
  | viewXor (sel : ViewSel)
  deriving DecidableEq, Repr

end Sys2Proof
end

