-- ==== Sys2Proof/WellFormed.lean ====
section
/-!
DEFINITION. WellFormed.lean: which decoded commands pass the value checks that belong to decoding
(30_encoding.md rules R62, R64 and R65 (3); 60_exceptions.md rule R145 (2) and (3)).
An ill-formed command still has an encoding. It is accepted, and its meaning raises IllegalCommand (R145).
-/
namespace Sys2Proof

/-- KIND 6 and 7 are reserved (R62). -/
def ViewSel.wf (sel : ViewSel) : Bool := sel.kind.toNat ≤ 5

/-- The commands whose operands pass the decode value checks: every view kind is one of the six, and a HASH_UPDATE
carries 1 to 4 bytes (R64, R65, R129). -/
def Instr.wf : Instr → Bool
  | .nop | .configure | .clear | .theta | .rho | .pi | .khi => true
  | .iota _ | .round _ | .permute => true
  | .absorbBlock | .extractBlock | .process => true
  | .selectVariant _ | .hashInit _ => true
  | .hashUpdate n => 1 ≤ n.toNat && n.toNat ≤ 4
  | .viewGet sel | .viewSet sel | .viewXor sel => sel.wf

end Sys2Proof
end

