-- ==== Sys2Proof/Decode.lean ====
section
/-!
DEFINITION. Decode.lean: from a command word to a command and back (30_encoding.md rules R59 to R66).
The decoder is the opcode table read as `(mask, match)` rows (R63, R64); the encoder is written from the three formats (R60).
-/
namespace Sys2Proof

/-! ## The fields of a command word (R59) -/

/-- OP = `c[7:0]`. -/
def opField (c : Word) : BitVec 8 := c.extractLsb' 0 8

/-- A = `c[15:8]`, the operand of Format A: `ir`, `v` or `n` (R61). -/
def aField (c : Word) : BitVec 8 := c.extractLsb' 8 8

/-- KIND, ALL, X, Y and Z of Format V (R60, R61). -/
def viewField (c : Word) : ViewSel :=
  { kind := c.extractLsb' 8 3, all := c.getLsbD 11, x := c.extractLsb' 16 3, y := c.extractLsb' 20 3,
    z := c.extractLsb' 24 6 }

/-! ## The opcode table (R63) -/

/-- One row: a word `c` selects it when `c AND mask = match` (R64). -/
structure OpRow where
  mnemonic : String
  pattern  : Word
  mask     : Word
  build    : Word → Instr

/-- Format N fixes the whole word (R60). -/
def maskN : Word := 0xFFFFFFFF#32

/-- Format A frees only bits [15:8] (R60). -/
def maskA : Word := 0xFFFF00FF#32

/-- Format V fixes OP and the must-be-zero bits 31, 30, 23, 19 and 15 to 12 (R60). -/
def maskV : Word := 0xC088F0FF#32

/-- The 19 rows, in opcode order (R63). -/
def opcodeTable : List OpRow :=
  [ ⟨"NOP", 0x00#32, maskN, fun _ => .nop⟩,
    ⟨"CONFIGURE", 0x01#32, maskN, fun _ => .configure⟩,
    ⟨"CLEAR", 0x02#32, maskN, fun _ => .clear⟩,
    ⟨"THETA", 0x03#32, maskN, fun _ => .theta⟩,
    ⟨"RHO", 0x04#32, maskN, fun _ => .rho⟩,
    ⟨"PI", 0x05#32, maskN, fun _ => .pi⟩,
    ⟨"KHI", 0x06#32, maskN, fun _ => .khi⟩,
    ⟨"IOTA", 0x07#32, maskA, fun c => .iota (aField c)⟩,
    ⟨"ROUND", 0x08#32, maskA, fun c => .round (aField c)⟩,
    ⟨"PERMUTE", 0x09#32, maskN, fun _ => .permute⟩ ] ++
  [ ⟨"ABSORB_BLOCK", 0x0A#32, maskN, fun _ => .absorbBlock⟩,
    ⟨"EXTRACT_BLOCK", 0x0B#32, maskN, fun _ => .extractBlock⟩,
    ⟨"PROCESS", 0x0C#32, maskN, fun _ => .process⟩,
    ⟨"SELECT_VARIANT", 0x0D#32, maskA, fun c => .selectVariant (aField c)⟩,
    ⟨"HASH_INIT", 0x0E#32, maskA, fun c => .hashInit (aField c)⟩,
    ⟨"HASH_UPDATE", 0x0F#32, maskA, fun c => .hashUpdate (aField c)⟩,
    ⟨"VIEW_GET", 0x10#32, maskV, fun c => .viewGet (viewField c)⟩,
    ⟨"VIEW_SET", 0x11#32, maskV, fun c => .viewSet (viewField c)⟩,
    ⟨"VIEW_XOR", 0x12#32, maskV, fun c => .viewXor (viewField c)⟩ ]

/-! ## Decoding -/

/-- Why a word spells no command (R65 (1) and (2)). The machine reports both as IllegalCommand (R145). -/
inductive DecodeError where
  /-- OP is 0x13 to 0xFF (R65 (1)). -/
  | reservedOpcode (op : BitVec 8)
  /-- OP is a listed opcode and a must-be-zero bit of its format is 1 (R65 (2)). -/
  | mustBeZeroBit (op : BitVec 8)
  deriving DecidableEq, Repr

/-- The row a word selects (R64). -/
def selectRow (c : Word) : Option OpRow :=
  opcodeTable.find? fun row => c &&& row.mask == row.pattern

/-- Decoding is total: every 32-bit word selects one command or is refused by name (R64). -/
def decode (c : Word) : Except DecodeError Instr :=
  match selectRow c with
  | some row => .ok (row.build c)
  | none =>
    if (opField c).toNat ≤ 0x12 then .error (.mustBeZeroBit (opField c))
    else .error (.reservedOpcode (opField c))

/-! ## Encoding (R60) -/

/-- Format N: `000000000000000000000000oooooooo`. -/
def encodeN (op : BitVec 8) : Word := op.setWidth 32

/-- Format A: `0000000000000000aaaaaaaaoooooooo`. -/
def encodeA (op a : BitVec 8) : Word := op.setWidth 32 ||| (a.setWidth 32 <<< 8)

/-- Format V: `00zzzzzz0yyy0xxx0000gkkkoooooooo`. -/
def encodeV (op : BitVec 8) (sel : ViewSel) : Word :=
  op.setWidth 32 ||| (sel.kind.setWidth 32 <<< 8) ||| ((BitVec.ofBool sel.all).setWidth 32 <<< 11)
    ||| (sel.x.setWidth 32 <<< 16) ||| (sel.y.setWidth 32 <<< 20) ||| (sel.z.setWidth 32 <<< 24)

/-- The command word of a command (R60, R63). -/
def encode : Instr → Word
  | .nop => encodeN 0x00#8
  | .configure => encodeN 0x01#8
  | .clear => encodeN 0x02#8
  | .theta => encodeN 0x03#8
  | .rho => encodeN 0x04#8
  | .pi => encodeN 0x05#8
  | .khi => encodeN 0x06#8
  | .iota ir => encodeA 0x07#8 ir
  | .round ir => encodeA 0x08#8 ir
  | .permute => encodeN 0x09#8
  | .absorbBlock => encodeN 0x0A#8
  | .extractBlock => encodeN 0x0B#8
  | .process => encodeN 0x0C#8
  | .selectVariant v => encodeA 0x0D#8 v
  | .hashInit v => encodeA 0x0E#8 v
  | .hashUpdate n => encodeA 0x0F#8 n
  | .viewGet sel => encodeV 0x10#8 sel
  | .viewSet sel => encodeV 0x11#8 sel
  | .viewXor sel => encodeV 0x12#8 sel

/-! ## Words as the opcode table numbers them -/

/-- The command word whose low `nbits` bits are those of `w` and whose other bits are 0. A command is one 32-bit word
(R66), so the table's bit numbers are the word's own. -/
def tableWord (nbits w : Nat) : Word := BitVec.ofNat 32 (w % 2 ^ nbits)

/-- What the decoder reads from an opcode-table word; `none` where it refuses. -/
def decodeTableWord (nbits w : Nat) : Option Instr :=
  match decode (tableWord nbits w) with
  | .ok i => some i
  | .error _ => none

end Sys2Proof
end

