-- ==== Sys2Proof/Machine/BitVector.lean ====
section
/-!
DEFINITION. Machine/BitVector.lean: bit-vector values and their primitives (40_bitvector.md, rules R69 to R81; the notation
of 00_scope.md rules R11 to R13). A value is the list of its bits, bit 0 first, so its length is the list's length and is
authoritative (R69). The commands use `append` as `++`, `truncate` as `List.take`, and the conversions below; the rest of
the primitives and the text forms are the value layer the spec writes its rules and vectors in (R5 (g), R83).
-/
namespace Sys2Proof.Machine

/-- A bit-vector value (R69). `u ‖ v` is `u ++ v`, and `v[a..b)` is `(v.drop a).take (b - a)` (R12). -/
abbrev Bits := List Bool

/-- Why an operation of the value layer does not answer. -/
inductive BvError where
  /-- FormatError (R75). -/
  | formatError
  /-- IndexOutOfRange (R71, R79). -/
  | indexOutOfRange
  /-- The spec gives no meaning: a length above the bits at hand (R73, R75; 93_implementation_defined.md U1, U2). -/
  | refused
  deriving DecidableEq, Repr

/-! ## Numbers and bits -/

/-- The number whose bit `i` is `v[i]` (R11). -/
def bitsToNat : Bits → Nat
  | [] => 0
  | b :: v => b.toNat + 2 * bitsToNat v

/-- Bits `0 .. n-1` of a bit-indexed source. -/
def bitsOf (f : Nat → Bool) (n : Nat) : Bits := (List.range n).map f

/-- The byte made of the first eight bits, missing bits being 0 (R74). -/
def bitsToByte (v : Bits) : Byte := BitVec.ofNat 8 (bitsToNat (v.take 8))

/-- The 32-bit word made of the first 32 bits (R42). -/
def bitsToWord (v : Bits) : Word := BitVec.ofNat 32 (bitsToNat (v.take 32))

/-- A vector extended by zeros to 1600 bits: `v ‖ 0^c` in the low bits of the storage (R115 (3)). -/
def bitsToStore (v : Bits) : Store := BitVec.ofNat 1600 (bitsToNat (v.take 1600))

/-- The eight bits of a byte, least significant first (R11, R40). -/
def byteBits (b : Byte) : Bits := bitsOf b.getLsbD 8

/-! ## Construction and conversion (R73, R74) -/

/-- All the bits of a byte buffer. -/
def bytesBits (bytes : List Byte) : Bits := bytes.flatMap byteBits

/-- `from_bytes(bytes, length)`. The length defaults to all the bits, and a length above that is refused (R73). -/
def fromBytes (bytes : List Byte) (length : Option Nat) : Except BvError Bits :=
  match length with
  | none => .ok (bytesBits bytes)
  | some n => if n ≤ 8 * bytes.length then .ok ((bytesBits bytes).take n) else .error .refused

/-- `k` bytes of a vector from its start, zeros beyond its end. -/
def toBytesN : Nat → Bits → List Byte
  | 0, _ => []
  | k + 1, v => bitsToByte v :: toBytesN k (v.drop 8)

/-- `to_bytes()`: ⌈n/8⌉ bytes, the bits at positions ≥ n of the last byte zero (R74). -/
def toBytes (v : Bits) : List Byte := toBytesN ((v.length + 7) / 8) v

/-- Equality compares the length and the backing bytes; an absent vector equals only an absent one (R70). -/
def bvEqual : Option Bits → Option Bits → Bool
  | none, none => true
  | some u, some v => u.length == v.length && toBytes u == toBytes v
  | _, _ => false

/-! ## Element access (R71, R72) -/

/-- `get(i)` (R71). -/
def bvGet (v : Bits) (i : Nat) : Except BvError Bool :=
  match v[i]? with
  | some b => .ok b
  | none => .error .indexOutOfRange

/-- `set(i, b)` (R71). On failure the vector is unchanged, since no new one is answered. -/
def bvSet (v : Bits) (i : Nat) (b : Bool) : Except BvError Bits :=
  if i < v.length then .ok (v.set i b) else .error .indexOutOfRange

/-- `swap_bits(i, j)`: a no-op when an index is invalid or the two are equal (R72). -/
def bvSwap (v : Bits) (i j : Nat) : Bits :=
  match v[i]?, v[j]? with
  | some a, some b => if i = j then v else (v.set i b).set j a
  | _, _ => v

/-! ## Structural operations (R78 to R80) -/

/-- The operand of a structural or logical operation: absent, a bit vector, or a byte buffer (R78, R81). -/
inductive BvOperand where
  | absent
  | vector (u : Bits)
  | buffer (bs : List Byte)
  deriving DecidableEq, Repr

/-- The vector an operand stands for: a byte buffer is taken as `from_bytes(bytes)`, all its bits (R73, R78, R81). -/
def BvOperand.bits : BvOperand → Option Bits
  | .absent => none
  | .vector u => some u
  | .buffer bs => some (bytesBits bs)

/-- `append(u)`; an absent operand leaves the receiver unchanged (R78). -/
def bvAppend (v : Bits) (u : BvOperand) : Bits := v ++ u.bits.getD []

/-- `prepend(u)`; an absent operand leaves the receiver unchanged (R78). -/
def bvPrepend (v : Bits) (u : BvOperand) : Bits := u.bits.getD [] ++ v

/-- `substring(index, len)` (R79). -/
def bvSubstring (v : Bits) (index len : Nat) : Except BvError Bits :=
  if index < v.length ∧ index + len ≤ v.length then .ok ((v.drop index).take len) else .error .indexOutOfRange

/-- `truncate(len)` clamps `len` to `[0, n]` (R80). -/
def bvTruncate (v : Bits) (len : Int) : Bits := v.take len.toNat

/-! ## Logical operations (R81) -/

/-- A bitwise operation with an operand of the same length. An absent operand or one of another length is the silent
no-op (R81). -/
def bvLogic (f : Bool → Bool → Bool) (v : Bits) (u : BvOperand) : Bits :=
  match u.bits with
  | none => v
  | some u => if u.length = v.length then v.zipWith f u else v

/-- `and(u)` (R81). -/
def bvAnd (v : Bits) (u : BvOperand) : Bits := bvLogic (· && ·) v u

/-- `or(u)` (R81). -/
def bvOr (v : Bits) (u : BvOperand) : Bits := bvLogic (· || ·) v u

/-- `xor(u)` (R81). -/
def bvXor (v : Bits) (u : BvOperand) : Bits := bvLogic (· ^^ ·) v u

/-! ## The testable properties of the value type (R82), proved in Laws/BitVector.lean -/

/-- A byte buffer truncated to ⌈n/8⌉ bytes with the bits at positions `n` and above zero (R82). -/
def maskedBytes (bytes : List Byte) (n : Nat) : List Byte :=
  (bytes.take ((n + 7) / 8)).mapIdx fun k b => b &&& BitVec.ofNat 8 (2 ^ (n - 8 * k) - 1)

/-- Round trip: for every byte buffer B and every n ≤ 8|B|, `from_bytes(B, n).to_bytes()` equals B truncated to ⌈n/8⌉ bytes with
the bits at positions ≥ n zero (R82). -/
def RoundTrip : Prop :=
  ∀ (bytes : List Byte) (n : Nat), n ≤ 8 * bytes.length →
    ∃ v, fromBytes bytes (some n) = .ok v ∧ v.length = n ∧ toBytes v = maskedBytes bytes n

/-- Idempotent truncate: `truncate(len).truncate(len) = truncate(len)` for every len (R82). -/
def TruncateIdempotent : Prop := ∀ (v : Bits) (len : Int), bvTruncate (bvTruncate v len) len = bvTruncate v len

/-- Length-mismatch no-op: `xor(u)` with `|u| ≠ n` leaves the receiver bit for bit unchanged, and so do `and(u)` and `or(u)`;
`u` is a vector, a byte buffer, or absent (R81, R82). -/
def MismatchNoOp : Prop :=
  ∀ (v : Bits) (u : BvOperand), (∀ w, u.bits = some w → w.length ≠ v.length) →
    bvXor v u = v ∧ bvAnd v u = v ∧ bvOr v u = v

/-- The three properties together: what the spec says every value of this layer satisfies (R82). -/
def ValueProperties : Prop := RoundTrip ∧ TruncateIdempotent ∧ MismatchNoOp

/-! ## Text forms (R75 to R77): the notation of the vectors, no operation of the block (R5 (g)) -/

/-- The bits of the characters `0` and `1`; any other character is a FormatError (R75). -/
def charsBits : List Char → Except BvError Bits
  | [] => .ok []
  | c :: cs =>
    if c = '0' ∨ c = '1' then
      match charsBits cs with
      | .ok v => .ok ((c == '1') :: v)
      | .error e => .error e
    else .error .formatError

/-- `from_binary_string(s, length?)`: white space is stripped, and a length above the bit count is refused (R75). DESIGN CHOICE
(log entry 16): R75 does not list the whitespace characters; here they are space, tab, carriage return and line feed
(`Char.isWhitespace`), and any other character, a form feed, a vertical tab or a Unicode space included, is a FormatError. -/
def fromBinaryString (s : Option (List Char)) (length : Option Nat) : Except BvError Bits :=
  match s with
  | none => .error .formatError
  | some cs =>
    match charsBits (cs.filter fun c => !c.isWhitespace), length with
    | .error e, _ => .error e
    | .ok v, none => .ok v
    | .ok v, some n => if n ≤ v.length then .ok (v.take n) else .error .refused

/-- One space before every item whose position is a positive multiple of `group`, none when `group = 0` (R76, R77). -/
def groupChars (group : Nat) : Nat → List (List Char) → List Char
  | _, [] => []
  | k, item :: rest =>
    (if group ≠ 0 ∧ k ≠ 0 ∧ k % group = 0 then [' '] else []) ++ item ++ groupChars group (k + 1) rest

/-- `to_bin_string(group)` (R76). -/
def toBinString (group : Nat) (v : Bits) : List Char :=
  groupChars group 0 (v.map fun b => [if b then '1' else '0'])

/-- One hex digit. -/
def hexDigit (uppercase : Bool) (d : Nat) : Char :=
  if d < 10 then Char.ofNat (48 + d) else Char.ofNat ((if uppercase then 55 else 87) + d)

/-- `to_hex_string(spacing, uppercase)`: two digits a byte, the high nibble first (R77). -/
def toHexString (spacing : Nat) (uppercase : Bool) (v : Bits) : List Char :=
  groupChars spacing 0
    ((toBytes v).map fun b => [hexDigit uppercase (b.toNat / 16), hexDigit uppercase (b.toNat % 16)])

end Sys2Proof.Machine
end

