-- ==== Sys2Proof/Config.lean ====
section
/-!
DEFINITION. Config.lean: what one implementation fixes (the OPEN parameters of 00_scope.md rule R9 and
92_eei_decisions.md D10, D15) and the source of every free value (R39, R48).
-/
namespace Sys2Proof

/-- The OPEN parameters an engine is built with (R9). The model takes them as an argument: they are plain data, stand in
the state, and no step changes them. `ENGINES` is the number of states of a `Machine.Platform` (R156). -/
structure Params where
  /-- `BASE`: the byte address of the 64 KiB register window (R9, R49). -/
  base : Nat
  /-- `MSG_BYTES`: the size of MSGBUF in bytes (R9, R34). -/
  msgBytes : Nat
  /-- `OUT_BYTES`: the size of OUTBUF in bytes (R9, R33). -/
  outBytes : Nat
  /-- `RAWSHAKE_CAP`, first component: the capacity of RAWSHAKE128 (R124, D15). -/
  rawCap128 : Nat
  /-- `RAWSHAKE_CAP`, second component: the capacity of RAWSHAKE256 (R124, D15). -/
  rawCap256 : Nat
  deriving DecidableEq, Repr

/-- The parameter values the model's reset state is built with: MSG_BYTES = OUT_BYTES = 256 as in 95_test_vectors.md
section 0, BASE = 0, and RAWSHAKE_CAP's default. DESIGN CHOICE (log entries 1 and 2): the spec leaves them open. -/
def Params.default : Params :=
  { base := 0, msgBytes := 256, outBytes := 256, rawCap128 := 256, rawCap256 := 512 }

/-- The `n`-th free bit of the engine whose BASE is `base`: a draw under no law (R39, R48, 93_implementation_defined.md S1,
S2). BASE is what identifies an instance (R156), so two instances draw from two streams and nothing relates their draws. It
has no body, so nothing proved in this package rests on its value. A read that needs fresh bits takes them from the counter
`State.draws` on (log entry 3). -/
opaque Config.freeBit (base n : Nat) : Bool

end Sys2Proof
end

