-- ==== Sys2Proof/Machine/State.lean ====
section
/-!
DEFINITION. Machine/State.lean: every piece of state the spec gives one engine (10_state.md), the host that drives it
(R16, R138), and the machine right after reset (70_reset_and_hazards.md rule R160). Plain data throughout.
-/
namespace Sys2Proof.Machine

/-- The result codes of STATUS.ERR (R140). Codes 6 to 15 are reserved and never written, so they have no constructor. -/
inductive ErrCode where
  /-- 0 NONE: completed without error. -/
  | none
  /-- 1 CONFIG: ConfigurationError (R141). -/
  | config
  /-- 2 FORMAT: FormatError. No command raises it (R142). -/
  | format
  /-- 3 LENGTH: LengthMismatch (R143). -/
  | length
  /-- 4 INDEX: IndexOutOfRange (R144). -/
  | index
  /-- 5 ILLEGAL: IllegalCommand (R145). -/
  | illegal
  deriving DecidableEq, Repr

/-- STATUS (R22, R36). Its reserved bits read 0 and ignore writes, so the five fields are the whole register. -/
structure Status where
  busy    : Bool
  skip    : Bool
  errSeen : Bool
  ovr     : Bool
  err     : ErrCode
  deriving DecidableEq, Repr

/-- The two fields of CFG (R24) and of ACTCFG (R25): bits [2:0] and [26:16]. The reserved bits read 0. -/
structure CfgReg where
  l    : BitVec 3
  rate : BitVec 11
  deriving DecidableEq, Repr

/-- The two fields of SUFFIX: SUFBITS [7:0] and SUFLEN [11:8] (R26). -/
structure SuffixReg where
  bits : BitVec 8
  len  : BitVec 4
  deriving DecidableEq, Repr

/-- VIEWBUF: 1600 bits, and which of them something has written since reset (R32, R39). A bit never written is held as 0
and is never read as that 0. -/
structure ViewBuf where
  bits    : Store
  written : Store
  deriving DecidableEq, Repr

/-- A byte-addressed buffer (MSGBUF, OUTBUF; R33, R34): the bytes, and for each byte which of its bits something has written
since reset (R39). Both are lists of cells in canonical form: addresses strictly rising, no cell holding the byte 0, which is
what an unlisted address holds in either list (no bit written, log entry 15). -/
structure Memory where
  cells   : List Host.Cell
  written : List Host.Cell
  deriving DecidableEq, Repr

/-- A buffer in which nothing has been written (R39). -/
def Memory.empty : Memory := { cells := [], written := [] }

/-- What a host access does (R44). -/
inductive Dir where
  | read
  | write (v : Word)
  deriving DecidableEq, Repr

/-- One host access: its byte address in the host address space, its width in bytes, and its direction (R44, R45). -/
structure Access where
  addr  : Nat
  width : Nat
  dir   : Dir
  deriving DecidableEq, Repr

/-- One item of the host's program (R19, R67, R68): a register access, or WAIT, which polls STATUS until BUSY = 0. -/
inductive HostOp where
  | access (a : Access)
  | wait
  deriving DecidableEq, Repr

/-- Who makes the next move: the HOST agent, the ENGINE agent (R16), or the platform's reset input (R159). -/
inductive Turn where
  | host
  | engine
  | reset
  deriving DecidableEq, Repr

/-- One engine with its host. The fields up to `outbuf` are the block's (R20, R31, R37). The last four are the model's own:
the counter of free values, the host's remaining program, the schedule of the two agents and the values the host has read
back. -/
structure State where
  /-- The OPEN parameters the engine was built with (R9). No step changes them. -/
  params : Params
  /-- `STORE[0..1600)`. Its first `b` bits are the state cube `S` (R17, R18). -/
  store : Store
  /-- ACTCFG, the active configuration (R25). -/
  actcfg : CfgReg
  /-- CFG, the requested configuration (R24). -/
  cfg : CfgReg
  /-- SUFFIX (R26). -/
  suffix : SuffixReg
  /-- MSGLEN, the message length in bits (R27). -/
  msglen : Word
  /-- OUTLEN, the output length in bits (R28). -/
  outlen : Word
  /-- VLEN, the length in bits of the vector in VIEWBUF (R29). -/
  vlen : BitVec 11
  /-- DIN, up to four message bytes (R30). -/
  din : Word
  /-- STATUS (R22). -/
  status : Status
  /-- PEND, the pending command word (R37). It holds a command if and only if STATUS.BUSY = 1. -/
  pend : Word
  /-- VIEWBUF (R32). -/
  viewbuf : ViewBuf
  /-- MSGBUF (R34). -/
  msgbuf : Memory
  /-- OUTBUF (R33). -/
  outbuf : Memory
  /-- The MODEL's own: how many free bits have been drawn (log entry 3). -/
  draws : Nat
  /-- The MODEL's own: what the host has still to do, in issue order (R19, R52; log entry 7). -/
  host : List HostOp
  /-- The MODEL's own: who moves next, oldest first (R132, R168; log entry 6). -/
  sched : List Turn
  /-- The MODEL's own: the values the host's reads have returned, oldest first (R138; log entry 7). -/
  responses : List Word
  deriving DecidableEq, Repr

/-- Why the machine stops where the spec gives no next state. -/
inductive Fault where
  /-- Raised by the round-function commands (THETA, RHO, PI, KHI, IOTA, ROUND, PERMUTE, and ABSORB_BLOCK and PROCESS, which
  run Keccak-f) in a state whose ACTCFG breaks the invariant of R25. R149 calls it stuck and unreachable. Safe. -/
  | inconsistentStateSize
  /-- Raised by a host access whose address lies outside the 64 KiB window at BASE (R44, R49): it is no access to this
  engine. Safe. -/
  | outsideWindow
  deriving DecidableEq, Repr

/-- Why the machine refuses a step. -/
inductive Refusal where
  /-- Raised by an arm of `exec` whose instruction has no meaning yet. Safe. No arm raises it in this package. -/
  | notModelled (mnemonic : String)
  /-- Raised by a host access that is misaligned or not 32 bits wide: R45 tells a model to refuse it. Safe. -/
  | unsupportedAccess
  deriving DecidableEq, Repr

/-- STATUS with every field 0 (R160). -/
def Status.reset : Status :=
  { busy := false, skip := false, errSeen := false, ovr := false, err := .none }

/-- L = 6, RATE = 1088: the word 0x04400006 (R24, R25, R160). -/
def CfgReg.reset : CfgReg := { l := 6#3, rate := 1088#11 }

/-- SUFBITS = 0x02, SUFLEN = 2: the word 0x00000202 (R26, R160). -/
def SuffixReg.reset : SuffixReg := { bits := 0x02#8, len := 2#4 }

/-- VIEWBUF with no bit written (R39, R160). -/
def ViewBuf.empty : ViewBuf := { bits := 0#1600, written := 0#1600 }

/-- An engine with parameters `p` right after reset (R160), with no host program and an empty schedule. -/
def State.resetWith (p : Params) : State :=
  { params := p
    store := 0#1600
    actcfg := CfgReg.reset
    cfg := CfgReg.reset
    suffix := SuffixReg.reset
    msglen := 0#32
    outlen := 256#32
    vlen := 0#11
    din := 0#32
    status := Status.reset
    pend := 0#32            -- DESIGN CHOICE (log entry 5): PEND holds no command, which BUSY = 0 says
    viewbuf := ViewBuf.empty
    msgbuf := Memory.empty
    outbuf := Memory.empty
    draws := 0              -- DESIGN CHOICE (log entry 3)
    host := []
    sched := []
    responses := [] }

/-- The machine right after reset (R160), with the parameter values of log entries 1 and 2. -/
def State.reset : State := State.resetWith Params.default

end Sys2Proof.Machine
end

