-- ==== Sys2Proof/Machine/Flags.lean ====
section
/-!
DEFINITION. Machine/Flags.lean: the flags, which are the fields of STATUS (10_state.md rules R22, R36), and what writes them
(45_control.md rules R131, R133, R134).
-/
namespace Sys2Proof.Machine

/-- The 4-bit code of a result (R140). -/
def ErrCode.code : ErrCode → BitVec 4
  | .none => 0#4
  | .config => 1#4
  | .format => 2#4
  | .length => 3#4
  | .index => 4#4
  | .illegal => 5#4

/-- A flag as bit `k` of a word. -/
def flagBit (b : Bool) (k : Nat) : Word := (BitVec.ofBool b).setWidth 32 <<< k

/-- STATUS as the host reads it: BUSY [0], SKIP [1], ERRSEEN [2], OVR [3], ERR [7:4] (R22). -/
def Status.word (st : Status) : Word :=
  flagBit st.busy 0 ||| flagBit st.skip 1 ||| flagBit st.errSeen 2 ||| flagBit st.ovr 3
    ||| (st.err.code.setWidth 32 <<< 4)

/-- What completion writes: ERR and SKIP describe this command, ERRSEEN is sticky, BUSY clears and OVR is not touched
(R133). -/
def Status.completed (st : Status) (code : ErrCode) (skip : Bool) : Status :=
  { busy := false
    skip := if code = .none then skip else false
    errSeen := if code = .none then st.errSeen else true
    ovr := st.ovr
    err := code }

/-- What a host write to STATUS does: 1 in bit 2 clears ERRSEEN and 1 in bit 3 clears OVR (R134). -/
def Status.cleared (st : Status) (v : Word) : Status :=
  { st with errSeen := st.errSeen && !v.getLsbD 2, ovr := st.ovr && !v.getLsbD 3 }

/-- A command is accepted: BUSY is set and nothing else (R131). -/
def Status.accepted (st : Status) : Status := { st with busy := true }

/-- A host write is dropped: OVR is set and nothing else (R48, R163). -/
def Status.overrun (st : Status) : Status := { st with ovr := true }

end Sys2Proof.Machine
end

