-- ==== Sys2Proof/Machine/Ops.lean ====
section
/-!
DEFINITION. Machine/Ops.lean: the named operations over the state: registers as words, the storage and its bits, the buffers,
and the life cycle of a command (45_control.md rules R131 to R133), which reports every error in one place (60_exceptions.md
rule R148). The block has no trap and no return from one (R151, R152): reporting in STATUS is its whole exception mechanism.
-/
namespace Sys2Proof

/-- The constraints on the OPEN parameters (R9): BASE is a multiple of 0x10000, MSG_BYTES a multiple of 4 in 4..61440,
OUT_BYTES a multiple of 4 in 64..1024; and a RawSHAKE capacity leaves a legal rate on 1600 bits (R7). -/
def Params.wf (p : Params) : Bool :=
  p.base % 0x10000 == 0
    && (p.msgBytes % 4 == 0 && 4 ≤ p.msgBytes && p.msgBytes ≤ 61440)
    && (p.outBytes % 4 == 0 && 64 ≤ p.outBytes && p.outBytes ≤ 1024)
    && (1 ≤ p.rawCap128 && p.rawCap128 < 1600)
    && (1 ≤ p.rawCap256 && p.rawCap256 < 1600)

end Sys2Proof

namespace Sys2Proof.Machine

/-! ## Registers as words -/

/-- CFG or ACTCFG as a word: L in [2:0], RATE in [26:16] (R24, R25). -/
def CfgReg.word (c : CfgReg) : Word := c.l.setWidth 32 ||| (c.rate.setWidth 32 <<< 16)

/-- The fields a write of `v` to CFG stores; the reserved bits ignore it (R24). -/
def CfgReg.ofWord (v : Word) : CfgReg := { l := v.extractLsb' 0 3, rate := v.extractLsb' 16 11 }

/-- SUFFIX as a word: SUFBITS in [7:0], SUFLEN in [11:8] (R26). -/
def SuffixReg.word (x : SuffixReg) : Word := x.bits.setWidth 32 ||| (x.len.setWidth 32 <<< 8)

/-- The fields a write of `v` to SUFFIX stores (R26). -/
def SuffixReg.ofWord (v : Word) : SuffixReg := { bits := v.extractLsb' 0 8, len := v.extractLsb' 8 4 }

/-- The suffix `SUFBITS[0], ..., SUFBITS[SUFLEN-1]` (R26). -/
def SuffixReg.suffix (x : SuffixReg) : Bits := bitsOf x.bits.getLsbD x.len.toNat

/-! ## The active geometry (R6, R17) -/

/-- `l`, as a number. -/
def CfgReg.lNat (c : CfgReg) : Nat := c.l.toNat

/-- The lane depth `w = 2^l` (R6). -/
def CfgReg.w (c : CfgReg) : Nat := 2 ^ c.l.toNat

/-- The width `b = 25·2^l` (R6). -/
def CfgReg.b (c : CfgReg) : Nat := 25 * 2 ^ c.l.toNat

/-- A legal configuration: `L ≤ 6` and `1 ≤ RATE < 25·2^L` (R7, R25, R90). -/
def CfgReg.legal (c : CfgReg) : Bool := c.l.toNat ≤ 6 && 1 ≤ c.rate.toNat && c.rate.toNat < c.b

/-! ## Bits of the storage -/

/-- The 1600-bit vector with ones at positions below `n`. -/
def lowMask (n : Nat) : Store := BitVec.ofNat 1600 (2 ^ n - 1)

/-- `STORE[i] <- v`. -/
def setBit (S : Store) (i : Nat) (v : Bool) : Store :=
  if v then S ||| (1#1600 <<< i) else S &&& ~~~(1#1600 <<< i)

/-- The writes `STORE[V k] <- f k` for `k = 0, ..., n-1`, in order. -/
def scatter (V : Nat → Nat) (f : Nat → Bool) : Nat → Store → Store
  | 0, S => S
  | k + 1, S => setBit (scatter V f k S) (V k) (f k)

/-- The 1600-bit vector with bit `k = f k` for `k < n` and zeros above (R92, R118). -/
def gather (f : Nat → Bool) (n : Nat) : Store := bitsToStore (bitsOf f n)

/-- `S <- T` for a `b`-bit vector `T`: bits of STORE at `b` and above are not written (R18). -/
def putState (b : Nat) (old T : Store) : Store := (old &&& ~~~(lowMask b)) ||| (T &&& lowMask b)

/-- `STORE'`: the state's `b` bits and zeros above, as the STATE window shows them (R31). -/
def stateImage (s : State) : Store := s.store &&& lowMask s.actcfg.b

/-! ## Free values (R39, R48) -/

/-- The free bits ahead of an engine: bit `i` is the draw `i` places on, in the stream of its own BASE (R39, R55, R156). -/
def State.freshBit (s : State) (i : Nat) : Bool := Config.freeBit s.params.base (s.draws + i)

/-- The next `n` free bits. -/
def freeBits (s : State) (n : Nat) : Bits := bitsOf s.freshBit n

/-- The state after `n` free bits have been drawn. -/
def State.drew (s : State) (n : Nat) : State := { s with draws := s.draws + n }

/-! ## VIEWBUF (R32) -/

/-- A read of `VIEWBUF[i]`, with the draws `free` ahead: an unwritten bit is a draw (R39). -/
def ViewBuf.read (vb : ViewBuf) (free : Nat → Bool) (i : Nat) : Bool :=
  if vb.written.getLsbD i then vb.bits.getLsbD i else free i

/-- A host write of window word `k` (R32). -/
def ViewBuf.writeWord (vb : ViewBuf) (k : Nat) (v : Word) : ViewBuf :=
  { bits := (vb.bits &&& ~~~((0xFFFFFFFF#1600) <<< (32 * k))) ||| (v.setWidth 1600 <<< (32 * k))
    written := vb.written ||| ((0xFFFFFFFF#1600) <<< (32 * k)) }

/-- A command writes all 1600 bits (R32, R92, R118). -/
def ViewBuf.full (bits : Store) : ViewBuf := { bits := bits, written := BitVec.allOnes 1600 }

/-! ## Memory: MSGBUF and OUTBUF (R33, R34) -/

/-- The byte a cell list holds at an address; an unlisted address holds 0 (log entry 15). -/
def cellGet : List Host.Cell → Nat → Byte
  | [], _ => 0#8
  | (a, b) :: rest, k => if a = k then b else cellGet rest k

/-- Store a byte in a cell list and keep its canonical form: the byte 0 is not listed. -/
def cellSet : List Host.Cell → Nat → Byte → List Host.Cell
  | [], k, v => if v = 0#8 then [] else [(k, v)]
  | (a, b) :: rest, k, v =>
    if k < a then (if v = 0#8 then (a, b) :: rest else (k, v) :: (a, b) :: rest)
    else if k = a then (if v = 0#8 then rest else (k, v) :: rest)
    else (a, b) :: cellSet rest k v

/-- The cell list that holds `bytes` from address `a` on. -/
def cellsFrom : Nat → List Byte → List Host.Cell
  | _, [] => []
  | a, b :: bytes => if b = 0#8 then cellsFrom (a + 1) bytes else (a, b) :: cellsFrom (a + 1) bytes

/-- The canonical form of a cell list: addresses strictly rising, no cell holding 0. -/
def cellsWf : List Host.Cell → Bool
  | [] => true
  | (a, b) :: rest => b != 0#8 && rest.all (fun c => a < c.1) && cellsWf rest

/-- The canonical form of a buffer: both lists canonical, and no 1 bit where nothing was written. -/
def Memory.wf (m : Memory) : Bool :=
  cellsWf m.cells && cellsWf m.written &&
    m.cells.all fun c => c.2 &&& ~~~(cellGet m.written c.1) == 0#8

/-- Every listed address lies below `n`. -/
def Memory.below (m : Memory) (n : Nat) : Bool :=
  m.cells.all (fun c => c.1 < n) && m.written.all (fun c => c.1 < n)

/-- Write the bits of byte `a` selected by `mask`. -/
def Memory.writeMasked (m : Memory) (a : Nat) (v mask : Byte) : Memory :=
  { cells := cellSet m.cells a ((cellGet m.cells a &&& ~~~mask) ||| (v &&& mask))
    written := cellSet m.written a (cellGet m.written a ||| mask) }

/-- Whether bit `i` of a buffer has been written since reset (R39). -/
def Memory.isWritten (m : Memory) (i : Nat) : Bool := (cellGet m.written (i / 8)).getLsbD (i % 8)

/-- Bit `i` of a buffer as it stands in storage (R40). It is what a read gives where the bit has been written. -/
def Memory.storedBit (m : Memory) (i : Nat) : Bool := (cellGet m.cells (i / 8)).getLsbD (i % 8)

/-- A read of bit `i`, with the draws `free` ahead: an unwritten bit is a draw (R39). -/
def Memory.read (m : Memory) (free : Nat → Bool) (i : Nat) : Bool :=
  if m.isWritten i then m.storedBit i else free i

/-- `BUF[i] <- v` (R40). -/
def Memory.writeBit (m : Memory) (i : Nat) (v : Bool) : Memory :=
  m.writeMasked (i / 8) (if v then 1#8 <<< (i % 8) else 0#8) (1#8 <<< (i % 8))

/-- `BUF[i + k] <- v[k]` for every bit of `v`, in order (R129). -/
def Memory.writeBits : Memory → Nat → Bits → Memory
  | m, _, [] => m
  | m, i, b :: v => Memory.writeBits (m.writeBit i b) (i + 1) v

/-- A host write of the word at byte offset `a`: its four bytes, least significant first (R42). -/
def Memory.writeWord (m : Memory) (a : Nat) (v : Word) : Memory :=
  (((m.writeMasked a (v.extractLsb' 0 8) 0xFF#8).writeMasked (a + 1) (v.extractLsb' 8 8) 0xFF#8).writeMasked
    (a + 2) (v.extractLsb' 16 8) 0xFF#8).writeMasked (a + 3) (v.extractLsb' 24 8) 0xFF#8

/-- A buffer written in full with `bytes` (R120: OUTBUF). -/
def Memory.full (bytes : List Byte) : Memory :=
  { cells := cellsFrom 0 bytes, written := cellsFrom 0 (bytes.map fun _ => 0xFF#8) }

/-! ## The life cycle of a command -/

/-- Acceptance of a CMD write (R131): PEND takes the word if BUSY = 0; else the word is dropped and OVR is set. -/
def accept (c : Word) (s : State) : State :=
  if s.status.busy then { s with status := s.status.overrun }
  else { s with pend := c, status := s.status.accepted }

/-- The pending word, decoded (R132, R64). -/
def fetch (s : State) : Except DecodeError Instr := decode s.pend

/-- How a command's `run` ends, every result still staged (R132). -/
inductive RunResult where
  /-- It raises nothing: the staged state, and whether the command was the silent no-op (R146). -/
  | done (skip : Bool) (staged : State)
  /-- `raise CmdError(code)` (R14, R148). -/
  | raised (code : ErrCode)
  /-- The model is stuck (R149). -/
  | stuck (f : Fault)

/-- `complete(code, skip)` (R133). -/
def complete (code : ErrCode) (skip : Bool) (s : State) : State :=
  { s with status := s.status.completed code skip }

/-- The end of the ENGINE step: commit the staged results if nothing was raised, else discard them, and complete
(R132, R148). -/
def commit (s : State) : RunResult → Host.Outcome State Fault Refusal
  | .done skip staged => .next (complete .none skip staged)
  | .raised code => .next (complete code false s)
  | .stuck f => .fault f

/-- The ENGINE step for a pending word that spells no command: IllegalCommand (R132, R145 (1)). -/
def illegalCommand (s : State) : Host.Outcome State Fault Refusal := commit s (.raised .illegal)

/-! ## Reset (R159) -/

/-- The reset input is asserted: every piece of the block's state takes its reset value and a pending command is discarded
(R159, R160). The parameters are the engine's build; the host's program, the schedule, what the host has read and the
draw counter are outside the block (log entry 13). -/
def resetEngine (s : State) : State :=
  { State.resetWith s.params with
    draws := s.draws, host := s.host, sched := s.sched, responses := s.responses }

end Sys2Proof.Machine
end

