-- ==== Sys2Proof/Machine/Control.lean ====
section
/-!
DEFINITION. Machine/Control.lean: NOP (45_control.md rule R135).
-/
namespace Sys2Proof.Machine

/-- NOP: the life cycle of a command and nothing else; ERR and SKIP clear (R135). -/
def execNop (s : State) : Host.Outcome State Fault Refusal := commit s (.done false s)

end Sys2Proof.Machine
end

