-- ==== Sys2Proof/Machine/Operands.lean ====
section
/-!
DEFINITION. Machine/Operands.lean: the operand forms: the 8-bit operand A (30_encoding.md rule R61), the view selector with
its validation, lengths and orders (R62; 41_cube_views.md rules R84 to R89), and the buffer operands a command reads
(10_state.md rules R32, R34, R39).
-/
namespace Sys2Proof.Machine

/-! ## The operand A -/

/-- `ir`, `v` or `n`: the field A, zero-extended (R61). -/
def operandA (a : BitVec 8) : Nat := a.toNat

/-! ## The cube index (R84, R85) -/

/-- `idx(x,y,z) = w·(5y+x) + z` (R84). -/
def flatIdx (w x y z : Nat) : Nat := w * (5 * y + x) + z

/-- `A[x,y,z] = S[idx(x,y,z)]` (R84). -/
def cubeBit (w : Nat) (S : Store) (x y z : Nat) : Bool := S.getLsbD (flatIdx w x y z)

/-- The coordinates `(x, y, z)` of flat bit `i` (R85). -/
def coordsOf (w i : Nat) : Nat × Nat × Nat := (i / w % 5, i / (5 * w), i % w)

/-! ## Views -/

/-- The six view kinds (R62, R86). -/
inductive ViewKind where
  | lane
  | plane
  | sheet
  | row
  | column
  | slice
  deriving DecidableEq, Repr

/-- The kind of a KIND code; 6 and 7 are reserved (R62). -/
def kindOfCode (k : BitVec 3) : Option ViewKind :=
  match k.toNat with
  | 0 => some .lane
  | 1 => some .plane
  | 2 => some .sheet
  | 3 => some .row
  | 4 => some .column
  | 5 => some .slice
  | _ => none

/-- Whether each coordinate the kind uses is in range: `x < 5`, `y < 5`, `z < w` (R62, R89 (3)). -/
def coordsInRange (kind : ViewKind) (w x y z : Nat) : Bool :=
  match kind with
  | .lane => x < 5 && y < 5
  | .plane => y < 5
  | .sheet => x < 5
  | .row => y < 5 && z < w
  | .column => x < 5 && z < w
  | .slice => z < w

/-- `check_view` with the KIND check before it, in the order of R89: ILLEGAL for KIND 6 and 7, nothing more when ALL = 1,
else INDEX when a used coordinate is out of range. -/
def checkView (w : Nat) (sel : ViewSel) : Except ErrCode ViewKind :=
  match kindOfCode sel.kind with
  | none => .error .illegal
  | some kind =>
    if sel.all then .ok kind
    else if coordsInRange kind w sel.x.toNat sel.y.toNat sel.z.toNat then .ok kind
    else .error .index

/-- The length `n` of a single view (R86). -/
def singleLen (kind : ViewKind) (w : Nat) : Nat :=
  match kind with
  | .lane => w
  | .plane => 5 * w
  | .sheet => 5 * w
  | .row => 5
  | .column => 5
  | .slice => 25

/-- `V[k]` of a single view (R86). -/
def singleIdx (kind : ViewKind) (w x y z k : Nat) : Nat :=
  match kind with
  | .lane => flatIdx w x y k
  | .plane => flatIdx w (k / w) y (k % w)
  | .sheet => flatIdx w x (k / w) (k % w)
  | .row => flatIdx w k y z
  | .column => flatIdx w x k z
  | .slice => flatIdx w (k % 5) (k / 5) z

/-- `V[k]` of the bulk view of a kind (R87). -/
def bulkIdx (kind : ViewKind) (w k : Nat) : Nat :=
  match kind with
  | .lane => k
  | .plane => k
  | .sheet => flatIdx w (k / (5 * w)) (k / w % 5) (k % w)
  | .row => flatIdx w (k % 5) (k / (5 * w)) (k / 5 % w)
  | .column => flatIdx w (k / (5 * w)) (k % 5) (k / 5 % w)
  | .slice => flatIdx w (k % 5) (k / 5 % 5) (k / 25)

/-- The length of the selected view: the kind's own, or `b` when ALL = 1 (R86, R87). -/
def viewLen (kind : ViewKind) (w : Nat) (sel : ViewSel) : Nat :=
  if sel.all then 25 * w else singleLen kind w

/-- The flat index of bit `k` of the selected view (R86, R87). -/
def viewIdx (kind : ViewKind) (w : Nat) (sel : ViewSel) (k : Nat) : Nat :=
  if sel.all then bulkIdx kind w k else singleIdx kind w sel.x.toNat sel.y.toNat sel.z.toNat k

/-! ## Buffer operands -/

/-- `VIEWBUF[k]` as a command in state `s` reads it (R39). -/
def viewOperand (s : State) (k : Nat) : Bool := s.viewbuf.read s.freshBit k

/-- `MSGBUF[0..MSGLEN)` as a command in state `s` reads it (R34, R39). -/
def messageOperand (s : State) : Bits := bitsOf (fun i => s.msgbuf.read s.freshBit i) s.msglen.toNat

/-- The `8·n` bits of DIN a HASH_UPDATE appends (R129). -/
def dinOperand (s : State) (n : Nat) : Bits := bitsOf s.din.getLsbD (8 * n)

end Sys2Proof.Machine
end

