-- ==== Sys2Proof/Machine/Cube.lean ====
section
/-!
DEFINITION. Machine/Cube.lean: the commands that configure, clear, read and write the state: CONFIGURE, CLEAR, VIEW_GET,
VIEW_SET and VIEW_XOR (41_cube_views.md rules R90 to R94).
-/
namespace Sys2Proof.Machine

/-- CONFIGURE: apply CFG to ACTCFG and zero the storage, or raise CONFIG (R90). -/
def runConfigure (s : State) : RunResult :=
  if s.cfg.legal then .done false { s with actcfg := s.cfg, store := 0#1600 } else .raised .config

/-- CONFIGURE (R90). -/
def execConfigure (s : State) : Host.Outcome State Fault Refusal := commit s (runConfigure s)

/-- CLEAR: `S[0..b) <- 0^b` (R91). -/
def execClear (s : State) : Host.Outcome State Fault Refusal :=
  commit s (.done false { s with store := putState s.actcfg.b s.store 0#1600 })

/-- VIEW_GET: copy the view into VIEWBUF, zero the rest, set VLEN (R92). -/
def runViewGet (sel : ViewSel) (s : State) : RunResult :=
  match checkView s.actcfg.w sel with
  | .error e => .raised e
  | .ok kind =>
    let n := viewLen kind s.actcfg.w sel
    .done false
      { s with
        viewbuf := ViewBuf.full (gather (fun k => s.store.getLsbD (viewIdx kind s.actcfg.w sel k)) n)
        vlen := BitVec.ofNat 11 n }

/-- VIEW_GET (R92). -/
def execViewGet (sel : ViewSel) (s : State) : Host.Outcome State Fault Refusal := commit s (runViewGet sel s)

/-- VIEW_SET: write VIEWBUF to the view, or raise LENGTH when VLEN is not the view's length (R93). -/
def runViewSet (sel : ViewSel) (s : State) : RunResult :=
  match checkView s.actcfg.w sel with
  | .error e => .raised e
  | .ok kind =>
    let n := viewLen kind s.actcfg.w sel
    if s.vlen.toNat ≠ n then .raised .length
    else
      .done false
        { s.drew n with store := scatter (viewIdx kind s.actcfg.w sel) (viewOperand s) n s.store }

/-- VIEW_SET (R93). -/
def execViewSet (sel : ViewSel) (s : State) : Host.Outcome State Fault Refusal := commit s (runViewSet sel s)

/-- VIEW_XOR: XOR VIEWBUF into the view, or do nothing and report SKIP when VLEN is not the view's length (R94, R146). The
view's positions are distinct, so `S[V[k]]` is read from the state before the command. -/
def runViewXor (sel : ViewSel) (s : State) : RunResult :=
  match checkView s.actcfg.w sel with
  | .error e => .raised e
  | .ok kind =>
    let n := viewLen kind s.actcfg.w sel
    let V := viewIdx kind s.actcfg.w sel
    if s.vlen.toNat ≠ n then .done true s
    else
      .done false
        { s.drew n with store := scatter V (fun k => s.store.getLsbD (V k) ^^ viewOperand s k) n s.store }

/-- VIEW_XOR (R94). -/
def execViewXor (sel : ViewSel) (s : State) : Host.Outcome State Fault Refusal := commit s (runViewXor sel s)

end Sys2Proof.Machine
end

