-- ==== Sys2Proof/Machine/Permutation.lean ====
section
/-!
DEFINITION. Machine/Permutation.lean: the step mappings θ, ρ, π, χ and ι, the round constants, one round and Keccak-f[b]
(42_round_function.md rules R96 to R105, R111, R112), as pure functions of the storage and of `l`.
They are written in the lane form of R105, which the spec states equal to the bit form of R96 to R103 (log entry 12).
Every mapping reads the whole old state and builds the whole new one (R15, R164). Its result is zero from bit `b` on.
-/
namespace Sys2Proof.Machine

/-! ## Lanes (R17, R41) -/

/-- Ones in bits `0 .. w-1` of a lane. -/
def laneMask (w : Nat) : Lane := BitVec.ofNat 64 (2 ^ w - 1)

/-- `Lane(x,y)`: the `w` bits `S[w·(5y+x) .. w·(5y+x)+w)`, bit `z` being `A[x,y,z]` (R17). -/
def laneOf (w : Nat) (S : Store) (x y : Nat) : Lane := S.extractLsb' (flatIdx w x y 0) 64 &&& laneMask w

/-- The lanes with flat numbers `5y+x` below `n`, each at its place. -/
def lanesUpTo (w : Nat) (f : Nat → Nat → Lane) : Nat → Store
  | 0 => 0#1600
  | n + 1 => lanesUpTo w f n ||| ((f (n % 5) (n / 5) &&& laneMask w).setWidth 1600 <<< (w * n))

/-- The state whose lane `(x,y)` is `f x y` (R17). -/
def ofLanes (w : Nat) (f : Nat → Nat → Lane) : Store := lanesUpTo w f 25

/-- `ROT_w(v, u)[z] = v[(z - u) mod w]`, for `u < w` (R13). -/
def rotLane (w : Nat) (v : Lane) (u : Nat) : Lane := ((v <<< u) ||| (v >>> (w - u))) &&& laneMask w

/-! ## The five step mappings -/

/-- `C[x]`, the parity of the columns of sheet `x` (R96, R105). -/
def columnParity (w : Nat) (S : Store) (x : Nat) : Lane :=
  laneOf w S x 0 ^^^ laneOf w S x 1 ^^^ laneOf w S x 2 ^^^ laneOf w S x 3 ^^^ laneOf w S x 4

/-- `D[x] = C[x-1] ⊕ ROT(C[x+1], 1)`, coordinates mod 5 (R96, R105). -/
def thetaEffect (w : Nat) (S : Store) (x : Nat) : Lane :=
  columnParity w S ((x + 4) % 5) ^^^ rotLane w (columnParity w S ((x + 1) % 5)) (1 % w)

/-- θ (R96). -/
def theta (w : Nat) (S : Store) : Store := ofLanes w fun x y => laneOf w S x y ^^^ thetaEffect w S x

/-- The lane visited at step `t` of the walk `(1,0)`, then `(x,y) ← (y, (2x+3y) mod 5)` (R97). -/
def rhoWalk : Nat → Nat × Nat
  | 0 => (1, 0)
  | t + 1 => ((rhoWalk t).2, (2 * (rhoWalk t).1 + 3 * (rhoWalk t).2) % 5)

/-- `T(x,y)` by the walk: `(t+1)(t+2)/2` at the step `t < n` that visits `(x,y)`, and 0 for the lane it never visits,
`(0,0)` (R97, R98; 90_conflicts.md C1). -/
def rhoOffsetBelow (x y : Nat) : Nat → Nat
  | 0 => 0
  | n + 1 => if rhoWalk n = (x, y) then (n + 1) * (n + 2) / 2 else rhoOffsetBelow x y n

/-- The offsets `T(x,y)` of R98, row `y` by row, `x = 0..4` in each row. Laws/Permutation.lean proves that the walk of R97
gives exactly these. -/
def rhoOffsets : List Nat :=
  [0, 1, 190, 28, 91,
   36, 300, 6, 55, 276,
   3, 10, 171, 153, 231,
   105, 45, 15, 21, 136,
   210, 66, 253, 120, 78]

/-- `T(x,y)` (R98). -/
def rhoOffset (x y : Nat) : Nat := rhoOffsets.getD (5 * y + x) 0

/-- ρ (R97): lane `(x,y)` is rotated by `T(x,y) mod w`. -/
def rho (w : Nat) (S : Store) : Store := ofLanes w fun x y => rotLane w (laneOf w S x y) (rhoOffset x y % w)

/-- π (R99): new lane `(x,y)` is old lane `((x+3y) mod 5, x)`. -/
def pi (w : Nat) (S : Store) : Store := ofLanes w fun x y => laneOf w S ((x + 3 * y) % 5) x

/-- χ (R100). -/
def khi (w : Nat) (S : Store) : Store :=
  ofLanes w fun x y => laneOf w S x y ^^^ (~~~(laneOf w S ((x + 1) % 5) y) &&& laneOf w S ((x + 2) % 5) y)

/-! ## Round constants (R101 to R104) -/

/-- One step of the 8-bit LFSR: `R9 <- 0 ‖ R`, then `R9[8]` is added at positions 0, 4, 5 and 6 (R101). -/
def lfsrStep (R : BitVec 8) : BitVec 8 :=
  let R9 : BitVec 9 := R.setWidth 9 <<< 1
  (if R9.getLsbD 8 then R9 ^^^ 0b001110001#9 else R9).setWidth 8

/-- The LFSR after `t` steps from `R[0] = 1` and the rest 0 (R101). -/
def lfsr : Nat → BitVec 8
  | 0 => 1#8
  | t + 1 => lfsrStep (lfsr t)

/-- The ROM RCTAB: bit `t` is `rc(t)` for `t < 255` (R38, R102). Laws/Permutation.lean proves it is what R101's LFSR
gives. -/
def rcTab : BitVec 255 := 0x0e25c0c93720adacb0fb7ae886c79cc5a452a7767bf4cd460eabe509fe178d01#255

/-- `rc(t)`, from the ROM, with `t` reduced mod 255 (R38, R101). -/
def rc (t : Nat) : Bool := rcTab.getLsbD (t % 255)

/-- The bits `rc(j + 7·ir)` at positions `2^j - 1` for `j < n` (R103). -/
def rcLaneBelow (ir : Nat) : Nat → Lane
  | 0 => 0#64
  | j + 1 => rcLaneBelow ir j ||| (if rc (j + 7 * ir) then 1#64 <<< (2 ^ j - 1) else 0#64)

/-- `RC[ir]` for `w = 2^l`: `j` runs over `0..l` (R103). -/
def rcLane (l ir : Nat) : Lane := rcLaneBelow ir (l + 1)

/-- ι (R103): lane `(0,0)`, the low `w` bits, is XORed with `RC[ir]`. -/
def iota (l : Nat) (S : Store) (ir : Nat) : Store := S ^^^ (rcLane l ir).setWidth 1600

/-! ## One round and the permutation -/

/-- `Rnd(S, ir) = ι(χ(π(ρ(θ(S)))), ir)` (R111). -/
def roundFn (l : Nat) (S : Store) (ir : Nat) : Store :=
  iota l (khi (2 ^ l) (pi (2 ^ l) (rho (2 ^ l) (theta (2 ^ l) S)))) ir

/-- The rounds `0, ..., n-1`, in order. -/
def roundsUpTo (l : Nat) (S : Store) : Nat → Store
  | 0 => S
  | n + 1 => roundFn l (roundsUpTo l S n) n

/-- RoundCount (R8). -/
def roundCount (l : Nat) : Nat := 12 + 2 * l

/-- Keccak-f[b], `KF`: the rounds `0 .. 11+2l` (R112). -/
def keccakF (l : Nat) (S : Store) : Store := roundsUpTo l S (roundCount l)

end Sys2Proof.Machine
end

