-- ==== Sys2Proof/Machine/Round.lean ====
section
/-!
DEFINITION. Machine/Round.lean: the commands THETA, RHO, PI, KHI, IOTA, ROUND and PERMUTE (42_round_function.md rules R106 to
R112). None raises anything. In a state whose ACTCFG breaks the invariant of R25 the model is stuck (R149).
-/
namespace Sys2Proof.Machine

/-- `S <- g(S)` for a mapping `g` of the active `l`, which only a legal ACTCFG admits (R149). -/
def runMapping (g : Nat → Store → Store) (s : State) : RunResult :=
  if s.actcfg.legal then
    .done false { s with store := putState s.actcfg.b s.store (g s.actcfg.lNat s.store) }
  else .stuck .inconsistentStateSize

/-- THETA: `S <- θ(S)` (R106). -/
def execTheta (s : State) : Host.Outcome State Fault Refusal := commit s (runMapping (fun l S => theta (2 ^ l) S) s)

/-- RHO: `S <- ρ(S)` (R107). -/
def execRho (s : State) : Host.Outcome State Fault Refusal := commit s (runMapping (fun l S => rho (2 ^ l) S) s)

/-- PI: `S <- π(S)` (R108). -/
def execPi (s : State) : Host.Outcome State Fault Refusal := commit s (runMapping (fun l S => pi (2 ^ l) S) s)

/-- KHI: `S <- χ(S)` (R109). -/
def execKhi (s : State) : Host.Outcome State Fault Refusal := commit s (runMapping (fun l S => khi (2 ^ l) S) s)

/-- IOTA ir: `S <- ι(S, ir)` (R110). -/
def execIota (ir : BitVec 8) (s : State) : Host.Outcome State Fault Refusal :=
  commit s (runMapping (fun l S => iota l S (operandA ir)) s)

/-- ROUND ir: one round with any round index 0..255 (R111). -/
def execRound (ir : BitVec 8) (s : State) : Host.Outcome State Fault Refusal :=
  commit s (runMapping (fun l S => roundFn l S (operandA ir)) s)

/-- PERMUTE: Keccak-f[b], 12 + 2l rounds (R112). -/
def execPermute (s : State) : Host.Outcome State Fault Refusal := commit s (runMapping keccakF s)

end Sys2Proof.Machine
end

