-- ==== Sys2Proof/Machine/Sponge.lean ====
section
/-!
DEFINITION. Machine/Sponge.lean: the padding rule, the sponge function, and the commands ABSORB_BLOCK, EXTRACT_BLOCK and
PROCESS (43_sponge.md rules R113 to R123).
-/
namespace Sys2Proof.Machine

/-! ## Padding (R113) -/

/-- `j = (-m - 2) mod r` (R113). -/
def padZeros (r m : Nat) : Nat := ((-(m : Int) - 2) % (r : Int)).toNat

/-- `pad(r, m) = "1" ‖ 0^j ‖ "1"` (R113). -/
def padding (r m : Nat) : Bits := true :: (List.replicate (padZeros r m) false ++ [true])

/-- `M = N ‖ s ‖ pad(r, |N| + |s|)` (R115 (2)). -/
def padded (r : Nat) (N s : Bits) : Bits := N ++ s ++ padding r (N.length + s.length)

/-! ## The sponge function (R115) -/

/-- One absorb step: `KF(T XOR (P ‖ 0^c))` (R115 (3)). -/
def absorbOne (l : Nat) (P : Bits) (T : Store) : Store := keccakF l (T ^^^ bitsToStore P)

/-- Absorb the first `k` blocks of `r` bits of `M`, in order; a permutation follows each (R115 (3), 90_conflicts.md C5). -/
def absorbBlocks (l r : Nat) : Nat → Bits → Store → Store
  | 0, _, T => T
  | k + 1, M, T => absorbBlocks l r k (M.drop r) (absorbOne l (M.take r) T)

/-- `T[0..r)`. -/
def ratePart (r : Nat) (T : Store) : Bits := bitsOf T.getLsbD r

/-- The squeeze loop of R115 (4): take, stop when `d` bits are there, else permute and repeat. Every take adds `r ≥ 1` bits,
so a first argument of `d` is never used up. -/
def squeezeLoop (l r d : Nat) : Nat → Bits → Store → Bits × Store
  | 0, Z, T => (Z ++ ratePart r T, T)
  | n + 1, Z, T =>
    if (Z ++ ratePart r T).length ≥ d then (Z ++ ratePart r T, T)
    else squeezeLoop l r d n (Z ++ ratePart r T) (keccakF l T)

/-- `SPONGE(N, s, d)`: the output of `d` bits and the final `T` (R115, R116). -/
def sponge (l r : Nat) (N s : Bits) (d : Nat) : Bits × Store :=
  let M := padded r N s
  let T := absorbBlocks l r (M.length / r) M 0#1600
  let out := squeezeLoop l r d d [] T
  (out.1.take d, out.2)

/-! ## Block commands -/

/-- ABSORB_BLOCK: XOR VIEWBUF[0..r) into the state and permute; with VLEN ≠ r the silent no-op (R117, R146). -/
def runAbsorbBlock (s : State) : RunResult :=
  if ¬s.actcfg.legal then .stuck .inconsistentStateSize
  else
    let r := s.actcfg.rate.toNat
    if s.vlen.toNat ≠ r then .done true s
    else
      .done false
        { s.drew r with
          store := putState s.actcfg.b s.store
            (absorbOne s.actcfg.lNat (bitsOf (viewOperand s) r) s.store) }

/-- ABSORB_BLOCK (R117). -/
def execAbsorbBlock (s : State) : Host.Outcome State Fault Refusal := commit s (runAbsorbBlock s)

/-- EXTRACT_BLOCK: copy S[0..r) into VIEWBUF, zero the rest, set VLEN; it does not permute (R118). -/
def execExtractBlock (s : State) : Host.Outcome State Fault Refusal :=
  commit s
    (.done false
      { s with
        viewbuf := ViewBuf.full (gather s.store.getLsbD s.actcfg.rate.toNat)
        vlen := s.actcfg.rate })

/-! ## PROCESS (R120) -/

/-- PROCESS: the checks in the order written, then the whole sponge, OUTBUF in full and the final state (R120). -/
def runProcess (s : State) : RunResult :=
  if s.suffix.len.toNat > 8 then .raised .config
  else if s.msglen.toNat > 8 * s.params.msgBytes then .raised .length
  else if (s.outlen.toNat + 7) / 8 > s.params.outBytes then .raised .length
  else if ¬s.actcfg.legal then .stuck .inconsistentStateSize
  else
    let out := sponge s.actcfg.lNat s.actcfg.rate.toNat (messageOperand s) s.suffix.suffix s.outlen.toNat
    .done false
      { s.drew s.msglen.toNat with
        outbuf := Memory.full (toBytesN s.params.outBytes out.1)
        store := putState s.actcfg.b s.store out.2 }

/-- PROCESS (R120). -/
def execProcess (s : State) : Host.Outcome State Fault Refusal := commit s (runProcess s)

end Sys2Proof.Machine
end

