-- ==== Sys2Proof/Machine/Variants.lean ====
section
/-!
DEFINITION. Machine/Variants.lean: the eight variants and the commands SELECT_VARIANT, HASH_INIT and HASH_UPDATE
(44_variants_adapter.md rules R124 to R130). HASH_FINAL is PROCESS (R127, R130).
-/
namespace Sys2Proof.Machine

/-- One row of VARTAB (R124): the capacity, the suffix, and the output length a SHA3 variant sets. -/
structure Variant where
  capacity : Nat
  sufBits  : BitVec 8
  sufLen   : BitVec 4
  outLen   : Option Nat
  deriving DecidableEq, Repr

/-- VARTAB (R124). RAWSHAKE_CAP is an OPEN parameter with default (256, 512) (D15). -/
def varTab (p : Params) (v : Nat) : Option Variant :=
  match v with
  | 0 => some ⟨448, 0x02#8, 2#4, some 224⟩
  | 1 => some ⟨512, 0x02#8, 2#4, some 256⟩
  | 2 => some ⟨768, 0x02#8, 2#4, some 384⟩
  | 3 => some ⟨1024, 0x02#8, 2#4, some 512⟩
  | 4 => some ⟨256, 0x0F#8, 4#4, none⟩
  | 5 => some ⟨512, 0x0F#8, 4#4, none⟩
  | 6 => some ⟨p.rawCap128, 0x03#8, 2#4, none⟩
  | 7 => some ⟨p.rawCap256, 0x03#8, 2#4, none⟩
  | _ => none

/-- The registers a variant sets, and the zeroed storage (R126). CFG keeps its value. -/
def applyVariant (row : Variant) (s : State) : State :=
  { s with
    actcfg := { l := 6#3, rate := BitVec.ofNat 11 (1600 - row.capacity) }
    suffix := { bits := row.sufBits, len := row.sufLen }
    outlen := match row.outLen with
      | some d => BitVec.ofNat 32 d
      | none => s.outlen
    store := 0#1600 }

/-- SELECT_VARIANT v, or CONFIG for v ≥ 8 (R126). -/
def runSelectVariant (v : Nat) (s : State) : RunResult :=
  match varTab s.params v with
  | none => .raised .config
  | some row => .done false (applyVariant row s)

/-- SELECT_VARIANT (R126). -/
def execSelectVariant (v : BitVec 8) (s : State) : Host.Outcome State Fault Refusal :=
  commit s (runSelectVariant (operandA v) s)

/-- HASH_INIT v: SELECT_VARIANT v, then the empty accumulated buffer (R128). -/
def runHashInit (v : Nat) (s : State) : RunResult :=
  match runSelectVariant v s with
  | .done skip staged => .done skip { staged with msglen := 0#32 }
  | r => r

/-- HASH_INIT (R128). -/
def execHashInit (v : BitVec 8) (s : State) : Host.Outcome State Fault Refusal :=
  commit s (runHashInit (operandA v) s)

/-- HASH_UPDATE n: append n bytes of DIN at bit position MSGLEN; ILLEGAL for n ∉ 1..4, LENGTH when they do not fit (R129). -/
def runHashUpdate (n : Nat) (s : State) : RunResult :=
  if n < 1 ∨ n > 4 then .raised .illegal
  else if s.msglen.toNat + 8 * n > 8 * s.params.msgBytes then .raised .length
  else
    .done false
      { s with
        msgbuf := s.msgbuf.writeBits s.msglen.toNat (dinOperand s n)
        msglen := BitVec.ofNat 32 (s.msglen.toNat + 8 * n) }

/-- HASH_UPDATE (R129). -/
def execHashUpdate (n : BitVec 8) (s : State) : Host.Outcome State Fault Refusal :=
  commit s (runHashUpdate (operandA n) s)

end Sys2Proof.Machine
end

