-- ==== Sys2Proof/Machine/Dispatch.lean ====
section
/-!
DEFINITION. Machine/Dispatch.lean: from a command to its meaning, one arm per row of the opcode table (R63).
Each meaning is the whole ENGINE step of its command: it runs, commits or discards, and completes (R132, R133).
-/
namespace Sys2Proof.Machine

def exec (i : Instr) (s : State) : Host.Outcome State Fault Refusal :=
  match i with
  | .nop => Sys2Proof.Machine.execNop s
  | .configure => Sys2Proof.Machine.execConfigure s
  | .clear => Sys2Proof.Machine.execClear s
  | .theta => Sys2Proof.Machine.execTheta s
  | .rho => Sys2Proof.Machine.execRho s
  | .pi => Sys2Proof.Machine.execPi s
  | .khi => Sys2Proof.Machine.execKhi s
  | .iota ir => Sys2Proof.Machine.execIota ir s
  | .round ir => Sys2Proof.Machine.execRound ir s
  | .permute => Sys2Proof.Machine.execPermute s
  | .absorbBlock => Sys2Proof.Machine.execAbsorbBlock s
  | .extractBlock => Sys2Proof.Machine.execExtractBlock s
  | .process => Sys2Proof.Machine.execProcess s
  | .selectVariant v => Sys2Proof.Machine.execSelectVariant v s
  | .hashInit v => Sys2Proof.Machine.execHashInit v s
  | .hashUpdate n => Sys2Proof.Machine.execHashUpdate n s
  | .viewGet sel => Sys2Proof.Machine.execViewGet sel s
  | .viewSet sel => Sys2Proof.Machine.execViewSet sel s
  | .viewXor sel => Sys2Proof.Machine.execViewXor sel s

end Sys2Proof.Machine
end

