-- ==== Sys2Proof/Machine/HostPort.lean ====
section
/-!
DEFINITION. Machine/HostPort.lean: the HOST agent and the register window (10_state.md rules R20 to R35; 20_memory.md rules
R44 to R48; 45_control.md rules R131, R134, R138), and whose turn it is (R132, R159, R168).
-/
namespace Sys2Proof.Machine

/-! ## The register map (R20) -/

/-- What stands at an offset of the window. A window word is named by its number. -/
inductive Reg where
  | id
  | status
  | cmd
  | cfg
  | actcfg
  | suffix
  | msglen
  | outlen
  | vlen
  | din
  | stateWord (k : Nat)
  | viewWord (k : Nat)
  | outWord (k : Nat)
  | msgWord (k : Nat)
  | reserved
  deriving DecidableEq, Repr

/-- The registers below the windows (R20). -/
def lowReg (off : Nat) : Reg :=
  match off with
  | 0x000 => .id
  | 0x004 => .status
  | 0x008 => .cmd
  | 0x00C => .cfg
  | 0x010 => .actcfg
  | 0x014 => .suffix
  | 0x018 => .msglen
  | 0x01C => .outlen
  | 0x020 => .vlen
  | 0x024 => .din
  | _ => .reserved

/-- The register map: what stands at offset `off`, a multiple of 4 below 0x10000 (R20, R35). -/
def regAt (p : Params) (off : Nat) : Reg :=
  if off < 0x100 then lowReg off
  else if off < 0x1C8 then .stateWord ((off - 0x100) / 4)
  else if off < 0x200 then .reserved
  else if off < 0x2C8 then .viewWord ((off - 0x200) / 4)
  else if off < 0x400 then .reserved
  else if off < 0x400 + p.outBytes then .outWord ((off - 0x400) / 4)
  else if off < 0x1000 then .reserved
  else if off < 0x1000 + p.msgBytes then .msgWord ((off - 0x1000) / 4)
  else .reserved

/-- The offset of a register of the map (R20). `reserved` stands for the first reserved offset. -/
def regOffset : Reg → Nat
  | .id => 0x000
  | .status => 0x004
  | .cmd => 0x008
  | .cfg => 0x00C
  | .actcfg => 0x010
  | .suffix => 0x014
  | .msglen => 0x018
  | .outlen => 0x01C
  | .vlen => 0x020
  | .din => 0x024
  | .stateWord k => 0x100 + 4 * k
  | .viewWord k => 0x200 + 4 * k
  | .outWord k => 0x400 + 4 * k
  | .msgWord k => 0x1000 + 4 * k
  | .reserved => 0x028

/-- ID reads the constant 0x4B454343 (R21). -/
def idValue : Word := 0x4B454343#32

/-! ## Reads -/

/-- Word `k` of a bit-addressed buffer: bit `i` of the word is bit `32·k + i` of the buffer (R42). -/
def wordOfBits (f : Nat → Bool) (k : Nat) : Word := bitsToWord (bitsOf (fun i => f (32 * k + i)) 32)

/-- A read while BUSY = 0: the register's true value, and the state after it. Only a buffer word can draw: its unwritten bits
are fresh free bits (R21 to R35, R39, R138). -/
def readIdle (r : Reg) (s : State) : Word × State :=
  match r with
  | .id => (idValue, s)
  | .status => (s.status.word, s)
  | .cmd => (0#32, s)
  | .cfg => (s.cfg.word, s)
  | .actcfg => (s.actcfg.word, s)
  | .suffix => (s.suffix.word, s)
  | .msglen => (s.msglen, s)
  | .outlen => (s.outlen, s)
  | .vlen => (s.vlen.setWidth 32, s)
  | .din => (s.din, s)
  | .stateWord k => ((stateImage s).extractLsb' (32 * k) 32, s)
  | .viewWord k => (wordOfBits (s.viewbuf.read s.freshBit) k, s.drew (32 * k + 32))
  | .outWord k => (wordOfBits (s.outbuf.read s.freshBit) k, s.drew (32 * k + 32))
  | .msgWord k => (wordOfBits (s.msgbuf.read s.freshBit) k, s.drew (32 * k + 32))
  | .reserved => (0#32, s)

/-- A read while BUSY = 1: ID and STATUS read true, anything else is 32 fresh free bits (R22, R48). -/
def readBusy (r : Reg) (s : State) : Word × State :=
  match r with
  | .id => (idValue, s)
  | .status => (s.status.word, s)
  | _ => (bitsToWord (freeBits s 32), s.drew 32)

/-- `MemRead(BASE+off, 4)` (R44, R48). -/
def readReg (r : Reg) (s : State) : Word × State :=
  if s.status.busy then readBusy r s else readIdle r s

/-! ## Writes -/

/-- A write while BUSY = 0 (R23 to R35, R131, R134, R138). Read-only registers and reserved offsets ignore it. -/
def writeIdle (r : Reg) (v : Word) (s : State) : State :=
  match r with
  | .status => { s with status := s.status.cleared v }
  | .cmd => accept v s
  | .cfg => { s with cfg := CfgReg.ofWord v }
  | .suffix => { s with suffix := SuffixReg.ofWord v }
  | .msglen => { s with msglen := v }
  | .outlen => { s with outlen := v }
  | .vlen => { s with vlen := v.setWidth 11 }
  | .din => { s with din := v }
  | .viewWord k => { s with viewbuf := s.viewbuf.writeWord k v }
  | .msgWord k => { s with msgbuf := s.msgbuf.writeWord (4 * k) v }
  | .id | .actcfg | .stateWord _ | .outWord _ | .reserved => s

/-- A write while BUSY = 1: to STATUS it takes effect, to anything else it is dropped and sets OVR (R48). -/
def writeBusy (r : Reg) (v : Word) (s : State) : State :=
  match r with
  | .status => { s with status := s.status.cleared v }
  | .cmd => accept v s
  | _ => { s with status := s.status.overrun }

/-- `MemWrite(BASE+off, 4, v)` (R44, R48). -/
def writeReg (r : Reg) (v : Word) (s : State) : State :=
  if s.status.busy then writeBusy r v s else writeIdle r v s

/-! ## Accesses (R44, R45) -/

/-- The host is handed a value it has read. -/
def respond (v : Word) (s : State) : State := { s with responses := s.responses ++ [v] }

/-- Whether an address lies in the engine's 64 KiB window (R20, R44). -/
def inWindow (p : Params) (addr : Nat) : Bool := p.base ≤ addr && addr < p.base + 0x10000

/-- Whether an access is an aligned 32-bit one (R44, R45). -/
def supported (p : Params) (a : Access) : Bool := (a.addr - p.base) % 4 == 0 && a.width == 4

/-- The register an access names. -/
def accessReg (p : Params) (a : Access) : Reg := regAt p (a.addr - p.base)

/-- One host access. Outside the window it is no access to this engine, and a misaligned or non-32-bit one is refused
(R45). -/
def performAccess (a : Access) (s : State) : Host.Outcome State Fault Refusal :=
  if !inWindow s.params a.addr then .fault .outsideWindow
  else if !supported s.params a then .refused .unsupportedAccess
  else
    match a.dir with
    | .read => .next (respond (readReg (accessReg s.params a) s).1 (readReg (accessReg s.params a) s).2)
    | .write v => .next (writeReg (accessReg s.params a) v s)

/-! ## The HOST agent (R16, R68, R138) -/

/-- One move of the host: its next access, or one poll of a WAIT, which ends when STATUS reads BUSY = 0 (R68). A host with
nothing left to do does nothing (R139). -/
def hostMove (s : State) : Host.Outcome State Fault Refusal :=
  match s.host with
  | [] => .next s
  | .access a :: rest => performAccess a { s with host := rest }
  | .wait :: rest =>
    if s.status.busy then .next (respond s.status.word s)
    else .next (respond s.status.word { s with host := rest })

/-! ## Whose turn it is (R132, R159, R168) -/

/-- The next move, with the state in which the mover's turn has been taken off the schedule. -/
inductive Move where
  | engine (s : State)
  | host (s : State)
  | reset (s : State)
  /-- Nobody moves: the mover named is not enabled, or nothing is left to do (R158). -/
  | idle (s : State)
  deriving DecidableEq, Repr

/-- Who moves next. The schedule decides, and an ENGINE turn is idle when the ENGINE step is not enabled, that is when
BUSY = 0 (R132). When the schedule is used up the ENGINE moves as soon as it can, else the host (weak fairness, R168; log
entry 6). -/
def nextMove (s : State) : Move :=
  match s.sched with
  | .host :: rest => .host { s with sched := rest }
  | .engine :: rest => if s.status.busy then .engine { s with sched := rest } else .idle { s with sched := rest }
  | .reset :: rest => .reset { s with sched := rest }
  | [] => if s.status.busy then .engine s else if s.host = [] then .idle s else .host s

/-- The state in which the command word `c` is pending and the ENGINE moves next: a CMD write of `c` has just been accepted
and no other move is scheduled before the ENGINE step. -/
def placeCommand (s : State) (c : Word) : State :=
  { s with
    pend := c
    status := s.status.accepted
    sched := if s.sched = [] then [] else .engine :: s.sched }

end Sys2Proof.Machine
end

