-- ==== Sys2Proof/Machine/Step.lean ====
section
/-!
DEFINITION. Machine/Step.lean: one step of an engine with its host (R16, R132). Everything it does is defined in
Machine/Ops.lean, Machine/HostPort.lean and Machine/Dispatch.lean.
-/
namespace Sys2Proof.Machine

/-- One step: one move of the agent whose turn it is. The ENGINE's move decodes PEND and runs the command, or reports
IllegalCommand (R132). -/
def step (s : State) : Host.Outcome State Fault Refusal :=
  match nextMove s with
  | .engine s' =>
    match fetch s' with
    | .ok i => exec i s'
    | .error _ => illegalCommand s'
  | .host s' => hostMove s'
  | .reset s' => .next (resetEngine s')
  | .idle s' => .next s'

/-- `s` with the opcode-table word `w` placed as the pending command and the ENGINE to move (log entry 8). -/
def State.withFetchWord (s : State) (nbits w : Nat) : State := placeCommand s (tableWord nbits w)

end Sys2Proof.Machine
end

