-- ==== Sys2Proof/Machine/HostProgram.lean ====
section
/-!
DEFINITION. Machine/HostProgram.lean: the host's program notation: the lines WR, RD, CMD, the pseudo-instructions and their
expansions into register accesses (30_encoding.md rules R67 and R68). The text of a line is read in
Machine/Assembler.lean.
-/
namespace Sys2Proof.Machine

/-- The variant names an assembler line may use (R67, R124). -/
inductive VariantName where
  | sha3_224
  | sha3_256
  | sha3_384
  | sha3_512
  | shake128
  | shake256
  | rawshake128
  | rawshake256
  deriving DecidableEq, Repr

/-- The variant code of a name (R124). -/
def variantCode : VariantName → BitVec 8
  | .sha3_224 => 0#8
  | .sha3_256 => 1#8
  | .sha3_384 => 2#8
  | .sha3_512 => 3#8
  | .shake128 => 4#8
  | .shake256 => 5#8
  | .rawshake128 => 6#8
  | .rawshake256 => 7#8

/-- What may stand after CMD or RUN (R67, R68). -/
inductive HostCommand where
  /-- A command of the table. -/
  | instr (i : Instr)
  /-- `CMD <number>`: any command word, reserved encodings included. -/
  | number (c : Word)
  /-- HASH_FINAL. -/
  | hashFinal
  /-- KECCAK_F. -/
  | keccakF
  /-- A variant name used alone as a command. -/
  | variant (v : VariantName)
  deriving DecidableEq, Repr

/-- The command word written to CMD (R67, R68). -/
def commandWord : HostCommand → Word
  | .instr i => encode i
  | .number c => c
  | .hashFinal => encode .process
  | .keccakF => encode .permute
  | .variant v => encode (.selectVariant (variantCode v))

/-- One line of a host program (R67, R68). -/
inductive HostLine where
  | wr (r : Reg) (v : Word)
  | rd (r : Reg)
  | cmd (c : HostCommand)
  | wait
  | run (c : HostCommand)
  | loadState (words : List Word)
  | readState
  deriving DecidableEq, Repr

/-- `MemWrite(BASE+offset(reg), 4, v)` (R67). -/
def wrOp (p : Params) (r : Reg) (v : Word) : HostOp :=
  .access { addr := p.base + regOffset r, width := 4, dir := .write v }

/-- `MemRead(BASE+offset(reg), 4)` (R67). -/
def rdOp (p : Params) (r : Reg) : HostOp := .access { addr := p.base + regOffset r, width := 4, dir := .read }

/-- `VIEW_SET.ALL LANE`, coordinates 0 (R67). -/
def viewSetAllLane : Instr := .viewSet { kind := 0#3, all := true, x := 0#3, y := 0#3, z := 0#6 }

/-- The accesses a line expands to, on an engine whose state has `b` bits (R67, R68). DESIGN CHOICE (log entry 16): R68 gives
LOAD_STATE no meaning when the list does not hold exactly ⌈b/32⌉ words; here a missing word is written as 0 and an extra one
is ignored. -/
def lineOps (p : Params) (b : Nat) : HostLine → List HostOp
  | .wr r v => [wrOp p r v]
  | .rd r => [rdOp p r]
  | .cmd c => [wrOp p .cmd (commandWord c)]
  | .wait => [.wait]
  | .run c => [wrOp p .cmd (commandWord c), .wait]
  | .loadState words =>
    ((List.range ((b + 31) / 32)).map fun k => wrOp p (.viewWord k) (words.getD k 0#32)) ++
      [wrOp p .vlen (BitVec.ofNat 32 b), wrOp p .cmd (encode viewSetAllLane)]
  | .readState => (List.range ((b + 31) / 32)).map fun k => rdOp p (.stateWord k)

/-- A whole program's accesses, in issue order (R52, R67). DESIGN CHOICE (log entry 16): LOAD_STATE and READ_STATE expand by
`b`, a width ACTCFG.L fixes at run time (R6, R17), and R68 does not say which `b` counts when the program itself changes L
between lines. Here the caller gives one `b` and every line expands by it; a program that changes L is given in parts, each
with its own `b`, and their accesses are concatenated. -/
def programOps (p : Params) (b : Nat) (lines : List HostLine) : List HostOp := lines.flatMap (lineOps p b)

/-- The host is given a program to run: how a program comes to run from reset (log entry 7). -/
def loadProgram (s : State) (ops : List HostOp) : State := { s with host := s.host ++ ops }

end Sys2Proof.Machine
end

