-- ==== Sys2Proof/Machine/Platform.lean ====
section
/-!
DEFINITION. Machine/Platform.lean: a platform of ENGINES engine instances, each with its own BASE and its own copy of every
piece of state (60_exceptions.md rule R156; 20_memory.md rule R55; 00_scope.md rule R9). Which instance moves is the caller's
choice: accesses to different instances are unordered (R55).
-/
namespace Sys2Proof.Machine

/-- The engine instances of a platform. ENGINES is the length (R9). -/
structure Platform where
  engines : List State
  deriving DecidableEq, Repr

/-- At least one instance, each with legal parameters and a BASE of its own (R9, R156). -/
def platformWf (P : Platform) : Bool :=
  P.engines != [] && P.engines.all (fun s => s.params.wf) &&
    decide (P.engines.Pairwise fun s t => s.params.base ≠ t.params.base)

/-- Every instance starts at reset (R156), its free bits those of the stream of its own BASE (`Config.freeBit`, log entry 3). -/
def platformReset (ps : List Params) : Platform := { engines := ps.map State.resetWith }

/-- The instance whose window holds an address: an instance is identified only by its BASE (R156). -/
def engineAt (P : Platform) (addr : Nat) : Option Nat := P.engines.findIdx? fun s => inWindow s.params addr

/-- The host issues an access: it joins the queue of the instance it addresses, behind the earlier accesses to that instance
(R52, R55). An address of no instance is no access to an engine. -/
def platformIssue (P : Platform) (a : Access) : Platform :=
  match engineAt P a.addr with
  | none => P
  | some k => { engines := P.engines.modify k fun s => loadProgram s [.access a] }

/-- Instance `k` makes one step; no other instance changes (R55, R156). -/
def platformStep (P : Platform) (k : Nat) : Host.Outcome Platform Fault Refusal :=
  match P.engines[k]? with
  | none => .next P
  | some s =>
    match step s with
    | .next t => .next { engines := P.engines.set k t }
    | .fault f => .fault f
    | .refused r => .refused r

end Sys2Proof.Machine
end

