-- ==== Sys2Proof/Safety.lean ====
section
/-!
DEFINITION. Safety.lean: the invariant of the machine, reachability, and what a finished and a clean run are
(10_state.md rule R25; 60_exceptions.md rules R142, R149; 45_control.md rule R139; 70_reset_and_hazards.md rule R163).
-/
namespace Sys2Proof.Machine

/-- No 1 bit in VIEWBUF where nothing was written: the canonical form of `ViewBuf`. -/
def ViewBuf.wf (vb : ViewBuf) : Bool := vb.bits &&& ~~~vb.written == 0#1600

/-- What every reachable state satisfies. -/
structure State.Inv (s : State) : Prop where
  /-- The parameters keep the constraints of R9. -/
  params : s.params.wf = true
  /-- `L ≤ 6` and `1 ≤ RATE < 25·2^L` (R25, R149). -/
  config : s.actcfg.legal = true
  /-- `STORE[b..1600)` is zero (R18). -/
  storeHigh : s.store &&& ~~~(lowMask s.actcfg.b) = 0#1600
  /-- STATUS.ERR is never FORMAT (R142). -/
  notFormat : s.status.err ≠ .format
  /-- SKIP is set only by a command that completed without error (R133, R146). -/
  skipNoError : s.status.skip = true → s.status.err = .none
  /-- VIEWBUF is in canonical form (R39). -/
  viewbuf : s.viewbuf.wf = true
  /-- MSGBUF is in canonical form and lies in its MSG_BYTES bytes (R34). -/
  msgbuf : s.msgbuf.wf = true
  msgbufBelow : s.msgbuf.below s.params.msgBytes = true
  /-- OUTBUF is in canonical form and lies in its OUT_BYTES bytes (R33). -/
  outbuf : s.outbuf.wf = true
  outbufBelow : s.outbuf.below s.params.outBytes = true
  /-- OUTBUF is wholly unwritten or wholly written (R165). -/
  outbufWhole : s.outbuf = Memory.empty ∨ ∀ i < 8 * s.params.outBytes, s.outbuf.isWritten i = true

/-- The states a run of `step` from `s` can reach. -/
inductive Reaches : State → State → Prop where
  | refl (s : State) : Reaches s s
  | tail {s t u : State} : Reaches s t → step t = .next u → Reaches s u

/-- The end of a run: the host has made its last access and STATUS.BUSY = 0 (R139), whatever turns the schedule still lists. -/
def finished (s : State) : Bool := s.host == [] && !s.status.busy

/-- No host write was lost since OVR was last cleared (R163): the premise of any claim about a program's results. -/
def noOverrun (s : State) : Bool := !s.status.ovr

/-- The observation of a run (R139): the registers as a host reads them, the state, and the buffers. ID and CMD read constants.
PEND is no part of it, being seen only as BUSY (R37); nor is anything that is the model's own. -/
structure Observation where
  status : Word
  cfg : Word
  actcfg : Word
  suffix : Word
  msglen : Word
  outlen : Word
  vlen : Word
  din : Word
  /-- The STATE window: the state's `b` bits and zeros above (R31). -/
  state : Store
  /-- The buffers: which bits are written, and the values of those (R32 to R34). An unwritten bit has no value (R39). -/
  viewbuf : ViewBuf
  msgbuf : Memory
  outbuf : Memory
  deriving DecidableEq, Repr

/-- What is observed of a state (R139). -/
def observation (s : State) : Observation :=
  { status := s.status.word
    cfg := s.cfg.word
    actcfg := s.actcfg.word
    suffix := s.suffix.word
    msglen := s.msglen
    outlen := s.outlen
    vlen := s.vlen.setWidth 32
    din := s.din
    state := stateImage s
    viewbuf := s.viewbuf
    msgbuf := s.msgbuf
    outbuf := s.outbuf }

/-! ## Words claims are stated in -/

/-- STATUS after a command that completes without error and without a skip (R133). -/
def okStatus (s : State) : Status := s.status.completed .none false

/-- The state after a command that raised `e`: only STATUS differs (R148). -/
def failed (e : ErrCode) (s : State) : State :=
  { s with status := { busy := false, skip := false, errSeen := true, ovr := s.status.ovr, err := e } }

/-- The state after a silent no-op: only STATUS differs (R146). -/
def skipped (s : State) : State :=
  { s with
    status := { busy := false, skip := true, errSeen := s.status.errSeen, ovr := s.status.ovr, err := .none } }

/-- A command that completes without error and writes the state cube and nothing else: the `b` bits of the state may change,
STORE above them, every register, every buffer and the rest do not. -/
def WritesOnlyCube (s t : State) : Prop :=
  t = { s with store := t.store, status := okStatus s } ∧
    ∀ i, s.actcfg.b ≤ i → t.store.getLsbD i = s.store.getLsbD i

/-- Commands run one after the other, stopping at the first fault or refusal. -/
def execAll : List Instr → State → Host.Outcome State Fault Refusal
  | [], s => .next s
  | i :: rest, s =>
    match exec i s with
    | .next t => execAll rest t
    | .fault f => .fault f
    | .refused r => .refused r

/-- A reserved encoding, read off the word without the opcode table (R65 (1) and (2)): an opcode of 0x13 or more, or a 1 in a
must-be-zero bit of the opcode's format. -/
def reservedWord (c : Word) : Bool :=
  let op := c.toNat % 256
  if 0x13 ≤ op then true
  else if op = 0x07 ∨ op = 0x08 ∨ op = 0x0D ∨ op = 0x0E ∨ op = 0x0F then c.toNat / 2 ^ 16 != 0
  else if op = 0x10 ∨ op = 0x11 ∨ op = 0x12 then
    c.getLsbD 31 || c.getLsbD 30 || c.getLsbD 23 || c.getLsbD 19 || c.getLsbD 15 || c.getLsbD 14 || c.getLsbD 13
      || c.getLsbD 12
  else c.toNat / 2 ^ 8 != 0

/-- A word that raises IllegalCommand (R145): a reserved encoding, a view command with KIND 6 or 7, or a HASH_UPDATE of 0 or
more than 4 bytes. -/
def illegalWord (c : Word) : Bool :=
  let op := c.toNat % 256
  let a := c.toNat / 256 % 256
  reservedWord c || ((op == 0x10 || op == 0x11 || op == 0x12) && decide (6 ≤ a % 8)) ||
    (op == 0x0F && (a == 0 || decide (4 < a)))

/-- A coordinate the KIND uses is out of range: LANE uses x, y; PLANE y; SHEET x; ROW y, z; COLUMN x, z; SLICE z (R62, R89). -/
def coordOutOfRange (w : Nat) (sel : ViewSel) : Bool :=
  let k := sel.kind.toNat
  ((k == 0 || k == 2 || k == 4) && decide (5 ≤ sel.x.toNat)) ||
    ((k == 0 || k == 1 || k == 3) && decide (5 ≤ sel.y.toNat)) ||
    ((k == 3 || k == 4 || k == 5) && decide (w ≤ sel.z.toNat))

/-- A view operand that passes every check of R89. -/
def viewValid (w : Nat) (sel : ViewSel) : Bool :=
  decide (sel.kind.toNat ≤ 5) && (sel.all || !coordOutOfRange w sel)

/-- The length of a view by KIND and ALL (R86, R87). -/
def viewLength (w : Nat) (sel : ViewSel) : Nat :=
  if sel.all then 25 * w else [w, 5 * w, 5 * w, 5, 5, 25].getD sel.kind.toNat 0

/-- The error of a view operand: ILLEGAL for a reserved KIND, then INDEX, then none (R89, R147). -/
def viewError (w : Nat) (sel : ViewSel) : ErrCode :=
  if 6 ≤ sel.kind.toNat then .illegal else if viewValid w sel then .none else .index

/-- The one code a command reports (R141 to R145, in the order of R147). It reads no field of STATUS. -/
def resultCode (i : Instr) (s : State) : ErrCode :=
  match i with
  | .configure =>
    if s.cfg.l.toNat = 7 ∨ s.cfg.rate.toNat < 1 ∨ 25 * 2 ^ s.cfg.l.toNat ≤ s.cfg.rate.toNat then .config else .none
  | .selectVariant v | .hashInit v => if 8 ≤ v.toNat then .config else .none
  | .hashUpdate n =>
    if n.toNat < 1 ∨ 4 < n.toNat then .illegal
    else if 8 * s.params.msgBytes < s.msglen.toNat + 8 * n.toNat then .length
    else .none
  | .viewGet sel | .viewXor sel => viewError s.actcfg.w sel
  | .viewSet sel =>
    if viewError s.actcfg.w sel ≠ .none then viewError s.actcfg.w sel
    else if s.vlen.toNat ≠ viewLength s.actcfg.w sel then .length
    else .none
  | .process =>
    if 8 < s.suffix.len.toNat then .config
    else if 8 * s.params.msgBytes < s.msglen.toNat ∨ s.params.outBytes < (s.outlen.toNat + 7) / 8 then .length
    else .none
  | .nop | .clear | .theta | .rho | .pi | .khi | .iota _ | .round _ | .permute | .absorbBlock | .extractBlock => .none

/-- Whether a command is the silent no-op (R146). It reads no field of STATUS. -/
def resultSkip (i : Instr) (s : State) : Bool :=
  match i with
  | .viewXor sel => viewValid s.actcfg.w sel && decide (s.vlen.toNat ≠ viewLength s.actcfg.w sel)
  | .absorbBlock => decide (s.vlen ≠ s.actcfg.rate)
  | .nop | .configure | .clear | .theta | .rho | .pi | .khi | .iota _ | .round _ | .permute | .extractBlock | .process
  | .selectVariant _ | .hashInit _ | .hashUpdate _ | .viewGet _ | .viewSet _ => false

/-- The code of an ENGINE step: the decoded command's, or ILLEGAL when PEND spells no command (R132, R145). -/
def engineCode (s : State) : ErrCode :=
  match decode s.pend with
  | .ok i => resultCode i s
  | .error _ => .illegal

/-- Whether an ENGINE step is a silent no-op (R146). -/
def engineSkip (s : State) : Bool :=
  match decode s.pend with
  | .ok i => resultSkip i s
  | .error _ => false

/-- STATUS once a command that reports `code` and `skip` has completed (R133). -/
def statusAfterCommand (code : ErrCode) (skip : Bool) (old : Status) : Status :=
  { busy := false, skip := skip, errSeen := old.errSeen || decide (code ≠ .none), ovr := old.ovr, err := code }

/-- The coordinates `(x, y, z)` of bit `k` of a view: the tables of R86 and R87 with every index written as coordinates. -/
def viewCoord (w : Nat) (sel : ViewSel) (k : Nat) : Nat × Nat × Nat :=
  match sel.all, sel.kind.toNat with
  | false, 0 => (sel.x.toNat, sel.y.toNat, k)
  | false, 1 => (k / w, sel.y.toNat, k % w)
  | false, 2 => (sel.x.toNat, k / w, k % w)
  | false, 3 => (k, sel.y.toNat, sel.z.toNat)
  | false, 4 => (sel.x.toNat, k, sel.z.toNat)
  | false, _ => (k % 5, k / 5, sel.z.toNat)
  | true, 0 => (k / w % 5, k / (5 * w), k % w)
  | true, 1 => (k / w % 5, k / (5 * w), k % w)
  | true, 2 => (k / (5 * w), k / w % 5, k % w)
  | true, 3 => (k % 5, k / (5 * w), k / 5 % w)
  | true, 4 => (k / (5 * w), k % 5, k / 5 % w)
  | true, _ => (k % 5, k / 5 % 5, k / 25)

/-- The flat index of bit `k` of a view. -/
def viewPos (w : Nat) (sel : ViewSel) (k : Nat) : Nat :=
  flatIdx w (viewCoord w sel k).1 (viewCoord w sel k).2.1 (viewCoord w sel k).2.2

/-- `A[x,y,z]` at bit `k` of a view. -/
def viewBit (w : Nat) (sel : ViewSel) (S : Store) (k : Nat) : Bool :=
  cubeBit w S (viewCoord w sel k).1 (viewCoord w sel k).2.1 (viewCoord w sel k).2.2

/-- The parity of column `(x, z)`: `C[x,z]` (R96). -/
def parity (w : Nat) (S : Store) (x z : Nat) : Bool :=
  cubeBit w S x 0 z ^^ cubeBit w S x 1 z ^^ cubeBit w S x 2 z ^^ cubeBit w S x 3 z ^^ cubeBit w S x 4 z

/-- `rc(t)` as R101 computes it. -/
def lfsrBit (t : Nat) : Bool := (lfsr (t % 255)).getLsbD 0

/-- `RC[z]` as R103 builds it, for round index `ir`. -/
def roundConstantBit (l ir z : Nat) : Bool :=
  (List.range (l + 1)).any fun j => z == 2 ^ j - 1 && lfsrBit (j + 7 * ir)

/-- RCTAB as R102 prints it: groups of ten bits, the first bit of a group leftmost; the last group has five. -/
def rcListing : List Nat :=
  [0b1000000010, 0b1100011110, 0b1000011111, 0b1110010000, 0b1010011111,
   0b0101010111, 0b0000011000, 0b1010110011, 0b0010111111, 0b0111100110,
   0b1110111001, 0b0101001010, 0b0010010110, 0b1000110011, 0b1001111000] ++
  [0b1101100001, 0b0001011101, 0b0111101101, 0b1111000011, 0b0100110101,
   0b1011010100, 0b0001001110, 0b1100100100, 0b1100000011, 0b1010010001,
   0b1100000000]

/-- Bit `t` of the listing of R102. -/
def rcListed (t : Nat) : Bool := (rcListing.getD (t / 10) 0).testBit (9 - t % 10)

/-! ## The host-driven sponge (R119) -/

/-- For each block: VIEWBUF and VLEN = r are written, then ABSORB_BLOCK is issued (R119 (2)). A block is given as the whole
contents of VIEWBUF once the host has written it. -/
def hostAbsorb : List ViewBuf → State → Host.Outcome State Fault Refusal
  | [], s => .next s
  | vb :: rest, s =>
    match exec .absorbBlock { s with viewbuf := vb, vlen := s.actcfg.rate } with
    | .next t => hostAbsorb rest t
    | .fault f => .fault f
    | .refused r => .refused r

/-- VIEWBUF holds block `k` of the `r`-bit blocks of `M`: its first `r` bits are written and are `M`'s (R119 (2)). -/
def holdsBlock (r : Nat) (M : Bits) (k : Nat) (vb : ViewBuf) : Prop :=
  ∀ i < r, vb.written.getLsbD i = true ∧ vb.bits.getLsbD i = M.getD (k * r + i) false

/-- EXTRACT_BLOCK and read VIEWBUF; while fewer than `d` bits have been read, PERMUTE and again (R119 (3)). The first argument
bounds the number of repetitions. -/
def hostSqueeze (d : Nat) : Nat → Bits → State → Option (Bits × State)
  | n, Z, s =>
    match exec .extractBlock s with
    | .next t =>
      let Z' := Z ++ bitsOf t.viewbuf.bits.getLsbD s.actcfg.rate.toNat
      if d ≤ Z'.length then some (Z', t)
      else
        match n, exec .permute t with
        | k + 1, .next u => hostSqueeze d k Z' u
        | _, _ => none
    | _ => none

end Sys2Proof.Machine
end

