-- ==== Sys2Proof/Certificates/Slice0/Obligations.lean ====
section
/-!
DEFINITION. Certificates/Slice0/Obligations.lean: the statements for the provers. Each docstring names the rule of spec/ its
statement formalises, or the sections it rests on.
-/

open Sys2Proof Sys2Proof.Machine

/-! ## Encoding (30_encoding.md) -/

/-- Words the spec writes out decode to the commands it writes beside them, and two reserved words are refused by name
(R60, R63, R65; 95_test_vectors.md). -/
def Obligations.SampleWordsDecode : Prop :=
  decode 0x00000009#32 = .ok .permute ∧ decode 0x0000000C#32 = .ok .process ∧
    decode 0x00000107#32 = .ok (.iota 1#8) ∧ decode 0x0000040D#32 = .ok (.selectVariant 4#8) ∧
    decode 0x0000030F#32 = .ok (.hashUpdate 3#8) ∧
    decode 0x00210010#32 = .ok (.viewGet ⟨0#3, false, 1#3, 2#3, 0#6⟩) ∧
    decode 0x00000811#32 = .ok (.viewSet ⟨0#3, true, 0#3, 0#3, 0#6⟩) ∧
    decode 0x07000512#32 = .ok (.viewXor ⟨5#3, false, 0#3, 0#3, 7#6⟩) ∧
    decode 0x00000013#32 = .error (.reservedOpcode 0x13#8) ∧ decode 0x00000109#32 = .error (.mustBeZeroBit 0x09#8)

/-- Decode and encode agree for every command, at every value of every operand (R60, R63, R64). -/
def Obligations.DecodeOfEncode : Prop := ∀ i : Instr, decode (encode i) = .ok i

/-- Each command has one word: the masks include every must-be-zero bit (R64). -/
def Obligations.EncodeOfDecode : Prop := ∀ (c : Word) (i : Instr), decode c = .ok i → encode i = c

/-- The decoder refuses exactly the reserved opcodes and the words with a must-be-zero bit set (R64, R65 (1) and (2)). -/
def Obligations.DecoderRefusesExactlyReserved : Prop :=
  ∀ c : Word, (∃ e, decode c = .error e) ↔ reservedWord c = true

/-- R145: an illegal word is accepted like any other, and the ENGINE step raises IllegalCommand for it and for no other word. -/
def Obligations.IllegalCommandExactly : Prop :=
  (∀ (s : State) (c : Word), s.status.busy = false →
      writeReg .cmd c s = { s with pend := c, status := { s.status with busy := true } }) ∧
    (∀ s s' : State, nextMove s = .engine s' → illegalWord s'.pend = true → step s = .next (failed .illegal s')) ∧
    ∀ s s' t : State, nextMove s = .engine s' → step s = .next t → t.status.err = .illegal →
      illegalWord s'.pend = true

/-! ## The life cycle of a command (45_control.md) -/

/-- A step in which the ENGINE moves runs the decoded command, and only the schedule is touched before it (R132; the schedule
is the model's own, log entry 6). -/
def Obligations.StepRunsDecodedCommand : Prop :=
  ∀ (s s' : State) (i : Instr), nextMove s = .engine s' → decode s.pend = .ok i →
    step s = exec i s' ∧ s' = { s with sched := s.sched.tail } ∧ s.status.busy = true

/-- The ENGINE step is enabled exactly when BUSY = 1 (R132): with the schedule naming it, or used up (log entry 6). -/
def Obligations.EngineEnabledExactlyWhenBusy : Prop :=
  ∀ s : State, (∃ s', nextMove s = .engine s') ↔
    s.status.busy = true ∧ (s.sched = [] ∨ ∃ rest, s.sched = .engine :: rest)

/-- R133: what completion writes to STATUS, for every command and at every ENGINE step. BUSY falls, OVR stays, ERR and SKIP are
those of the command that has just run (`resultCode`, `resultSkip`: R141 to R147, read off the command and its operands), and
ERRSEEN rises with an error. ERR and SKIP do not depend on the STATUS before. -/
def Obligations.CompletionWritesStatus : Prop :=
  (∀ (i : Instr) (s t : State), exec i s = .next t →
      t.status = statusAfterCommand (resultCode i s) (resultSkip i s) s.status) ∧
    (∀ s s' t : State, nextMove s = .engine s' → step s = .next t →
      t.status = statusAfterCommand (engineCode s') (engineSkip s') s.status) ∧
    ∀ (i : Instr) (s t u : State) (old : Status), exec i s = .next t → exec i { s with status := old } = .next u →
      u.status.err = t.status.err ∧ u.status.skip = t.status.skip

/-- R148: a command that raises an error changes STATUS and nothing else, whether its word decodes or not. -/
def Obligations.FailedCommandChangesOnlyStatus : Prop :=
  (∀ (i : Instr) (s t : State), exec i s = .next t → t.status.err ≠ .none → t = failed t.status.err s) ∧
    ∀ s s' t : State, nextMove s = .engine s' → step s = .next t → t.status.err ≠ .none → t = failed t.status.err s'

/-- R141: exactly when ConfigurationError is raised. -/
def Obligations.ConfigErrorExactly : Prop :=
  ∀ (i : Instr) (s t : State), exec i s = .next t →
    (t.status.err = .config ↔
      (i = .configure ∧
          (s.cfg.l.toNat = 7 ∨ s.cfg.rate.toNat < 1 ∨ 25 * 2 ^ s.cfg.l.toNat ≤ s.cfg.rate.toNat)) ∨
        (∃ v : BitVec 8, (i = .selectVariant v ∨ i = .hashInit v) ∧ 8 ≤ v.toNat) ∨
        (i = .process ∧ 8 < s.suffix.len.toNat))

/-- R143, with the priorities of R147: exactly when LengthMismatch is raised. -/
def Obligations.LengthErrorExactly : Prop :=
  ∀ (i : Instr) (s t : State), exec i s = .next t →
    (t.status.err = .length ↔
      (∃ sel, i = .viewSet sel ∧ viewValid s.actcfg.w sel = true ∧ s.vlen.toNat ≠ viewLength s.actcfg.w sel) ∨
        (i = .process ∧ s.suffix.len.toNat ≤ 8 ∧
          (8 * s.params.msgBytes < s.msglen.toNat ∨ s.params.outBytes < (s.outlen.toNat + 7) / 8)) ∨
        (∃ n : BitVec 8, i = .hashUpdate n ∧ 1 ≤ n.toNat ∧ n.toNat ≤ 4 ∧
          8 * s.params.msgBytes < s.msglen.toNat + 8 * n.toNat))

/-- R144: exactly when IndexOutOfRange is raised. -/
def Obligations.IndexErrorExactly : Prop :=
  ∀ (i : Instr) (s t : State), exec i s = .next t →
    (t.status.err = .index ↔
      ∃ sel, (i = .viewGet sel ∨ i = .viewSet sel ∨ i = .viewXor sel) ∧ sel.kind.toNat ≤ 5 ∧ sel.all = false ∧
        coordOutOfRange s.actcfg.w sel = true)

/-- R146: exactly which commands are the silent no-op, and that it changes STATUS alone. -/
def Obligations.SilentSkipExactly : Prop :=
  ∀ (i : Instr) (s t : State), exec i s = .next t →
    (t.status.skip = true ↔
      (∃ sel, i = .viewXor sel ∧ viewValid s.actcfg.w sel = true ∧ s.vlen.toNat ≠ viewLength s.actcfg.w sel) ∨
        (i = .absorbBlock ∧ s.vlen ≠ s.actcfg.rate)) ∧
    (t.status.skip = true → t = skipped s)

/-- R142: no command raises FormatError, and STATUS.ERR is not FORMAT in any state a host program and a schedule reach from
reset. -/
def Obligations.FormatErrorNeverRaised : Prop :=
  (∀ (i : Instr) (s t : State), exec i s = .next t → t.status.err ≠ .format) ∧
    ∀ (p : Params) (ops : List HostOp) (turns : List Turn) (t : State),
      Reaches { State.resetWith p with host := ops, sched := turns } t → t.status.err ≠ .format

/-- Every ENGINE step in a state that meets the invariant completes and clears BUSY: every command terminates (R136), and the
assertion case of R149 cannot occur. -/
def Obligations.EngineStepAlwaysCompletes : Prop :=
  ∀ s s' : State, s.Inv → nextMove s = .engine s' → ∃ t, step s = .next t ∧ t.status.busy = false

/-- The round-function commands are stuck in a state whose ACTCFG breaks the invariant (R149); PROCESS after its own checks (log
entry 11). -/
def Obligations.RoundCommandsStuckOnIllegalConfig : Prop :=
  ∀ (s : State) (i : Instr), s.actcfg.legal = false →
    (i ∈ [Instr.theta, .rho, .pi, .khi, .permute, .absorbBlock] ∨ (∃ ir, i = .iota ir ∨ i = .round ir) ∨
      (i = .process ∧ s.suffix.len.toNat ≤ 8 ∧ s.msglen.toNat ≤ 8 * s.params.msgBytes ∧
        (s.outlen.toNat + 7) / 8 ≤ s.params.outBytes)) →
    exec i s = .fault .inconsistentStateSize

/-- What each command may write: a field not named for a command is unchanged by it (R24, R25, R26 to R30, R33, R90 to R94,
R106 to R112, R117, R118, R120, R126, R128, R129, R135). Four clauses are about the model's own choices: the draw counter (log
entry 3), PEND kept after completion (45_control.md section 1 says only that it then holds no command; log entry 5), the
schedule (log entry 6), and the host's list and what it has read (log entry 7). NOP is 45_control.md section 2. -/
def Obligations.CommandFrame : Prop :=
  ∀ (i : Instr) (s t : State), exec i s = .next t →
    t.params = s.params ∧ t.cfg = s.cfg ∧ t.din = s.din ∧ t.pend = s.pend ∧ t.host = s.host ∧ t.sched = s.sched ∧
      t.responses = s.responses ∧
      (t.actcfg = s.actcfg ∨ i = .configure ∨ ∃ v, i = .selectVariant v ∨ i = .hashInit v) ∧
      (t.suffix = s.suffix ∨ ∃ v, i = .selectVariant v ∨ i = .hashInit v) ∧
      (t.outlen = s.outlen ∨ ∃ v, i = .selectVariant v ∨ i = .hashInit v) ∧
      (t.msglen = s.msglen ∨ ∃ v, i = .hashInit v ∨ i = .hashUpdate v) ∧
      (t.vlen = s.vlen ∨ i = .extractBlock ∨ ∃ sel, i = .viewGet sel) ∧
      (t.viewbuf = s.viewbuf ∨ i = .extractBlock ∨ ∃ sel, i = .viewGet sel) ∧
      (t.msgbuf = s.msgbuf ∨ ∃ n, i = .hashUpdate n) ∧ (t.outbuf = s.outbuf ∨ i = .process) ∧
      (t.draws = s.draws ∨ i = .absorbBlock ∨ i = .process ∨ ∃ sel, i = .viewSet sel ∨ i = .viewXor sel) ∧
      ((i = .nop ∨ i = .extractBlock ∨ ∃ n sel, i = .hashUpdate n ∨ i = .viewGet sel) → t.store = s.store)

/-! ## Reset and the invariant (70_reset_and_hazards.md) -/

/-- Every step keeps the invariant of `State.Inv`: the configuration is legal (R25, R149), STORE above `b` is zero (R18), ERR is
never FORMAT (R142), SKIP goes with ERR = 0 (R133), the buffers are canonical and inside their sizes (R33, R34, R39), and OUTBUF
is wholly unwritten or wholly written (R165). -/
def Obligations.StepKeepsInvariant : Prop := ∀ s t : State, s.Inv → step s = .next t → t.Inv

/-- The invariant holds right after reset, for any legal parameters (R160). -/
def Obligations.ResetMeetsInvariant : Prop := ∀ p : Params, p.wf = true → (State.resetWith p).Inv

/-- The values the reset table gives, read where the register map puts them, and the buffers of which nothing is written
(R20, R160). -/
def Obligations.ResetLeavesSpecValues : Prop :=
  ∀ p : Params,
    let s := State.resetWith p
    let read := fun off => (readReg (regAt p off) s).1
    read 0x000 = 0x4B454343#32 ∧ read 0x004 = 0#32 ∧ read 0x008 = 0#32 ∧ read 0x00C = 0x04400006#32 ∧
      read 0x010 = 0x04400006#32 ∧ read 0x014 = 0x00000202#32 ∧ read 0x018 = 0#32 ∧ read 0x01C = 256#32 ∧
      read 0x020 = 0#32 ∧ read 0x024 = 0#32 ∧ s.store = 0#1600 ∧
      s.viewbuf.written = 0#1600 ∧ ∀ i, s.msgbuf.isWritten i = false ∧ s.outbuf.isWritten i = false

/-- When the reset input is asserted every piece of the block's state takes its reset value in one step, a pending command
included; the host and the schedule are outside the block (R159; log entry 13). -/
def Obligations.ResetInputTakesEffect : Prop :=
  ∀ (s : State) (rest : List Turn), s.sched = .reset :: rest →
    step s =
      .next { State.resetWith s.params with
        draws := s.draws, host := s.host, sched := rest, responses := s.responses }

/-! ## Configuration and state commands (41_cube_views.md, 45_control.md) -/

/-- R135: the word 0 is NOP's only encoding, and NOP changes nothing but STATUS. -/
def Obligations.NopOnlyCompletes : Prop :=
  (∀ c : Word, decode c = .ok .nop ↔ c = 0#32) ∧ ∀ s : State, exec .nop s = .next { s with status := okStatus s }

/-- R90: CONFIGURE applies a legal CFG and zeroes the storage, and raises CONFIG for any other. -/
def Obligations.ConfigureApplies : Prop :=
  decode 0x00000001#32 = .ok .configure ∧ ∀ s : State,
    ((s.cfg.l.toNat ≤ 6 ∧ 1 ≤ s.cfg.rate.toNat ∧ s.cfg.rate.toNat < 25 * 2 ^ s.cfg.l.toNat) →
      exec .configure s = .next { s with actcfg := s.cfg, store := 0#1600, status := okStatus s }) ∧
    (¬(s.cfg.l.toNat ≤ 6 ∧ 1 ≤ s.cfg.rate.toNat ∧ s.cfg.rate.toNat < 25 * 2 ^ s.cfg.l.toNat) →
      exec .configure s = .next (failed .config s))

/-- R91: CLEAR zeroes the `b` bits of the state and changes nothing else. -/
def Obligations.ClearZeroesState : Prop :=
  decode 0x00000002#32 = .ok .clear ∧ ∀ s : State, ∃ t, exec .clear s = .next t ∧
    t = { s with store := t.store, status := okStatus s } ∧
    ∀ i, t.store.getLsbD i = (decide (25 * 2 ^ s.actcfg.l.toNat ≤ i) && s.store.getLsbD i)

/-- R86, R87: the positions of a view lie in the state and are distinct, and a bulk view is a permutation of the state. -/
def Obligations.ViewPositionsDistinct : Prop :=
  ∀ (l : Nat) (sel : ViewSel), l ≤ 6 → viewValid (2 ^ l) sel = true →
    (∀ k < viewLength (2 ^ l) sel, viewPos (2 ^ l) sel k < 25 * 2 ^ l) ∧
    (∀ j < viewLength (2 ^ l) sel, ∀ k < viewLength (2 ^ l) sel, viewPos (2 ^ l) sel j = viewPos (2 ^ l) sel k → j = k) ∧
    (sel.all = true → ∀ i < 25 * 2 ^ l, ∃ k < 25 * 2 ^ l, viewPos (2 ^ l) sel k = i)

/-- R92: VIEW_GET copies the view's bits to VIEWBUF in the order of R86 and R87, zeroes the rest and sets VLEN; a reserved KIND
and a coordinate out of range raise ILLEGAL and INDEX. -/
def Obligations.ViewGetResult : Prop :=
  decode 0x00210010#32 = .ok (.viewGet ⟨0#3, false, 1#3, 2#3, 0#6⟩) ∧ ∀ (s : State) (sel : ViewSel),
    (6 ≤ sel.kind.toNat → exec (.viewGet sel) s = .next (failed .illegal s)) ∧
    (sel.kind.toNat ≤ 5 → sel.all = false → coordOutOfRange s.actcfg.w sel = true →
      exec (.viewGet sel) s = .next (failed .index s)) ∧
    (s.actcfg.legal = true → viewValid s.actcfg.w sel = true →
      ∃ t, exec (.viewGet sel) s = .next t ∧
        t = { s with viewbuf := t.viewbuf, vlen := t.vlen, status := okStatus s } ∧
        t.vlen.toNat = viewLength s.actcfg.w sel ∧
        ∀ k < 1600, t.viewbuf.written.getLsbD k = true ∧
          t.viewbuf.bits.getLsbD k =
            (decide (k < viewLength s.actcfg.w sel) && viewBit s.actcfg.w sel s.store k))

/-- R93: VIEW_SET with the view's length in VLEN writes VIEWBUF to the view's bits and to no other; its errors in their order.
An unwritten VIEWBUF bit is a free value (R39; log entry 3). -/
def Obligations.ViewSetResult : Prop :=
  decode 0x00000811#32 = .ok (.viewSet ⟨0#3, true, 0#3, 0#3, 0#6⟩) ∧ ∀ (s : State) (sel : ViewSel),
    (6 ≤ sel.kind.toNat → exec (.viewSet sel) s = .next (failed .illegal s)) ∧
    (sel.kind.toNat ≤ 5 → sel.all = false → coordOutOfRange s.actcfg.w sel = true →
      exec (.viewSet sel) s = .next (failed .index s)) ∧
    (viewValid s.actcfg.w sel = true → s.vlen.toNat ≠ viewLength s.actcfg.w sel →
      exec (.viewSet sel) s = .next (failed .length s)) ∧
    (s.actcfg.legal = true → viewValid s.actcfg.w sel = true → s.vlen.toNat = viewLength s.actcfg.w sel →
      ∃ t, exec (.viewSet sel) s = .next t ∧
        t = { s with store := t.store, draws := t.draws, status := okStatus s } ∧
        (∀ k < viewLength s.actcfg.w sel, viewBit s.actcfg.w sel t.store k = s.viewbuf.read s.freshBit k) ∧
        ∀ i, (∀ k < viewLength s.actcfg.w sel, viewPos s.actcfg.w sel k ≠ i) → t.store.getLsbD i = s.store.getLsbD i)

/-- R94: VIEW_XOR with the view's length in VLEN XORs VIEWBUF into the view's bits and no other; with any other VLEN it is the
silent no-op; its errors come first. -/
def Obligations.ViewXorResult : Prop :=
  decode 0x00000312#32 = .ok (.viewXor ⟨3#3, false, 0#3, 0#3, 0#6⟩) ∧ ∀ (s : State) (sel : ViewSel),
    (6 ≤ sel.kind.toNat → exec (.viewXor sel) s = .next (failed .illegal s)) ∧
    (sel.kind.toNat ≤ 5 → sel.all = false → coordOutOfRange s.actcfg.w sel = true →
      exec (.viewXor sel) s = .next (failed .index s)) ∧
    (viewValid s.actcfg.w sel = true → s.vlen.toNat ≠ viewLength s.actcfg.w sel →
      exec (.viewXor sel) s = .next (skipped s)) ∧
    (s.actcfg.legal = true → viewValid s.actcfg.w sel = true → s.vlen.toNat = viewLength s.actcfg.w sel →
      ∃ t, exec (.viewXor sel) s = .next t ∧
        t = { s with store := t.store, draws := t.draws, status := okStatus s } ∧
        (∀ k < viewLength s.actcfg.w sel,
          viewBit s.actcfg.w sel t.store k = (viewBit s.actcfg.w sel s.store k ^^ s.viewbuf.read s.freshBit k)) ∧
        ∀ i, (∀ k < viewLength s.actcfg.w sel, viewPos s.actcfg.w sel k ≠ i) → t.store.getLsbD i = s.store.getLsbD i)

/-- A state in which bit `i` is 1 iff `i` is even reads, through every single view, 1 at even `z` and 0 at odd `z`, when `w` is
even (R95). -/
def Obligations.AlternatingPatternReads : Prop :=
  ∀ (s : State) (sel : ViewSel), s.actcfg.legal = true → 1 ≤ s.actcfg.l.toNat → viewValid s.actcfg.w sel = true →
    sel.all = false → (∀ i < s.actcfg.b, s.store.getLsbD i = decide (i % 2 = 0)) →
    ∃ t, exec (.viewGet sel) s = .next t ∧
      ∀ k < viewLength s.actcfg.w sel,
        t.viewbuf.bits.getLsbD k = decide ((viewCoord s.actcfg.w sel k).2.2 % 2 = 0)

/-! ## The round function (42_round_function.md) -/

/-- R96, R106: THETA, bit by bit. -/
def Obligations.ThetaBits : Prop :=
  ∀ s : State, s.actcfg.legal = true → ∃ t, exec .theta s = .next t ∧ WritesOnlyCube s t ∧
    ∀ x < 5, ∀ y < 5, ∀ z < s.actcfg.w,
      cubeBit s.actcfg.w t.store x y z =
        (cubeBit s.actcfg.w s.store x y z ^^
          (parity s.actcfg.w s.store ((x + 4) % 5) z ^^
            parity s.actcfg.w s.store ((x + 1) % 5) ((z + s.actcfg.w - 1) % s.actcfg.w)))

/-- R97, R107: RHO, lane by lane along the walk, and the walk visits every lane but `(0,0)`. -/
def Obligations.RhoBits : Prop :=
  (∀ s : State, s.actcfg.legal = true → ∃ t, exec .rho s = .next t ∧ WritesOnlyCube s t ∧
    (∀ z < s.actcfg.w, cubeBit s.actcfg.w t.store 0 0 z = cubeBit s.actcfg.w s.store 0 0 z) ∧
    ∀ k < 24, ∀ z < s.actcfg.w,
      cubeBit s.actcfg.w t.store (rhoWalk k).1 (rhoWalk k).2 z =
        cubeBit s.actcfg.w s.store (rhoWalk k).1 (rhoWalk k).2
          ((z + (s.actcfg.w - (k + 1) * (k + 2) / 2 % s.actcfg.w)) % s.actcfg.w)) ∧
    ∀ x < 5, ∀ y < 5, (x, y) ≠ (0, 0) → ∃ k < 24, rhoWalk k = (x, y)

/-- R99, R108: PI, bit by bit. -/
def Obligations.PiBits : Prop :=
  ∀ s : State, s.actcfg.legal = true → ∃ t, exec .pi s = .next t ∧ WritesOnlyCube s t ∧
    ∀ x < 5, ∀ y < 5, ∀ z < s.actcfg.w,
      cubeBit s.actcfg.w t.store x y z = cubeBit s.actcfg.w s.store ((x + 3 * y) % 5) x z

/-- R100, R109: KHI, bit by bit. -/
def Obligations.KhiBits : Prop :=
  ∀ s : State, s.actcfg.legal = true → ∃ t, exec .khi s = .next t ∧ WritesOnlyCube s t ∧
    ∀ x < 5, ∀ y < 5, ∀ z < s.actcfg.w,
      cubeBit s.actcfg.w t.store x y z =
        (cubeBit s.actcfg.w s.store x y z ^^
          (!cubeBit s.actcfg.w s.store ((x + 1) % 5) y z && cubeBit s.actcfg.w s.store ((x + 2) % 5) y z))

/-- R103, R110: IOTA, bit by bit, with the round-constant bits computed by the LFSR of R101. -/
def Obligations.IotaBits : Prop :=
  ∀ (s : State) (ir : BitVec 8), s.actcfg.legal = true → ∃ t, exec (.iota ir) s = .next t ∧ WritesOnlyCube s t ∧
    ∀ x < 5, ∀ y < 5, ∀ z < s.actcfg.w,
      cubeBit s.actcfg.w t.store x y z =
        (cubeBit s.actcfg.w s.store x y z ^^
          (decide (x = 0 ∧ y = 0) && roundConstantBit s.actcfg.l.toNat ir.toNat z))

/-- R101, R102: the ROM gives, for every `t`, the bit the LFSR gives after `t` steps, reduced mod 255 or not, and its first 255
bits are the printed ones. -/
def Obligations.RoundConstantsAreLfsr : Prop :=
  (∀ t : Nat, rc t = lfsrBit t ∧ rc t = (lfsr t).getLsbD 0 ∧ rc (t + 255) = rc t) ∧ rc 0 = true ∧
    ∀ t < 255, rc t = rcListed t

/-- R111: ROUND ir equals THETA, RHO, PI, KHI, IOTA ir issued in sequence. -/
def Obligations.RoundIsFiveSteps : Prop :=
  ∀ (s : State) (ir : BitVec 8), s.actcfg.legal = true →
    ∃ t, exec (.round ir) s = .next t ∧ execAll [.theta, .rho, .pi, .khi, .iota ir] s = .next t ∧ WritesOnlyCube s t

/-- R112: PERMUTE equals ROUND 0, ..., ROUND 11+2l issued in sequence. -/
def Obligations.PermuteIsRounds : Prop :=
  ∀ s : State, s.actcfg.legal = true →
    ∃ t, exec .permute s = .next t ∧
      execAll ((List.range (12 + 2 * s.actcfg.l.toNat)).map fun k => .round (BitVec.ofNat 8 k)) s = .next t ∧
      WritesOnlyCube s t

/-- ROUND 255 equals ROUND 0, and IOTA 255 equals IOTA 0, in every state (R111). -/
def Obligations.RoundIndexPeriod : Prop :=
  ∀ s : State, exec (.round 255#8) s = exec (.round 0#8) s ∧ exec (.iota 255#8) s = exec (.iota 0#8) s

/-- PI issued 24 times is the identity on the state (R108). -/
def Obligations.PiTwentyFourTimes : Prop :=
  ∀ s : State, s.actcfg.legal = true → execAll (List.replicate 24 .pi) s = .next { s with status := okStatus s }

/-! ## The sponge (43_sponge.md) -/

/-- R113, R114: the shape and the length of pad10*1. -/
def Obligations.PaddingShape : Prop :=
  ∀ r m : Nat, 1 ≤ r →
    (padding r m).length = padZeros r m + 2 ∧ (m + padZeros r m + 2) % r = 0 ∧ padZeros r m < r ∧
      (∀ k < padZeros r m + 2,
        (padding r m).getD k false = (decide (k = 0) || decide (k = padZeros r m + 1))) ∧
      m + padZeros r m + 2 = r * ((m + 2 + (r - 1)) / r) ∧
      (m % r + 2 = r → padZeros r m = 0) ∧ (m % r + 1 = r → padZeros r m = r - 1) ∧ (r = 1 → padZeros r m = 0)

/-- R117: ABSORB_BLOCK with VLEN = RATE is PERMUTE of the state with VIEWBUF[0..r) XORed into its first `r` bits; with any other
VLEN it is the silent no-op. -/
def Obligations.AbsorbBlockResult : Prop :=
  decode 0x0000000A#32 = .ok .absorbBlock ∧ ∀ s : State, s.actcfg.legal = true →
    (s.vlen = s.actcfg.rate →
      ∃ u t, exec .absorbBlock s = .next t ∧ exec .permute u = .next t ∧
        u = { s with store := u.store, draws := u.draws } ∧
        ∀ i, u.store.getLsbD i =
          (s.store.getLsbD i ^^ (decide (i < s.actcfg.rate.toNat) && s.viewbuf.read s.freshBit i))) ∧
    (s.vlen ≠ s.actcfg.rate → exec .absorbBlock s = .next (skipped s))

/-- R118: EXTRACT_BLOCK copies S[0..r) to VIEWBUF, zeroes the rest, sets VLEN to `r`, and does not permute. -/
def Obligations.ExtractBlockResult : Prop :=
  decode 0x0000000B#32 = .ok .extractBlock ∧ ∀ s : State, ∃ t, exec .extractBlock s = .next t ∧
    t = { s with viewbuf := t.viewbuf, vlen := s.actcfg.rate, status := okStatus s } ∧
    ∀ k < 1600, t.viewbuf.written.getLsbD k = true ∧
      t.viewbuf.bits.getLsbD k = (decide (k < s.actcfg.rate.toNat) && s.store.getLsbD k)

/-- PROCESS, its checks passed, writes the sponge's output to OUTBUF with zeros after it, leaves the final state of the sponge,
and changes nothing else (R115, R120). -/
def Obligations.ProcessResult : Prop :=
  ∀ s : State, s.actcfg.legal = true → s.suffix.len.toNat ≤ 8 → s.msglen.toNat ≤ 8 * s.params.msgBytes →
    (s.outlen.toNat + 7) / 8 ≤ s.params.outBytes →
    ∃ t out, exec .process s = .next t ∧
      out = sponge s.actcfg.l.toNat s.actcfg.rate.toNat (messageOperand s) s.suffix.suffix s.outlen.toNat ∧
      t = { s with store := t.store, outbuf := t.outbuf, draws := t.draws, status := okStatus s } ∧
      (∀ i < 8 * s.params.outBytes, t.outbuf.isWritten i = true ∧
        t.outbuf.storedBit i = (decide (i < s.outlen.toNat) && out.1.getD i false)) ∧
      ∀ i, t.store.getLsbD i = if i < s.actcfg.b then out.2.getLsbD i else s.store.getLsbD i

/-- R119: the host that clears the state, absorbs the padded blocks one by one and extracts with PERMUTE between takes reads
the bits PROCESS puts in OUTBUF, and leaves the state PROCESS leaves. -/
def Obligations.HostDrivenSpongeEqualsProcess : Prop :=
  ∀ (s t : State) (vbs : List ViewBuf), s.actcfg.legal = true → exec .process s = .next t → t.status.err = .none →
    let r := s.actcfg.rate.toNat
    let M := padded r (messageOperand s) s.suffix.suffix
    vbs.length = M.length / r →
    (∀ k < M.length / r, holdsBlock r M k (vbs.getD k ViewBuf.empty)) →
    ∃ s0 s1 Z u, exec .clear s = .next s0 ∧ hostAbsorb vbs s0 = .next s1 ∧
      hostSqueeze s.outlen.toNat s.outlen.toNat [] s1 = some (Z, u) ∧
      (∀ i < s.outlen.toNat, t.outbuf.storedBit i = Z.getD i false) ∧
      ∀ i < s.actcfg.b, t.store.getLsbD i = u.store.getLsbD i

/-- R122: two PROCESS commands that complete without error on the same written message bits, MSGLEN, SUFFIX, OUTLEN and ACTCFG
write the same OUTBUF and leave the same state, whatever else differs. -/
def Obligations.ProcessDeterministic : Prop :=
  ∀ s1 s2 t1 t2 : State, exec .process s1 = .next t1 → exec .process s2 = .next t2 →
    t1.status.err = .none → t2.status.err = .none → s1.params = s2.params → s1.actcfg = s2.actcfg →
    s1.suffix = s2.suffix → s1.msglen = s2.msglen → s1.outlen = s2.outlen →
    (∀ i < s1.msglen.toNat, s1.msgbuf.isWritten i = true ∧ s2.msgbuf.isWritten i = true ∧
      s1.msgbuf.storedBit i = s2.msgbuf.storedBit i) →
    t1.outbuf = t2.outbuf ∧ ∀ i < s1.actcfg.b, t1.store.getLsbD i = t2.store.getLsbD i

/-- R123: the output for a length is a prefix of the output for any larger one, with zeros after it. Both commands run from the
same state, so they read the same message: a message bit that nothing has written is the same free value in both (log
entry 3). -/
def Obligations.ProcessOutputPrefix : Prop :=
  ∀ (s t t' : State) (d' : Word), exec .process s = .next t → exec .process { s with outlen := d' } = .next t' →
    t.status.err = .none → t'.status.err = .none → s.outlen.toNat ≤ d'.toNat →
    (∀ i < s.outlen.toNat, t.outbuf.storedBit i = t'.outbuf.storedBit i) ∧
      ∀ i < 8 * s.params.outBytes, s.outlen.toNat ≤ i → t.outbuf.storedBit i = false

/-! ## Variants and the hash adapter (44_variants_adapter.md) -/

/-- R124, R126: SELECT_VARIANT v sets the registers VARTAB gives and zeroes the storage; v ≥ 8 raises CONFIG. The capacities of
RAWSHAKE128 and RAWSHAKE256 are the parameter RAWSHAKE_CAP (log entry 2). -/
def Obligations.SelectVariantResult : Prop :=
  decode 0x0000040D#32 = .ok (.selectVariant 4#8) ∧ ∀ (s : State) (v : BitVec 8), s.params.wf = true →
    (v.toNat < 8 →
      ∃ t, exec (.selectVariant v) s = .next t ∧
        t = { s with
          actcfg := t.actcfg, suffix := t.suffix, outlen := t.outlen, store := 0#1600, status := okStatus s } ∧
        t.actcfg.l = 6#3 ∧
        t.actcfg.rate.toNat =
          1600 - [448, 512, 768, 1024, 256, 512, s.params.rawCap128, s.params.rawCap256].getD v.toNat 0 ∧
        (s.params.rawCap128 = 256 → s.params.rawCap256 = 512 →
          t.actcfg.word =
            [0x04800006#32, 0x04400006#32, 0x03400006#32, 0x02400006#32, 0x05400006#32, 0x04400006#32, 0x05400006#32,
              0x04400006#32].getD v.toNat 0#32) ∧
        t.suffix.word =
          [0x00000202#32, 0x00000202#32, 0x00000202#32, 0x00000202#32, 0x0000040F#32, 0x0000040F#32, 0x00000203#32,
            0x00000203#32].getD v.toNat 0#32 ∧
        t.outlen = [224#32, 256#32, 384#32, 512#32].getD v.toNat s.outlen) ∧
    (8 ≤ v.toNat → exec (.selectVariant v) s = .next (failed .config s))

/-- R128: HASH_INIT v is SELECT_VARIANT v with MSGLEN cleared, and raises CONFIG for v ≥ 8 with MSGLEN kept. -/
def Obligations.HashInitResult : Prop :=
  decode 0x0000050E#32 = .ok (.hashInit 5#8) ∧ ∀ (s : State) (v : BitVec 8),
    (v.toNat < 8 →
      ∃ t, exec (.selectVariant v) s = .next t ∧ exec (.hashInit v) s = .next { t with msglen := 0#32 } ∧
        t.status = okStatus s) ∧
    (8 ≤ v.toNat → exec (.hashInit v) s = .next (failed .config s))

/-- R129: HASH_UPDATE n appends the low 8n bits of DIN to MSGBUF at bit MSGLEN and adds 8n to MSGLEN; it raises ILLEGAL for a bad
n and LENGTH, after that, when the bytes do not fit. -/
def Obligations.HashUpdateResult : Prop :=
  decode 0x0000030F#32 = .ok (.hashUpdate 3#8) ∧ ∀ (s : State) (n : BitVec 8), s.params.wf = true → s.msgbuf.wf = true →
    ((1 ≤ n.toNat ∧ n.toNat ≤ 4) → s.msglen.toNat + 8 * n.toNat ≤ 8 * s.params.msgBytes →
      ∃ t, exec (.hashUpdate n) s = .next t ∧
        t = { s with msgbuf := t.msgbuf, msglen := t.msglen, status := okStatus s } ∧
        t.msglen.toNat = s.msglen.toNat + 8 * n.toNat ∧
        (∀ k < 8 * n.toNat, t.msgbuf.isWritten (s.msglen.toNat + k) = true ∧
          t.msgbuf.storedBit (s.msglen.toNat + k) = s.din.getLsbD k) ∧
        ∀ i, (i < s.msglen.toNat ∨ s.msglen.toNat + 8 * n.toNat ≤ i) →
          t.msgbuf.isWritten i = s.msgbuf.isWritten i ∧ t.msgbuf.storedBit i = s.msgbuf.storedBit i) ∧
    ((1 ≤ n.toNat ∧ n.toNat ≤ 4) → 8 * s.params.msgBytes < s.msglen.toNat + 8 * n.toNat →
      exec (.hashUpdate n) s = .next (failed .length s)) ∧
    (¬(1 ≤ n.toNat ∧ n.toNat ≤ 4) → exec (.hashUpdate n) s = .next (failed .illegal s))

/-! ## The host port (10_state.md, 20_memory.md, 45_control.md) -/

/-- R48: accesses while BUSY = 1. A read other than of ID and STATUS is 32 fresh free bits (log entry 4). -/
def Obligations.AccessesWhileBusy : Prop :=
  ∀ (s : State) (r : Reg) (v : Word), s.status.busy = true →
    (readReg .id s = (0x4B454343#32, s)) ∧ (readReg .status s = (s.status.word, s)) ∧
      (r ≠ .id → r ≠ .status →
        (readReg r s).2 = { s with draws := s.draws + 32 } ∧
          ∀ j < 32, (readReg r s).1.getLsbD j = s.freshBit j) ∧
      (writeReg .status v s =
        { s with
          status := { s.status with
            errSeen := s.status.errSeen && !v.getLsbD 2, ovr := s.status.ovr && !v.getLsbD 3 } }) ∧
      (r ≠ .status → writeReg r v s = { s with status := { s.status with ovr := true } })

/-- R131, R134: a write to CMD is accepted or dropped, and a write to STATUS clears the sticky bits written as 1, whether or
not BUSY = 1. -/
def Obligations.CommandAndStatusWrites : Prop :=
  ∀ (s : State) (v : Word),
    (s.status.busy = false →
      performAccess ⟨s.params.base + 0x008, 4, .write v⟩ s =
        .next { s with pend := v, status := { s.status with busy := true } }) ∧
    (s.status.busy = true →
      performAccess ⟨s.params.base + 0x008, 4, .write v⟩ s = .next { s with status := { s.status with ovr := true } }) ∧
    performAccess ⟨s.params.base + 0x004, 4, .write v⟩ s =
      .next
        { s with
          status := { s.status with
            errSeen := s.status.errSeen && !v.getLsbD 2, ovr := s.status.ovr && !v.getLsbD 3 } }

/-- R45: a misaligned access, or one of another width than 4 bytes, is refused. -/
def Obligations.UnsupportedAccessRefused : Prop :=
  ∀ (s : State) (a : Access), s.params.base ≤ a.addr → a.addr < s.params.base + 0x10000 →
    ((a.addr - s.params.base) % 4 ≠ 0 ∨ a.width ≠ 4) → performAccess a s = .refused .unsupportedAccess

/-- An aligned access at an offset is the write or read of the register there, in every state (R20, R44). While BUSY = 0: what
is written reads back with the reserved bits 0 (R24, R26 to R30, R32, R34, R42). A write to CFG, SUFFIX, MSGLEN, OUTLEN, VLEN or
DIN changes that register and nothing else, one to a VIEWBUF or MSGBUF word changes the 32 bits of that word and nothing else,
and one to ID, ACTCFG or an OUTBUF word changes nothing (R21, R25, R33). ID reads its constant, CMD reads 0, ACTCFG reads L in
[2:0] and RATE in [26:16] (R21, R23, R25), and the OUTBUF words stand at 0x400 (R33). -/
def Obligations.RegisterReadBack : Prop :=
  (∀ (s : State) (v : Word) (off : Nat), off % 4 = 0 → off < 0x10000 →
    performAccess ⟨s.params.base + off, 4, .write v⟩ s = .next (writeReg (regAt s.params off) v s) ∧
      performAccess ⟨s.params.base + off, 4, .read⟩ s =
        .next (respond (readReg (regAt s.params off) s).1 (readReg (regAt s.params off) s).2)) ∧
  ∀ (s : State) (v : Word) (k : Nat), s.status.busy = false → s.msgbuf.wf = true → s.params.wf = true →
    let write := fun off => writeReg (regAt s.params off) v s
    let back := fun off => (readReg (regAt s.params off) (write off)).1
    let read := fun off => (readReg (regAt s.params off) s).1
    let inWord := fun j => 32 * k ≤ j ∧ j < 32 * k + 32
    (back 0x00C = v &&& 0x07FF0007#32 ∧
      write 0x00C = { s with cfg := { l := v.extractLsb' 0 3, rate := v.extractLsb' 16 11 } }) ∧
    (back 0x014 = v &&& 0x00000FFF#32 ∧
      write 0x014 = { s with suffix := { bits := v.extractLsb' 0 8, len := v.extractLsb' 8 4 } }) ∧
    (back 0x018 = v ∧ write 0x018 = { s with msglen := v }) ∧ (back 0x01C = v ∧ write 0x01C = { s with outlen := v }) ∧
    (back 0x020 = v &&& 0x000007FF#32 ∧ write 0x020 = { s with vlen := v.extractLsb' 0 11 }) ∧
    (back 0x024 = v ∧ write 0x024 = { s with din := v }) ∧
    (k < 50 →
      back (0x200 + 4 * k) = v ∧ write (0x200 + 4 * k) = { s with viewbuf := (write (0x200 + 4 * k)).viewbuf } ∧
        ∀ j, (inWord j → (write (0x200 + 4 * k)).viewbuf.written.getLsbD j = true) ∧
          (¬inWord j →
            (write (0x200 + 4 * k)).viewbuf.written.getLsbD j = s.viewbuf.written.getLsbD j ∧
              (write (0x200 + 4 * k)).viewbuf.bits.getLsbD j = s.viewbuf.bits.getLsbD j)) ∧
    (4 * k < s.params.msgBytes →
      back (0x1000 + 4 * k) = v ∧ write (0x1000 + 4 * k) = { s with msgbuf := (write (0x1000 + 4 * k)).msgbuf } ∧
        ∀ j, (inWord j → (write (0x1000 + 4 * k)).msgbuf.isWritten j = true) ∧
          (¬inWord j →
            (write (0x1000 + 4 * k)).msgbuf.isWritten j = s.msgbuf.isWritten j ∧
              (write (0x1000 + 4 * k)).msgbuf.storedBit j = s.msgbuf.storedBit j)) ∧
    (write 0x000 = s ∧ write 0x010 = s ∧
      (4 * k < s.params.outBytes → regAt s.params (0x400 + 4 * k) = .outWord k ∧ write (0x400 + 4 * k) = s)) ∧
    read 0x000 = 0x4B454343#32 ∧ read 0x008 = 0#32 ∧
    ∀ j, (read 0x010).getLsbD j =
      if j < 3 then s.actcfg.l.getLsbD j
      else if 16 ≤ j ∧ j < 27 then s.actcfg.rate.getLsbD (j - 16)
      else false

/-- R31: the STATE window shows the `b` bits of the state and zeros above, ignores writes, and reads 0 at reset. -/
def Obligations.StateWindowReads : Prop :=
  (∀ (p : Params) (k : Nat), k < 50 → regAt p (0x100 + 4 * k) = .stateWord k) ∧
    (∀ (s : State) (k j : Nat), s.status.busy = false → k < 50 → j < 32 →
      (readReg (.stateWord k) s).1.getLsbD j = (decide (32 * k + j < s.actcfg.b) && s.store.getLsbD (32 * k + j))) ∧
    (∀ (s : State) (k : Nat) (v : Word), s.status.busy = false → writeReg (.stateWord k) v s = s) ∧
    ∀ (p : Params) (k : Nat), (readReg (.stateWord k) (State.resetWith p)).1 = 0#32

/-- Reserved offsets read 0 and ignore writes, with no error (R20, R35). -/
def Obligations.ReservedOffsetsInert : Prop :=
  ∀ (s : State) (off : Nat) (v : Word), s.status.busy = false → s.params.wf = true → off % 4 = 0 → off < 0x10000 →
    ((0x28 ≤ off ∧ off < 0x100) ∨ (0x1C8 ≤ off ∧ off < 0x200) ∨ (0x2C8 ≤ off ∧ off < 0x400) ∨
      (0x400 + s.params.outBytes ≤ off ∧ off < 0x1000) ∨ 0x1000 + s.params.msgBytes ≤ off) →
    performAccess ⟨s.params.base + off, 4, .read⟩ s = .next (respond 0#32 s) ∧
      performAccess ⟨s.params.base + off, 4, .write v⟩ s = .next s

/-- STATUS stands at 0x004 and reads, in every state, BUSY in bit 0, SKIP in 1, ERRSEEN in 2, OVR in 3, the code in [7:4] with
NONE 0, CONFIG 1, FORMAT 2, LENGTH 3, INDEX 4 and ILLEGAL 5, and 0 above (R20, R22, R140).
A read of any register, in any state, changes nothing but the draw counter (R47; log entry 3). While BUSY = 0, bit `j` of
word `k` of a buffer reads bit `32k + j` of it where that bit has been written, whatever the rest of the word, and the draw
`32k + j` places ahead where not (R39, R42); and a second read returns the same value when the read draws nothing: of a word
whose 32 bits are written, or of a register that is no buffer word. -/
def Obligations.ReadsRepeat : Prop :=
  (∀ (p : Params), regAt p 0x004 = .status) ∧
  (∀ (s : State),
    let v := (readReg .status s).1
    v.getLsbD 0 = s.status.busy ∧ v.getLsbD 1 = s.status.skip ∧ v.getLsbD 2 = s.status.errSeen ∧
      v.getLsbD 3 = s.status.ovr ∧
      v.extractLsb' 4 4 =
        (match s.status.err with
          | .none => 0#4
          | .config => 1#4
          | .format => 2#4
          | .length => 3#4
          | .index => 4#4
          | .illegal => 5#4) ∧
      ∀ j, 8 ≤ j → v.getLsbD j = false) ∧
  ∀ (s : State) (r : Reg),
    ((readReg r s).2 = { s with draws := (readReg r s).2.draws } ∧ s.draws ≤ (readReg r s).2.draws) ∧
    (s.status.busy = false → ∀ k, ∀ j < 32,
      (r = .viewWord k →
        (readReg r s).1.getLsbD j =
          if s.viewbuf.written.getLsbD (32 * k + j) then s.viewbuf.bits.getLsbD (32 * k + j)
          else s.freshBit (32 * k + j)) ∧
      (r = .msgWord k →
        (readReg r s).1.getLsbD j =
          if s.msgbuf.isWritten (32 * k + j) then s.msgbuf.storedBit (32 * k + j) else s.freshBit (32 * k + j)) ∧
      (r = .outWord k →
        (readReg r s).1.getLsbD j =
          if s.outbuf.isWritten (32 * k + j) then s.outbuf.storedBit (32 * k + j) else s.freshBit (32 * k + j))) ∧
    (s.status.busy = false →
      (∀ k, r = .viewWord k → ∀ j < 32, s.viewbuf.written.getLsbD (32 * k + j) = true) →
      (∀ k, r = .msgWord k → ∀ j < 32, s.msgbuf.isWritten (32 * k + j) = true) →
      (∀ k, r = .outWord k → ∀ j < 32, s.outbuf.isWritten (32 * k + j) = true) →
      (readReg r (readReg r s).2).1 = (readReg r s).1)

/-- No move of the host writes the state cube, ACTCFG or OUTBUF (R25, R31, R33). -/
def Obligations.HostMovesKeepEngineResults : Prop :=
  ∀ s s' t : State, nextMove s = .host s' → step s = .next t →
    t.store = s.store ∧ t.actcfg = s.actcfg ∧ t.outbuf = s.outbuf ∧ t.params = s.params

/-- Who sets and clears BUSY and OVR: BUSY rises only in a host move and falls only in an ENGINE step or a reset; OVR falls only
in a host move or a reset, and rises only in a host move (R36, R131, R133, R134, R163). -/
def Obligations.FlagsLifeCycle : Prop :=
  ∀ s t : State, step s = .next t →
    (s.status.busy = false → t.status.busy = true → ∃ s', nextMove s = .host s') ∧
      (s.status.busy = true → t.status.busy = false → ∃ s', nextMove s = .engine s' ∨ nextMove s = .reset s') ∧
      (s.status.ovr = true → t.status.ovr = false → ∃ s', nextMove s = .host s' ∨ nextMove s = .reset s') ∧
      (s.status.ovr = false → t.status.ovr = true → s.status.busy = true ∧ ∃ s', nextMove s = .host s')

/-- A WAIT polls as often as the schedule lets the host move before the ENGINE, the ENGINE step that follows clears BUSY, and
the next poll reads BUSY = 0 and takes the WAIT off the host's list (R68, R168; the schedule and the list are the model's own,
log entries 6 and 7). -/
def Obligations.WaitEndsWithEngineStep : Prop :=
  ∀ (n : Nat) (s : State) (rest : List HostOp), s.Inv → s.status.busy = true → s.host = .wait :: rest →
    s.sched = List.replicate n .host →
    ∃ t u, Host.Core.run Sys2Proof.core (n + 1) s = .next t ∧ t.status.busy = false ∧ t.host = .wait :: rest ∧
      t.responses = s.responses ++ List.replicate n s.status.word ∧ t.sched = [] ∧
      Host.Core.run Sys2Proof.core (n + 2) s = .next u ∧ step t = .next u ∧
      u = { t with host := rest, responses := t.responses ++ [t.status.word] } ∧ t.status.word.getLsbD 0 = false

/-- A step of one engine instance changes no other instance (R55, R156). -/
def Obligations.EnginesShareNoState : Prop :=
  ∀ (P Q : Platform) (k j : Nat), platformStep P k = .next Q → j ≠ k → Q.engines[j]? = P.engines[j]?
end

