-- ==== Sys2Proof/Laws/Bits.lean ====
section
/-!
SUPPORT. Laws/Bits.lean: the bits of every bit-level operation of Machine/BitVector.lean and Machine/Ops.lean, one lemma each,
so that later proofs speak of bits and never unfold a shift or a mask.
-/
namespace Sys2Proof.Machine

/-! ## Lists of bits -/

@[simp] theorem length_bitsOf (f : Nat → Bool) (n : Nat) : (bitsOf f n).length = n := by simp [bitsOf]

theorem getD_bitsOf (f : Nat → Bool) (n i : Nat) : (bitsOf f n).getD i false = (decide (i < n) && f i) := by
  by_cases h : i < n <;> simp [bitsOf, List.getD_eq_getElem?_getD, h]

theorem testBit_bitsToNat (v : Bits) (i : Nat) : (bitsToNat v).testBit i = v.getD i false := by
  induction v generalizing i with
  | nil => simp [bitsToNat]
  | cons b v ih =>
    cases i with
    | zero => cases b <;> simp [bitsToNat, Nat.testBit_zero, Nat.add_mod]
    | succ i =>
      have h : (b.toNat + 2 * bitsToNat v) / 2 = bitsToNat v := by cases b <;> (simp; try omega)
      simp [bitsToNat, Nat.testBit_succ, h, ih]

theorem getLsbD_bitsToStore (v : Bits) (i : Nat) :
    (bitsToStore v).getLsbD i = (decide (i < 1600) && v.getD i false) := by
  rw [bitsToStore, BitVec.getLsbD_ofNat, testBit_bitsToNat, List.getD_eq_getElem?_getD, List.getD_eq_getElem?_getD,
    List.getElem?_take]
  by_cases h : i < 1600 <;> simp [h]

theorem getLsbD_bitsToWord (v : Bits) (i : Nat) :
    (bitsToWord v).getLsbD i = (decide (i < 32) && v.getD i false) := by
  rw [bitsToWord, BitVec.getLsbD_ofNat, testBit_bitsToNat, List.getD_eq_getElem?_getD, List.getD_eq_getElem?_getD,
    List.getElem?_take]
  by_cases h : i < 32 <;> simp [h]

theorem getLsbD_bitsToByte (v : Bits) (i : Nat) :
    (bitsToByte v).getLsbD i = (decide (i < 8) && v.getD i false) := by
  rw [bitsToByte, BitVec.getLsbD_ofNat, testBit_bitsToNat, List.getD_eq_getElem?_getD, List.getD_eq_getElem?_getD,
    List.getElem?_take]
  by_cases h : i < 8 <;> simp [h]

@[simp] theorem length_byteBits (b : Byte) : (byteBits b).length = 8 := by simp [byteBits]

@[simp] theorem length_toBytesN (n : Nat) (v : Bits) : (toBytesN n v).length = n := by
  induction n generalizing v with
  | zero => rfl
  | succ n ih => simp [toBytesN, ih]

/-- Byte `k` of a byte view holds bits `8k .. 8k+7` (R74). -/
theorem getLsbD_toBytesN (n : Nat) (v : Bits) (k i : Nat) (hk : k < n) (hi : i < 8) :
    ((toBytesN n v).getD k 0#8).getLsbD i = v.getD (8 * k + i) false := by
  induction n generalizing v k with
  | zero => omega
  | succ n ih =>
    cases k with
    | zero => rw [toBytesN, List.getD_cons_zero, getLsbD_bitsToByte]; simp [hi]
    | succ k =>
      have e : 8 + (8 * k + i) = 8 * (k + 1) + i := by omega
      rw [toBytesN, List.getD_cons_succ, ih _ _ (by omega), List.getD_eq_getElem?_getD, List.getElem?_drop, e,
        ← List.getD_eq_getElem?_getD]

/-! ## The storage -/

theorem getLsbD_lowMask (n i : Nat) : (lowMask n).getLsbD i = (decide (i < 1600) && decide (i < n)) := by
  simp [lowMask, BitVec.getLsbD_ofNat, Nat.testBit_two_pow_sub_one]

theorem getLsbD_one_shiftLeft (i j : Nat) (hi : i < 1600) :
    ((1#1600) <<< i).getLsbD j = decide (j = i) := by
  by_cases h : j = i
  · subst h; simp [hi]
  · simp only [BitVec.getLsbD_shiftLeft, h, decide_false]
    by_cases h2 : j < i
    · simp [h2]
    · have : j - i ≠ 0 := by omega
      simp [BitVec.getLsbD_one, this]

/-- The bits after one bit write. -/
theorem getLsbD_setBit (S : Store) (i j : Nat) (v : Bool) (hi : i < 1600) :
    (setBit S i v).getLsbD j = if j = i then v else S.getLsbD j := by
  by_cases hj : j < 1600
  · cases v <;> by_cases h : j = i <;>
      simp only [setBit, BitVec.getLsbD_and, BitVec.getLsbD_or, BitVec.getLsbD_not, getLsbD_one_shiftLeft _ _ hi, h, hj,
        if_true, if_false, Bool.false_eq_true, decide_true, decide_false] <;> simp
  · have hj' : 1600 ≤ j := by omega
    have : j ≠ i := by omega
    rw [BitVec.getLsbD_of_ge _ _ hj', BitVec.getLsbD_of_ge S _ hj', if_neg this]

/-- A bit no write of a `scatter` names keeps its value. -/
theorem getLsbD_scatter_other (V : Nat → Nat) (f : Nat → Bool) (n : Nat) (S : Store) (j : Nat)
    (hV : ∀ k < n, V k < 1600) (hj : ∀ k < n, V k ≠ j) : (scatter V f n S).getLsbD j = S.getLsbD j := by
  induction n with
  | zero => rfl
  | succ n ih =>
    have h1 := hV n (by omega)
    have h2 := hj n (by omega)
    rw [scatter, getLsbD_setBit _ _ _ _ h1, if_neg (fun h => h2 h.symm)]
    exact ih (fun k hk => hV k (by omega)) (fun k hk => hj k (by omega))

/-- Each write of a `scatter` to distinct positions stands. -/
theorem getLsbD_scatter (V : Nat → Nat) (f : Nat → Bool) (n : Nat) (S : Store) (k : Nat) (hk : k < n)
    (hV : ∀ k < n, V k < 1600) (hinj : ∀ i < n, ∀ j < n, V i = V j → i = j) :
    (scatter V f n S).getLsbD (V k) = f k := by
  induction n with
  | zero => omega
  | succ n ih =>
    rw [scatter, getLsbD_setBit _ _ _ _ (hV n (by omega))]
    by_cases h : k = n
    · subst h; simp
    · rw [if_neg (fun he => h (hinj _ hk _ (by omega) he))]
      exact ih (by omega) (fun i hi => hV i (by omega))
        (fun i hi j hj => hinj i (by omega) j (by omega))

/-- The bits of a gathered vector (R92, R118). -/
theorem getLsbD_gather (f : Nat → Bool) (n i : Nat) :
    (gather f n).getLsbD i = (decide (i < 1600) && (decide (i < n) && f i)) := by
  rw [gather, getLsbD_bitsToStore, getD_bitsOf]

/-- `S <- T` writes the `b` bits of the state and nothing above (R18). -/
theorem getLsbD_putState (b : Nat) (old T : Store) (i : Nat) :
    (putState b old T).getLsbD i = if i < b then T.getLsbD i else old.getLsbD i := by
  by_cases hi : i < 1600
  · by_cases h : i < b <;>
      simp only [putState, BitVec.getLsbD_and, BitVec.getLsbD_or, BitVec.getLsbD_not, getLsbD_lowMask, hi, h] <;> simp
  · simp [BitVec.getLsbD_of_ge _ _ (by omega : 1600 ≤ i)]

/-- The STATE window's image: the state's bits and zeros above (R31). -/
theorem getLsbD_stateImage (s : State) (i : Nat) :
    (stateImage s).getLsbD i = (decide (i < s.actcfg.b) && s.store.getLsbD i) := by
  by_cases hi : i < 1600
  · rw [stateImage, BitVec.getLsbD_and, getLsbD_lowMask]
    simp [hi, Bool.and_comm]
  · simp [BitVec.getLsbD_of_ge _ _ (by omega : 1600 ≤ i)]

/-! ## Registers as words -/

/-- A flag occupies one bit of its word. -/
theorem getLsbD_flagBit (b : Bool) (k j : Nat) (hk : k < 32) : (flagBit b k).getLsbD j = (decide (j = k) && b) := by
  by_cases hj : j < 32
  · interval_cases k <;> interval_cases j <;> cases b <;> decide
  · rw [BitVec.getLsbD_of_ge _ _ (by omega)]
    simp [show j ≠ k by omega]

/-- CFG and ACTCFG as words: L in [2:0], RATE in [26:16], 0 elsewhere (R24, R25). -/
theorem getLsbD_cfgWord (c : CfgReg) (j : Nat) :
    c.word.getLsbD j =
      if j < 3 then c.l.getLsbD j else if 16 ≤ j ∧ j < 27 then c.rate.getLsbD (j - 16) else false := by
  simp only [CfgReg.word, BitVec.getLsbD_or, BitVec.getLsbD_shiftLeft, BitVec.getLsbD_setWidth]
  by_cases h1 : j < 3
  · simp [h1, show j < 32 by omega, show j < 16 by omega]
  · rw [BitVec.getLsbD_of_ge c.l j (by omega)]
    by_cases h2 : 16 ≤ j ∧ j < 27
    · simp [h1, h2, show j < 32 by omega, show ¬j < 16 by omega, show j - 16 < 32 by omega]
    · by_cases h3 : j < 16
      · simp [h1, h3, show ¬16 ≤ j by omega]
      · rw [BitVec.getLsbD_of_ge c.rate _ (by omega)]
        simp [h1, h2]

/-! ## VIEWBUF -/

theorem ViewBuf.read_of_written (vb : ViewBuf) (free : Nat → Bool) (i : Nat) (h : vb.written.getLsbD i = true) :
    vb.read free i = vb.bits.getLsbD i := by simp [ViewBuf.read, h]

/-- A buffer a command has written in full holds no draw (R165). -/
theorem ViewBuf.read_full (bits : Store) (free : Nat → Bool) (i : Nat) (hi : i < 1600) :
    (ViewBuf.full bits).read free i = bits.getLsbD i := by
  have h : (BitVec.allOnes 1600).getLsbD i = true := by rw [BitVec.getLsbD_allOnes]; simp [hi]
  simp only [ViewBuf.read, ViewBuf.full, h, if_true]

/-- The bits of VIEWBUF after a host write of word `k` (R32, R42). -/
theorem ViewBuf.bits_writeWord (vb : ViewBuf) (k : Nat) (hk : k < 50) (v : Word) (j : Nat) :
    (vb.writeWord k v).written.getLsbD j = ((decide (32 * k ≤ j) && decide (j < 32 * k + 32)) || vb.written.getLsbD j) ∧
      (vb.writeWord k v).bits.getLsbD j =
        if 32 * k ≤ j ∧ j < 32 * k + 32 then v.getLsbD (j - 32 * k) else vb.bits.getLsbD j := by
  have mask : ((0xFFFFFFFF#1600) <<< (32 * k)).getLsbD j = (decide (32 * k ≤ j) && decide (j < 32 * k + 32)) := by
    have h32 : (0xFFFFFFFF : Nat) = 2 ^ 32 - 1 := by decide
    rw [BitVec.getLsbD_shiftLeft, BitVec.getLsbD_ofNat, h32, Nat.testBit_two_pow_sub_one]
    rw [Bool.eq_iff_iff]
    simp only [Bool.and_eq_true, Bool.not_eq_true', decide_eq_true_eq, decide_eq_false_iff_not]
    omega
  by_cases hj : j < 1600
  · by_cases h : 32 * k ≤ j ∧ j < 32 * k + 32
    · have h3 : j - 32 * k < 1600 := by omega
      have h4 : ¬j < 32 * k := by omega
      constructor
      · simp only [ViewBuf.writeWord, BitVec.getLsbD_or, mask, Bool.or_comm]
      · simp only [ViewBuf.writeWord, BitVec.getLsbD_or, BitVec.getLsbD_and, BitVec.getLsbD_not, mask, h,
          BitVec.getLsbD_shiftLeft, BitVec.getLsbD_setWidth, h3, h4, hj]
        simp
    · have hd : (decide (32 * k ≤ j) && decide (j < 32 * k + 32)) = false := by simpa using h
      constructor
      · simp only [ViewBuf.writeWord, BitVec.getLsbD_or, mask, Bool.or_comm]
      · have hz : (v.setWidth 1600 <<< (32 * k)).getLsbD j = false := by
          rw [BitVec.getLsbD_shiftLeft, BitVec.getLsbD_setWidth]
          by_cases h1 : j < 32 * k
          · simp [h1]
          · rw [BitVec.getLsbD_of_ge v _ (by omega)]; simp
        simp only [ViewBuf.writeWord, BitVec.getLsbD_or, BitVec.getLsbD_and, BitVec.getLsbD_not, mask, hd, hz, h, hj,
          if_false]
        simp
  · have hj' : 1600 ≤ j := by omega
    have h : ¬(32 * k ≤ j ∧ j < 32 * k + 32) := by omega
    have hd : (decide (32 * k ≤ j) && decide (j < 32 * k + 32)) = false := by simpa using h
    simp only [BitVec.getLsbD_of_ge _ _ hj', h, hd, if_false, Bool.false_or, and_self]

end Sys2Proof.Machine
end

