-- ==== Sys2Proof/Laws/BitVector.lean ====
section
/-!
SUPPORT. Laws/BitVector.lean: the testable properties of the value type that 40_bitvector.md rule R82 asks a model to prove
(round trip, idempotent truncate, length-mismatch no-op), and the small lemmas of `fromBytes`, `toBytes`, `bvTruncate` and
`bvLogic` they rest on.
-/
namespace Sys2Proof.Machine

/-! ## Byte buffers as bits (R73, R74) -/

@[simp] theorem length_bytesBits (bytes : List Byte) : (bytesBits bytes).length = 8 * bytes.length := by
  induction bytes with
  | nil => rfl
  | cons b bytes ih =>
    rw [bytesBits, List.flatMap_cons, ← bytesBits, List.length_append, ih, length_byteBits, List.length_cons]
    omega

/-- `u[i] = bit (i mod 8) of bytes[⌊i/8⌋]` (R73). -/
theorem getD_bytesBits (bytes : List Byte) (i : Nat) :
    (bytesBits bytes).getD i false = (bytes.getD (i / 8) 0#8).getLsbD (i % 8) := by
  induction bytes generalizing i with
  | nil => simp [bytesBits]
  | cons b bytes ih =>
    rw [bytesBits, List.flatMap_cons, ← bytesBits]
    by_cases h : i < 8
    · rw [List.getD_append _ _ _ _ (by simpa using h), byteBits, getD_bitsOf, Nat.div_eq_of_lt h, Nat.mod_eq_of_lt h]
      simp [h]
    · have hd : i / 8 = (i - 8) / 8 + 1 := by omega
      have hm : i % 8 = (i - 8) % 8 := by omega
      rw [List.getD_append_right _ _ _ _ (by simpa using h), length_byteBits, ih, hd, hm, List.getD_cons_succ]

/-- `from_bytes` with a length answers that many bits exactly when the buffer has them (R73). -/
theorem fromBytes_some_iff (bytes : List Byte) (n : Nat) (v : Bits) :
    fromBytes bytes (some n) = .ok v ↔ n ≤ 8 * bytes.length ∧ v = (bytesBits bytes).take n := by
  by_cases h : n ≤ 8 * bytes.length <;> simp [fromBytes, h, eq_comm]

@[simp] theorem length_toBytes (v : Bits) : (toBytes v).length = (v.length + 7) / 8 := by simp [toBytes]

/-- Bit `i` of byte `k` of `to_bytes()` is `v[8k+i]`, and 0 at positions `n` and above (R74). -/
theorem getLsbD_toBytes (v : Bits) (k i : Nat) (hk : k < (v.length + 7) / 8) (hi : i < 8) :
    ((toBytes v).getD k 0#8).getLsbD i = v.getD (8 * k + i) false := getLsbD_toBytesN _ _ _ _ hk hi

/-- The byte with ones at positions below `m`. -/
theorem getLsbD_lowOnes (m i : Nat) : (BitVec.ofNat 8 (2 ^ m - 1)).getLsbD i = (decide (i < 8) && decide (i < m)) := by
  simp [BitVec.getLsbD_ofNat, Nat.testBit_two_pow_sub_one]

/-! ## The properties of R82 -/

/-- Round trip (R82). -/
theorem fromBytes_toBytes : RoundTrip := by
  intro bytes n h
  have hlen : ((bytesBits bytes).take n).length = n := by simp [h]
  refine ⟨_, (fromBytes_some_iff _ _ _).2 ⟨h, rfl⟩, hlen, ?_⟩
  unfold maskedBytes
  apply List.ext_getElem
  · rw [length_toBytes, hlen, List.length_mapIdx, List.length_take]
    omega
  · intro k hk hk'
    rw [length_toBytes, hlen] at hk
    apply BitVec.eq_of_getLsbD_eq
    intro i hi
    have hkb : k < bytes.length := by omega
    have hd : (8 * k + i) / 8 = k := by omega
    have hm : (8 * k + i) % 8 = i := by omega
    have hbit := getLsbD_toBytes ((bytesBits bytes).take n) k i (by rwa [hlen]) hi
    rw [List.getD_eq_getElem _ _ (by rwa [length_toBytes, hlen])] at hbit
    rw [hbit, List.getElem_mapIdx, List.getElem_take, BitVec.getLsbD_and, getLsbD_lowOnes, List.getD_eq_getElem?_getD,
      List.getElem?_take]
    by_cases hn : 8 * k + i < n
    · have hbits := getD_bytesBits bytes (8 * k + i)
      rw [hd, hm, List.getD_eq_getElem _ _ hkb, List.getD_eq_getElem?_getD] at hbits
      simp only [hn, if_true, hbits, hi, show i < n - 8 * k by omega, decide_true, Bool.and_true]
    · simp [hn, show ¬i < n - 8 * k by omega]

/-- Round trip of a whole buffer (R82 at `n = 8·|B|`, R73's default length): `from_bytes(B).to_bytes() = B`. -/
theorem toBytes_bytesBits (bytes : List Byte) : toBytes (bytesBits bytes) = bytes := by
  apply List.ext_getElem
  · rw [length_toBytes, length_bytesBits]
    omega
  · intro k hk hk'
    apply BitVec.eq_of_getLsbD_eq
    intro i hi
    have hbit := getLsbD_toBytes (bytesBits bytes) k i (by simpa using hk) hi
    rw [List.getD_eq_getElem _ _ hk] at hbit
    rw [hbit, getD_bytesBits, show (8 * k + i) / 8 = k by omega, show (8 * k + i) % 8 = i by omega,
      List.getD_eq_getElem _ _ hk']

/-- `truncate(len)` has `min(max(len, 0), n)` bits (R80). -/
@[simp] theorem length_bvTruncate (v : Bits) (len : Int) : (bvTruncate v len).length = min len.toNat v.length := by
  simp [bvTruncate]

/-- Idempotent truncate (R82), for every length. -/
theorem bvTruncate_idem : TruncateIdempotent := by
  intro v len
  simp [bvTruncate, List.take_take]

/-- What a logical operation can do: act bit by bit on an operand of its own length, else nothing (R81). -/
theorem bvLogic_eq (f : Bool → Bool → Bool) (v : Bits) (u : BvOperand) :
    (∃ w, u.bits = some w ∧ w.length = v.length ∧ bvLogic f v u = v.zipWith f w) ∨
      ((∀ w, u.bits = some w → w.length ≠ v.length) ∧ bvLogic f v u = v) := by
  unfold bvLogic
  cases h : u.bits with
  | none => exact .inr ⟨fun w hw => by simp at hw, rfl⟩
  | some w =>
    by_cases hl : w.length = v.length
    · exact .inl ⟨w, rfl, hl, by simp [hl]⟩
    · exact .inr ⟨fun w' hw => by rwa [← Option.some.inj hw], by simp [hl]⟩

/-- The length-mismatch no-op of the three operations (R81, R82): an operand that is absent or has another length leaves the
receiver as it is. -/
theorem bvLogic_mismatch (f : Bool → Bool → Bool) (v : Bits) (u : BvOperand)
    (h : ∀ w, u.bits = some w → w.length ≠ v.length) : bvLogic f v u = v := by
  rcases bvLogic_eq f v u with ⟨w, hw, hl, -⟩ | ⟨-, hv⟩
  · exact absurd hl (h w hw)
  · exact hv

/-- Length-mismatch no-op (R82): `xor(u)` with `|u| ≠ n` leaves the receiver unchanged. -/
theorem bvXor_mismatch (v u : Bits) (h : u.length ≠ v.length) : bvXor v (.vector u) = v :=
  bvLogic_mismatch _ _ _ fun _ hw => by rwa [← Option.some.inj hw]

/-- The same for a byte buffer, whose length in bits is eight times its bytes (R81, R82). -/
theorem bvXor_buffer_mismatch (v : Bits) (bytes : List Byte) (h : 8 * bytes.length ≠ v.length) :
    bvXor v (.buffer bytes) = v :=
  bvLogic_mismatch _ _ _ fun _ hw => by rwa [← Option.some.inj hw, length_bytesBits]

/-- Length-mismatch no-op of all three operations (R81, R82). -/
theorem mismatchNoOp : MismatchNoOp := fun v u h =>
  ⟨bvLogic_mismatch _ v u h, bvLogic_mismatch _ v u h, bvLogic_mismatch _ v u h⟩

/-- The model has the properties R82 asks it to prove. -/
theorem valueProperties : ValueProperties := ⟨fromBytes_toBytes, bvTruncate_idem, mismatchNoOp⟩

end Sys2Proof.Machine
end

