-- ==== Sys2Proof/Laws/State.lean ====
section
/-!
SUPPORT. Laws/State.lean: what each named update of the state leaves in each field, so that no proof unfolds a record update.
-/
namespace Sys2Proof.Machine

/-! ## `complete`: only STATUS (R133) -/

@[simp] theorem complete_params (code : ErrCode) (skip : Bool) (s : State) : (complete code skip s).params = s.params := rfl
@[simp] theorem complete_store (code : ErrCode) (skip : Bool) (s : State) : (complete code skip s).store = s.store := rfl
@[simp] theorem complete_actcfg (code : ErrCode) (skip : Bool) (s : State) : (complete code skip s).actcfg = s.actcfg := rfl
@[simp] theorem complete_cfg (code : ErrCode) (skip : Bool) (s : State) : (complete code skip s).cfg = s.cfg := rfl
@[simp] theorem complete_suffix (code : ErrCode) (skip : Bool) (s : State) : (complete code skip s).suffix = s.suffix := rfl
@[simp] theorem complete_msglen (code : ErrCode) (skip : Bool) (s : State) : (complete code skip s).msglen = s.msglen := rfl
@[simp] theorem complete_outlen (code : ErrCode) (skip : Bool) (s : State) : (complete code skip s).outlen = s.outlen := rfl
@[simp] theorem complete_vlen (code : ErrCode) (skip : Bool) (s : State) : (complete code skip s).vlen = s.vlen := rfl
@[simp] theorem complete_din (code : ErrCode) (skip : Bool) (s : State) : (complete code skip s).din = s.din := rfl
@[simp] theorem complete_status (code : ErrCode) (skip : Bool) (s : State) : (complete code skip s).status = s.status.completed code skip := rfl
@[simp] theorem complete_pend (code : ErrCode) (skip : Bool) (s : State) : (complete code skip s).pend = s.pend := rfl
@[simp] theorem complete_viewbuf (code : ErrCode) (skip : Bool) (s : State) : (complete code skip s).viewbuf = s.viewbuf := rfl
@[simp] theorem complete_msgbuf (code : ErrCode) (skip : Bool) (s : State) : (complete code skip s).msgbuf = s.msgbuf := rfl
@[simp] theorem complete_outbuf (code : ErrCode) (skip : Bool) (s : State) : (complete code skip s).outbuf = s.outbuf := rfl
@[simp] theorem complete_draws (code : ErrCode) (skip : Bool) (s : State) : (complete code skip s).draws = s.draws := rfl
@[simp] theorem complete_host (code : ErrCode) (skip : Bool) (s : State) : (complete code skip s).host = s.host := rfl
@[simp] theorem complete_sched (code : ErrCode) (skip : Bool) (s : State) : (complete code skip s).sched = s.sched := rfl
@[simp] theorem complete_responses (code : ErrCode) (skip : Bool) (s : State) : (complete code skip s).responses = s.responses := rfl

/-- The draws ahead are those of the engine's own BASE (R39, R156). -/
theorem freshBit_eq (s : State) (i : Nat) : s.freshBit i = Config.freeBit s.params.base (s.draws + i) := rfl

@[simp] theorem complete_freshBit (code : ErrCode) (skip : Bool) (s : State) : (complete code skip s).freshBit = s.freshBit := rfl

/-! ## `State.drew`: only the draw counter -/

@[simp] theorem drew_freshBit (s : State) (n i : Nat) : (s.drew n).freshBit i = s.freshBit (n + i) := by
  simp [State.freshBit, State.drew, Nat.add_assoc]

@[simp] theorem drew_params (s : State) (n : Nat) : (s.drew n).params = s.params := rfl
@[simp] theorem drew_store (s : State) (n : Nat) : (s.drew n).store = s.store := rfl
@[simp] theorem drew_actcfg (s : State) (n : Nat) : (s.drew n).actcfg = s.actcfg := rfl
@[simp] theorem drew_cfg (s : State) (n : Nat) : (s.drew n).cfg = s.cfg := rfl
@[simp] theorem drew_suffix (s : State) (n : Nat) : (s.drew n).suffix = s.suffix := rfl
@[simp] theorem drew_msglen (s : State) (n : Nat) : (s.drew n).msglen = s.msglen := rfl
@[simp] theorem drew_outlen (s : State) (n : Nat) : (s.drew n).outlen = s.outlen := rfl
@[simp] theorem drew_vlen (s : State) (n : Nat) : (s.drew n).vlen = s.vlen := rfl
@[simp] theorem drew_din (s : State) (n : Nat) : (s.drew n).din = s.din := rfl
@[simp] theorem drew_status (s : State) (n : Nat) : (s.drew n).status = s.status := rfl
@[simp] theorem drew_pend (s : State) (n : Nat) : (s.drew n).pend = s.pend := rfl
@[simp] theorem drew_viewbuf (s : State) (n : Nat) : (s.drew n).viewbuf = s.viewbuf := rfl
@[simp] theorem drew_msgbuf (s : State) (n : Nat) : (s.drew n).msgbuf = s.msgbuf := rfl
@[simp] theorem drew_outbuf (s : State) (n : Nat) : (s.drew n).outbuf = s.outbuf := rfl
@[simp] theorem drew_draws (s : State) (n : Nat) : (s.drew n).draws = s.draws + n := rfl
@[simp] theorem drew_host (s : State) (n : Nat) : (s.drew n).host = s.host := rfl
@[simp] theorem drew_sched (s : State) (n : Nat) : (s.drew n).sched = s.sched := rfl
@[simp] theorem drew_responses (s : State) (n : Nat) : (s.drew n).responses = s.responses := rfl

/-! ## `respond`: only the host's answers -/

@[simp] theorem respond_params (v : Word) (s : State) : (respond v s).params = s.params := rfl
@[simp] theorem respond_store (v : Word) (s : State) : (respond v s).store = s.store := rfl
@[simp] theorem respond_actcfg (v : Word) (s : State) : (respond v s).actcfg = s.actcfg := rfl
@[simp] theorem respond_cfg (v : Word) (s : State) : (respond v s).cfg = s.cfg := rfl
@[simp] theorem respond_suffix (v : Word) (s : State) : (respond v s).suffix = s.suffix := rfl
@[simp] theorem respond_msglen (v : Word) (s : State) : (respond v s).msglen = s.msglen := rfl
@[simp] theorem respond_outlen (v : Word) (s : State) : (respond v s).outlen = s.outlen := rfl
@[simp] theorem respond_vlen (v : Word) (s : State) : (respond v s).vlen = s.vlen := rfl
@[simp] theorem respond_din (v : Word) (s : State) : (respond v s).din = s.din := rfl
@[simp] theorem respond_status (v : Word) (s : State) : (respond v s).status = s.status := rfl
@[simp] theorem respond_pend (v : Word) (s : State) : (respond v s).pend = s.pend := rfl
@[simp] theorem respond_viewbuf (v : Word) (s : State) : (respond v s).viewbuf = s.viewbuf := rfl
@[simp] theorem respond_msgbuf (v : Word) (s : State) : (respond v s).msgbuf = s.msgbuf := rfl
@[simp] theorem respond_outbuf (v : Word) (s : State) : (respond v s).outbuf = s.outbuf := rfl
@[simp] theorem respond_draws (v : Word) (s : State) : (respond v s).draws = s.draws := rfl
@[simp] theorem respond_host (v : Word) (s : State) : (respond v s).host = s.host := rfl
@[simp] theorem respond_sched (v : Word) (s : State) : (respond v s).sched = s.sched := rfl
@[simp] theorem respond_responses (v : Word) (s : State) : (respond v s).responses = s.responses ++ [v] := rfl

/-! ## `resetEngine`: the reset values, and what lies outside the block (R159, R160) -/

@[simp] theorem resetEngine_params (s : State) : (resetEngine s).params = s.params := rfl
@[simp] theorem resetEngine_store (s : State) : (resetEngine s).store = State.reset.store := rfl
@[simp] theorem resetEngine_actcfg (s : State) : (resetEngine s).actcfg = State.reset.actcfg := rfl
@[simp] theorem resetEngine_cfg (s : State) : (resetEngine s).cfg = State.reset.cfg := rfl
@[simp] theorem resetEngine_suffix (s : State) : (resetEngine s).suffix = State.reset.suffix := rfl
@[simp] theorem resetEngine_msglen (s : State) : (resetEngine s).msglen = State.reset.msglen := rfl
@[simp] theorem resetEngine_outlen (s : State) : (resetEngine s).outlen = State.reset.outlen := rfl
@[simp] theorem resetEngine_vlen (s : State) : (resetEngine s).vlen = State.reset.vlen := rfl
@[simp] theorem resetEngine_din (s : State) : (resetEngine s).din = State.reset.din := rfl
@[simp] theorem resetEngine_status (s : State) : (resetEngine s).status = State.reset.status := rfl
@[simp] theorem resetEngine_pend (s : State) : (resetEngine s).pend = State.reset.pend := rfl
@[simp] theorem resetEngine_viewbuf (s : State) : (resetEngine s).viewbuf = State.reset.viewbuf := rfl
@[simp] theorem resetEngine_msgbuf (s : State) : (resetEngine s).msgbuf = State.reset.msgbuf := rfl
@[simp] theorem resetEngine_outbuf (s : State) : (resetEngine s).outbuf = State.reset.outbuf := rfl
@[simp] theorem resetEngine_draws (s : State) : (resetEngine s).draws = s.draws := rfl
@[simp] theorem resetEngine_host (s : State) : (resetEngine s).host = s.host := rfl
@[simp] theorem resetEngine_sched (s : State) : (resetEngine s).sched = s.sched := rfl
@[simp] theorem resetEngine_responses (s : State) : (resetEngine s).responses = s.responses := rfl

/-! ## STATUS updates -/

@[simp] theorem completed_busy (st : Status) (c : ErrCode) (k : Bool) : (st.completed c k).busy = false := rfl
@[simp] theorem completed_ovr (st : Status) (c : ErrCode) (k : Bool) : (st.completed c k).ovr = st.ovr := rfl
@[simp] theorem completed_err (st : Status) (c : ErrCode) (k : Bool) : (st.completed c k).err = c := rfl
@[simp] theorem completed_none_skip (st : Status) (k : Bool) : (st.completed .none k).skip = k := rfl
@[simp] theorem completed_none_errSeen (st : Status) (k : Bool) : (st.completed .none k).errSeen = st.errSeen := rfl

theorem completed_error_skip (st : Status) {c : ErrCode} (k : Bool) (h : c ≠ .none) :
    (st.completed c k).skip = false := by simp [Status.completed, h]

theorem completed_error_errSeen (st : Status) {c : ErrCode} (k : Bool) (h : c ≠ .none) :
    (st.completed c k).errSeen = true := by simp [Status.completed, h]

/-- Completing a second time without error and without a skip changes nothing more. -/
theorem completed_completed (st : Status) (k : Bool) :
    (st.completed .none k).completed .none false = st.completed .none false := rfl

/-! ## `accept` (R131) -/

theorem accept_idle (c : Word) (s : State) (h : s.status.busy = false) :
    accept c s = { s with pend := c, status := s.status.accepted } := by simp [accept, h]

theorem accept_busy (c : Word) (s : State) (h : s.status.busy = true) :
    accept c s = { s with status := s.status.overrun } := by simp [accept, h]

end Sys2Proof.Machine
end

