-- ==== Sys2Proof/Laws/Step.lean ====
section
/-!
SUPPORT. Laws/Step.lean: what each shared operation of the command life cycle, of the host port and of `step` can do, once
(45_control.md rules R131 to R134; 20_memory.md rules R45 to R48).
-/
namespace Sys2Proof.Machine

/-! ## The command life cycle -/

/-- `commit` answers a next state exactly by committing or by discarding (R132). -/
theorem commit_next_iff (s : State) (r : RunResult) (t : State) :
    commit s r = .next t ↔
      (∃ k u, r = .done k u ∧ t = complete .none k u) ∨ (∃ e, r = .raised e ∧ t = complete e false s) := by
  cases r <;> simp [commit, eq_comm]

@[simp] theorem commit_done (s : State) (k : Bool) (u : State) :
    commit s (.done k u) = .next (complete .none k u) := rfl

@[simp] theorem commit_raised (s : State) (e : ErrCode) : commit s (.raised e) = .next (complete e false s) := rfl

@[simp] theorem commit_stuck (s : State) (f : Fault) : commit s (.stuck f) = .fault f := rfl

/-- A round-function command applies its mapping when ACTCFG is legal, and is stuck otherwise (R149). -/
theorem runMapping_legal (g : Nat → Store → Store) (s : State) (h : s.actcfg.legal = true) :
    runMapping g s =
      .done false { s with store := putState s.actcfg.b s.store (g s.actcfg.lNat s.store) } := by
  simp [runMapping, h]

theorem runMapping_illegal (g : Nat → Store → Store) (s : State) (h : s.actcfg.legal = false) :
    runMapping g s = .stuck .inconsistentStateSize := by simp [runMapping, h]

theorem legal_iff (c : CfgReg) :
    c.legal = true ↔ c.l.toNat ≤ 6 ∧ 1 ≤ c.rate.toNat ∧ c.rate.toNat < 25 * 2 ^ c.l.toNat := by
  simp only [CfgReg.legal, CfgReg.b, Bool.and_eq_true, and_assoc]
  exact and_congr decide_eq_true_iff (and_congr decide_eq_true_iff decide_eq_true_iff)

/-- `check_view` answers the kind exactly when no check of R89 fails. -/
theorem checkView_ok_iff (w : Nat) (sel : ViewSel) (kind : ViewKind) :
    checkView w sel = .ok kind ↔
      kindOfCode sel.kind = some kind ∧
        (sel.all = true ∨ coordsInRange kind w sel.x.toNat sel.y.toNat sel.z.toNat = true) := by
  unfold checkView
  cases h : kindOfCode sel.kind with
  | none => simp
  | some k =>
    cases ha : sel.all with
    | true => simp
    | false =>
      cases hc : coordsInRange k w sel.x.toNat sel.y.toNat sel.z.toNat with
      | true =>
        constructor
        · intro h1
          simp only [hc, Bool.false_eq_true, if_false, if_true, Except.ok.injEq] at h1
          exact ⟨congrArg some h1, .inr (h1 ▸ hc)⟩
        · rintro ⟨h1, -⟩
          simp only [hc, Bool.false_eq_true, if_false, if_true, Except.ok.injEq]
          exact Option.some.inj h1
      | false =>
        constructor
        · intro h1; simp [hc] at h1
        · rintro ⟨h1, h2⟩
          rw [← Option.some.inj h1, hc] at h2
          simp at h2

/-- `check_view` raises only ILLEGAL, for a reserved KIND, and INDEX (R89). -/
theorem checkView_error_iff (w : Nat) (sel : ViewSel) (e : ErrCode) :
    checkView w sel = .error e ↔
      (kindOfCode sel.kind = none ∧ e = .illegal) ∨
        ∃ kind, kindOfCode sel.kind = some kind ∧ sel.all = false ∧
          coordsInRange kind w sel.x.toNat sel.y.toNat sel.z.toNat = false ∧ e = .index := by
  unfold checkView
  cases h : kindOfCode sel.kind with
  | none =>
    simp only [Except.error.injEq, true_and, reduceCtorEq, false_and, exists_false, or_false]
    exact eq_comm
  | some k =>
    cases ha : sel.all with
    | true => simp
    | false =>
      cases hc : coordsInRange k w sel.x.toNat sel.y.toNat sel.z.toNat with
      | true => simp [hc]
      | false =>
        simp only [hc, Bool.false_eq_true, if_false, Except.error.injEq, reduceCtorEq, false_and, Option.some.injEq,
          true_and, false_or]
        constructor
        · rintro rfl; exact ⟨k, rfl, hc, rfl⟩
        · rintro ⟨_, rfl, _, rfl⟩; rfl

/-- A KIND is reserved exactly when it is 6 or 7 (R62). -/
theorem kindOfCode_none_iff (k : BitVec 3) : kindOfCode k = none ↔ 6 ≤ k.toNat := by
  revert k; decide

/-! ## Whose turn it is -/

/-- The ENGINE moves exactly when BUSY = 1 and the schedule names it or is used up (R132). -/
theorem nextMove_engine_iff (s s' : State) :
    nextMove s = .engine s' ↔
      s.status.busy = true ∧
        ((s.sched = [] ∧ s' = s) ∨ ∃ rest, s.sched = .engine :: rest ∧ s' = { s with sched := rest }) := by
  unfold nextMove
  cases hs : s.sched with
  | nil =>
    by_cases hb : s.status.busy = true
    · simp [hb, eq_comm]
    · by_cases hh : s.host = [] <;> simp [hb, hh]
  | cons m rest =>
    cases m
    · simp
    · by_cases hb : s.status.busy = true
      · simp [hb, eq_comm]
      · simp [hb]
    · simp

/-- A step is one of four moves (R16, R132, R158, R159). -/
theorem step_cases (s t : State) (h : step s = .next t) :
    (∃ s' i, nextMove s = .engine s' ∧ fetch s' = .ok i ∧ exec i s' = .next t) ∨
      (∃ s' e, nextMove s = .engine s' ∧ fetch s' = .error e ∧ t = complete .illegal false s') ∨
      (∃ s', nextMove s = .host s' ∧ hostMove s' = .next t) ∨
      (∃ s', nextMove s = .reset s' ∧ t = resetEngine s') ∨ nextMove s = .idle t := by
  unfold step at h
  cases hm : nextMove s with
  | engine s' =>
    rw [hm] at h
    cases hf : fetch s' with
    | ok i => simp only [hf] at h; exact .inl ⟨s', i, rfl, hf, h⟩
    | error e =>
      simp only [hf, illegalCommand, commit_raised, Host.Outcome.next.injEq] at h
      exact .inr (.inl ⟨s', e, rfl, hf, h.symm⟩)
  | host s' => rw [hm] at h; exact .inr (.inr (.inl ⟨s', rfl, h⟩))
  | reset s' =>
    rw [hm] at h
    simp only [Host.Outcome.next.injEq] at h
    exact .inr (.inr (.inr (.inl ⟨s', rfl, h.symm⟩)))
  | idle s' =>
    rw [hm] at h
    simp only [Host.Outcome.next.injEq] at h
    exact .inr (.inr (.inr (.inr (by rw [h]))))

/-- The state a mover starts from differs from the one before only in its schedule. -/
theorem nextMove_state (s s' : State)
    (h : nextMove s = .engine s' ∨ nextMove s = .host s' ∨ nextMove s = .reset s' ∨ nextMove s = .idle s') :
    s' = { s with sched := s'.sched } := by
  unfold nextMove at h
  cases hs : s.sched with
  | nil =>
    rw [hs] at h
    by_cases hb : s.status.busy = true
    · simp only [hb, if_true, Move.engine.injEq, reduceCtorEq, or_false] at h
      subst h; rfl
    · by_cases hh : s.host = [] <;> simp [hb, hh] at h <;> subst h <;> rfl
  | cons m rest =>
    rw [hs] at h
    cases m
    · simp only [Move.host.injEq, reduceCtorEq, or_false, false_or] at h; subst h; rfl
    · by_cases hb : s.status.busy = true <;> simp [hb] at h <;> subst h <;> rfl
    · simp only [Move.reset.injEq, reduceCtorEq, or_false, false_or] at h; subst h; rfl

/-! ## The host port -/

/-- Bit `j` of a buffer word is bit `32k + j` of the buffer (R42). -/
theorem getLsbD_wordOfBits (f : Nat → Bool) (k j : Nat) (hj : j < 32) :
    (wordOfBits f k).getLsbD j = f (32 * k + j) := by
  simp only [wordOfBits, getLsbD_bitsToWord, getD_bitsOf, hj, decide_true, Bool.true_and]

/-- A read changes nothing but the draw counter (R47). -/
theorem readReg_state (r : Reg) (s : State) : ∃ n, (readReg r s).2 = s.drew n := by
  have h0 : s = s.drew 0 := rfl
  unfold readReg
  by_cases hb : s.status.busy = true
  · cases r <;> simp only [hb, if_true, readBusy] <;> first | exact ⟨0, h0⟩ | exact ⟨_, rfl⟩
  · cases r <;> simp only [hb, if_false, Bool.false_eq_true, readIdle] <;> first | exact ⟨0, h0⟩ | exact ⟨_, rfl⟩

/-- An aligned 32-bit access inside the window. -/
def Access.good (p : Params) (a : Access) : Bool := inWindow p a.addr && supported p a

/-- A host access answers a next state exactly when it is an aligned 32-bit access inside the window (R44, R45). -/
theorem performAccess_next_iff (a : Access) (s t : State) :
    performAccess a s = .next t ↔
      a.good s.params = true ∧
        t = match a.dir with
          | .read => respond (readReg (accessReg s.params a) s).1 (readReg (accessReg s.params a) s).2
          | .write v => writeReg (accessReg s.params a) v s := by
  unfold performAccess Access.good
  by_cases h1 : inWindow s.params a.addr = true
  · by_cases h2 : supported s.params a = true
    · cases a.dir <;> simp [h1, h2, eq_comm]
    · simp [h1, h2]
  · simp [h1]

/-- One move of the host, by what it has left to do. -/
theorem hostMove_cases (s t : State) (h : hostMove s = .next t) :
    (s.host = [] ∧ t = s) ∨
      (∃ a rest, s.host = .access a :: rest ∧ performAccess a { s with host := rest } = .next t) ∨
      ∃ rest, s.host = .wait :: rest ∧
        t = respond s.status.word (if s.status.busy then s else { s with host := rest }) := by
  unfold hostMove at h
  cases hs : s.host with
  | nil => rw [hs] at h; simp only [Host.Outcome.next.injEq] at h; exact .inl ⟨rfl, h.symm⟩
  | cons o rest =>
    rw [hs] at h
    cases o with
    | access a => exact .inr (.inl ⟨a, rest, rfl, h⟩)
    | wait =>
      refine .inr (.inr ⟨rest, rfl, ?_⟩)
      by_cases hb : s.status.busy = true <;> simp [hb] at h ⊢ <;> exact h.symm

end Sys2Proof.Machine
end

