-- ==== Sys2Proof/Laws/Commands.lean ====
section
/-!
SUPPORT. Laws/Commands.lean: every command as `commit` of one `RunResult` (45_control.md rule R132), so that a statement about
all commands is a statement about `commandRun`, and what a run can raise or stage.
-/
namespace Sys2Proof.Machine

/-- HASH_INIT in one match (R128). -/
theorem runHashInit_eq (v : Nat) (s : State) :
    runHashInit v s =
      match varTab s.params v with
      | none => .raised .config
      | some row => .done false { applyVariant row s with msglen := 0#32 } := by
  unfold runHashInit runSelectVariant
  cases varTab s.params v <;> rfl

/-- A variant code has a row exactly below 8 (R124, R126). -/
theorem varTab_none_iff (p : Params) (v : BitVec 8) : varTab p (operandA v) = none ↔ 8 ≤ v.toNat := by
  unfold varTab operandA
  split <;> simp_all <;> omega

/-- The `run` of a command (R132). -/
def commandRun (i : Instr) (s : State) : RunResult :=
  match i with
  | .nop => .done false s
  | .configure => runConfigure s
  | .clear => .done false { s with store := putState s.actcfg.b s.store 0#1600 }
  | .theta => runMapping (fun l S => theta (2 ^ l) S) s
  | .rho => runMapping (fun l S => rho (2 ^ l) S) s
  | .pi => runMapping (fun l S => pi (2 ^ l) S) s
  | .khi => runMapping (fun l S => khi (2 ^ l) S) s
  | .iota ir => runMapping (fun l S => iota l S (operandA ir)) s
  | .round ir => runMapping (fun l S => roundFn l S (operandA ir)) s
  | .permute => runMapping keccakF s
  | .absorbBlock => runAbsorbBlock s
  | .extractBlock =>
    .done false
      { s with
        viewbuf := ViewBuf.full (gather s.store.getLsbD s.actcfg.rate.toNat)
        vlen := s.actcfg.rate }
  | .process => runProcess s
  | .selectVariant v => runSelectVariant (operandA v) s
  | .hashInit v => runHashInit (operandA v) s
  | .hashUpdate n => runHashUpdate (operandA n) s
  | .viewGet sel => runViewGet sel s
  | .viewSet sel => runViewSet sel s
  | .viewXor sel => runViewXor sel s

/-- A command is its run, committed or discarded (R132). -/
theorem exec_eq_commit (i : Instr) (s : State) : exec i s = commit s (commandRun i s) := by cases i <;> rfl

/-- A run raises no NONE and no FORMAT (R140, R142). -/
theorem commandRun_raised (i : Instr) (s : State) (e : ErrCode) (h : commandRun i s = .raised e) :
    e ≠ .none ∧ e ≠ .format := by
  cases i <;> simp only [commandRun, runConfigure, runMapping, runAbsorbBlock, runProcess, runSelectVariant,
    runHashInit_eq, runHashUpdate, runViewGet, runViewSet, runViewXor] at h
  all_goals (try split at h) <;> (try split at h) <;> (try split at h) <;> (try split at h) <;> (try simp_all)
  all_goals try (
    rename_i hh
    rw [checkView_error_iff] at hh
    rcases hh with ⟨_, hh⟩ | ⟨_, _, _, _, hh⟩ <;> subst hh <;> subst h <;> simp)
  all_goals (subst h; simp)

/-- A run stages no change of STATUS: completion alone writes it (R133). -/
theorem commandRun_done_status (i : Instr) (s : State) (k : Bool) (u : State) (h : commandRun i s = .done k u) :
    u.status = s.status := by
  cases i <;> simp only [commandRun, runConfigure, runMapping, runAbsorbBlock, runProcess, runSelectVariant,
    runHashInit_eq, runHashUpdate, runViewGet, runViewSet, runViewXor] at h
  all_goals (try split at h) <;> (try split at h) <;> (try split at h) <;> (try split at h) <;> (try simp at h)
  all_goals (obtain ⟨_, rfl⟩ := h; rfl)

/-- A run is stuck only when ACTCFG is illegal (R149). -/
theorem commandRun_not_stuck (i : Instr) (s : State) (f : Fault) (h : commandRun i s = .stuck f) :
    s.actcfg.legal = false := by
  cases i <;> simp only [commandRun, runConfigure, runMapping, runAbsorbBlock, runProcess, runSelectVariant,
    runHashInit_eq, runHashUpdate, runViewGet, runViewSet, runViewXor] at h
  all_goals (try split at h) <;> (try split at h) <;> (try split at h) <;> (try split at h) <;> (try simp_all)

end Sys2Proof.Machine
end

