-- ==== Sys2Proof/Laws/Memory.lean ====
section
/-!
SUPPORT. Laws/Memory.lean: the buffers MSGBUF and OUTBUF: a read after a write, every operation keeps the canonical form, and
the bits that HASH_UPDATE, a host write and PROCESS leave (10_state.md rules R33, R34, R39).
-/
namespace Sys2Proof.Machine

/-! ## Cell lists -/

theorem cellsWf_cons (a : Nat) (b : Byte) (rest : List Host.Cell) :
    cellsWf ((a, b) :: rest) = true ↔ b ≠ 0#8 ∧ (∀ c ∈ rest, a < c.1) ∧ cellsWf rest = true := by
  simp [cellsWf, and_assoc]

/-- An address below every listed one holds 0. -/
theorem cellGet_of_below (m : List Host.Cell) (k : Nat) (h : ∀ c ∈ m, k < c.1) : cellGet m k = 0#8 := by
  induction m with
  | nil => rfl
  | cons c rest ih =>
    obtain ⟨a, b⟩ := c
    have h1 : k < a := h (a, b) (by simp)
    rw [cellGet, if_neg (by omega)]
    exact ih fun c hc => h c (by simp [hc])

/-- A read after a write: the written address gives the byte, every other address is unchanged. -/
theorem cellGet_cellSet (m : List Host.Cell) (hm : cellsWf m = true) (k : Nat) (v : Byte) (j : Nat) :
    cellGet (cellSet m k v) j = if j = k then v else cellGet m j := by
  induction m with
  | nil =>
    by_cases hv : v = 0#8 <;> by_cases hj : j = k
    · simp [cellSet, cellGet, hv]
    · simp [cellSet, cellGet, hv]
    · subst hj; simp [cellSet, cellGet, hv]
    · simp [cellSet, cellGet, hv, hj, Ne.symm hj]
  | cons c rest ih =>
    obtain ⟨a, b⟩ := c
    obtain ⟨hb, hlt, hrest⟩ := (cellsWf_cons a b rest).1 hm
    unfold cellSet
    by_cases h1 : k < a
    · have hk : cellGet ((a, b) :: rest) k = 0#8 :=
        cellGet_of_below _ _ (by rintro c (_ | ⟨_, hc⟩); exacts [h1, lt_trans h1 (hlt _ ‹_›)])
      by_cases hv : v = 0#8 <;> by_cases hj : j = k
      · subst hj; simp [h1, hv, hk]
      · simp [h1, hv, hj]
      · subst hj; simp [h1, hv, cellGet]
      · simp [h1, hv, hj, cellGet, Ne.symm hj]
    · by_cases h2 : k = a
      · subst h2
        have hk : cellGet rest k = 0#8 := cellGet_of_below _ _ hlt
        by_cases hv : v = 0#8 <;> by_cases hj : j = k
        · subst hj; simp [hv, hk]
        · simp [hv, hj, cellGet, Ne.symm hj]
        · subst hj; simp [hv, cellGet]
        · simp [hv, hj, cellGet, Ne.symm hj]
      · have ih' := ih hrest
        by_cases hja : a = j
        · subst hja; simp [h1, h2, cellGet, Ne.symm h2]
        · simp [h1, h2, cellGet, hja, ih']

/-- Every cell after a write is an old one or the written one. -/
theorem mem_cellSet (m : List Host.Cell) (k : Nat) (v : Byte) (c : Host.Cell) (h : c ∈ cellSet m k v) :
    c ∈ m ∨ (c = (k, v) ∧ v ≠ 0#8) := by
  induction m with
  | nil => by_cases hv : v = 0#8 <;> simp_all [cellSet]
  | cons d rest ih =>
    obtain ⟨a, b⟩ := d
    unfold cellSet at h
    split_ifs at h with h1 hv h2 hv2
    · exact .inl h
    · rcases List.mem_cons.1 h with rfl | h
      exacts [.inr ⟨rfl, hv⟩, .inl h]
    · exact .inl (List.mem_cons_of_mem _ h)
    · rcases List.mem_cons.1 h with rfl | h
      exacts [.inr ⟨rfl, hv2⟩, .inl (List.mem_cons_of_mem _ h)]
    · rcases List.mem_cons.1 h with rfl | h
      · exact .inl (by simp)
      · rcases ih h with h | h
        exacts [.inl (List.mem_cons_of_mem _ h), .inr h]

/-- A write keeps the canonical form of a cell list. -/
theorem cellsWf_cellSet (m : List Host.Cell) (hm : cellsWf m = true) (k : Nat) (v : Byte) :
    cellsWf (cellSet m k v) = true := by
  induction m with
  | nil => by_cases hv : v = 0#8 <;> simp [cellSet, hv, cellsWf]
  | cons c rest ih =>
    obtain ⟨a, b⟩ := c
    obtain ⟨hb, hlt, hrest⟩ := (cellsWf_cons a b rest).1 hm
    unfold cellSet
    split_ifs with h1 hv h2 hv2
    · exact hm
    · refine (cellsWf_cons _ _ _).2 ⟨hv, ?_, hm⟩
      rintro c (_ | ⟨_, hc⟩)
      exacts [h1, lt_trans h1 (hlt _ ‹_›)]
    · exact hrest
    · exact (cellsWf_cons _ _ _).2 ⟨hv2, h2 ▸ hlt, hrest⟩
    · refine (cellsWf_cons _ _ _).2 ⟨hb, fun c hc => ?_, ih hrest⟩
      rcases mem_cellSet _ _ _ _ hc with h | ⟨rfl, _⟩
      exacts [hlt _ h, by omega]

/-- In canonical form each listed cell is what a read gives. -/
theorem cellGet_of_mem (m : List Host.Cell) (hm : cellsWf m = true) (c : Host.Cell) (h : c ∈ m) :
    cellGet m c.1 = c.2 := by
  induction m with
  | nil => simp at h
  | cons d rest ih =>
    obtain ⟨a, b⟩ := d
    obtain ⟨hb, hlt, hrest⟩ := (cellsWf_cons a b rest).1 hm
    rcases List.mem_cons.1 h with rfl | h
    · simp [cellGet]
    · have := hlt c h
      rw [cellGet, if_neg (by omega), ih hrest h]

/-- A read that is not 0 is of a listed cell. -/
theorem mem_of_cellGet (m : List Host.Cell) (k : Nat) (h : cellGet m k ≠ 0#8) : (k, cellGet m k) ∈ m := by
  induction m with
  | nil => simp [cellGet] at h
  | cons d rest ih =>
    obtain ⟨a, b⟩ := d
    by_cases hk : a = k
    · subst hk; simp [cellGet]
    · rw [cellGet, if_neg hk] at h ⊢
      exact List.mem_cons_of_mem _ (ih h)

/-- Two canonical cell lists that read alike are equal. -/
theorem cells_ext (m n : List Host.Cell) (hm : cellsWf m = true) (hn : cellsWf n = true)
    (h : ∀ k, cellGet m k = cellGet n k) : m = n := by
  induction m generalizing n with
  | nil =>
    cases n with
    | nil => rfl
    | cons d rest =>
      obtain ⟨a, b⟩ := d
      have h0 := h a
      simp only [cellGet, if_true] at h0
      exact absurd h0.symm ((cellsWf_cons a b rest).1 hn).1
  | cons c rest ih =>
    obtain ⟨a, b⟩ := c
    obtain ⟨hb, hlt, hrest⟩ := (cellsWf_cons a b rest).1 hm
    cases n with
    | nil =>
      have h0 := h a
      simp only [cellGet, if_true] at h0
      exact absurd h0 hb
    | cons d rest' =>
      obtain ⟨a', b'⟩ := d
      obtain ⟨hb', hlt', hrest'⟩ := (cellsWf_cons a' b' rest').1 hn
      have ha : a = a' := by
        rcases lt_trichotomy a a' with hlt2 | heq | hlt2
        · have h0 := h a
          have : cellGet ((a', b') :: rest') a = 0#8 :=
            cellGet_of_below _ _ (by rintro c (_ | ⟨_, hc⟩); exacts [hlt2, lt_trans hlt2 (hlt' _ ‹_›)])
          rw [this] at h0
          simp only [cellGet, if_true] at h0
          exact absurd h0 hb
        · exact heq
        · have h0 := h a'
          have : cellGet ((a, b) :: rest) a' = 0#8 :=
            cellGet_of_below _ _ (by rintro c (_ | ⟨_, hc⟩); exacts [hlt2, lt_trans hlt2 (hlt _ ‹_›)])
          rw [this] at h0
          simp only [cellGet, if_true] at h0
          exact absurd h0.symm hb'
      subst ha
      have hbb : b = b' := by simpa [cellGet] using h a
      subst hbb
      have hr : rest = rest' := ih rest' hrest hrest' fun k => by
        by_cases hk : a = k
        · subst hk
          rw [cellGet_of_below _ _ hlt, cellGet_of_below _ _ hlt']
        · simpa [cellGet, hk] using h k
      rw [hr]

/-! ## `cellsFrom` -/

theorem le_of_mem_cellsFrom (a : Nat) (bytes : List Byte) (c : Host.Cell) (h : c ∈ cellsFrom a bytes) :
    a ≤ c.1 ∧ c.1 < a + bytes.length := by
  induction bytes generalizing a with
  | nil => simp [cellsFrom] at h
  | cons b bytes ih =>
    unfold cellsFrom at h
    simp only [List.length_cons]
    split_ifs at h
    · have := ih _ h; omega
    · rcases List.mem_cons.1 h with rfl | h
      · simp
      · have := ih _ h; omega

theorem cellsWf_cellsFrom (a : Nat) (bytes : List Byte) : cellsWf (cellsFrom a bytes) = true := by
  induction bytes generalizing a with
  | nil => rfl
  | cons b bytes ih =>
    unfold cellsFrom
    split_ifs with hb
    · exact ih _
    · exact (cellsWf_cons _ _ _).2 ⟨hb, fun c hc => (le_of_mem_cellsFrom _ _ _ hc).1, ih _⟩

theorem cellGet_cellsFrom (a : Nat) (bytes : List Byte) (k : Nat) :
    cellGet (cellsFrom a bytes) (a + k) = bytes.getD k 0#8 := by
  induction bytes generalizing a k with
  | nil => simp [cellsFrom, cellGet]
  | cons b bytes ih =>
    have below : cellGet (cellsFrom (a + 1) bytes) a = 0#8 :=
      cellGet_of_below _ _ fun c hc => (le_of_mem_cellsFrom _ _ _ hc).1
    cases k with
    | zero =>
      unfold cellsFrom
      split_ifs with hb
      · rw [Nat.add_zero a, below, List.getD_cons_zero, hb]
      · simp [cellGet]
    | succ k =>
      have e : a + (k + 1) = a + 1 + k := by omega
      unfold cellsFrom
      split_ifs with hb
      · rw [e, ih, List.getD_cons_succ]
      · rw [cellGet, if_neg (by omega), e, ih, List.getD_cons_succ]

/-! ## The canonical form of a buffer -/

/-- The canonical form, said by reads. -/
theorem Memory.wf_iff (m : Memory) :
    m.wf = true ↔ cellsWf m.cells = true ∧ cellsWf m.written = true ∧
      ∀ a, cellGet m.cells a &&& ~~~(cellGet m.written a) = 0#8 := by
  simp only [Memory.wf, Bool.and_eq_true, List.all_eq_true, beq_iff_eq, and_assoc]
  refine and_congr_right fun h1 => and_congr_right fun _ => ⟨fun h a => ?_, fun h c hc => ?_⟩
  · by_cases h0 : cellGet m.cells a = 0#8
    · simp [h0]
    · exact h _ (mem_of_cellGet _ _ h0)
  · rw [← cellGet_of_mem _ h1 c hc]; exact h c.1

theorem Memory.below_iff (m : Memory) (n : Nat) :
    m.below n = true ↔ (∀ c ∈ m.cells, c.1 < n) ∧ ∀ c ∈ m.written, c.1 < n := by
  simp [Memory.below]

theorem Memory.wf_empty : Memory.empty.wf = true := by decide

theorem Memory.below_empty (n : Nat) : Memory.empty.below n = true := by simp [Memory.below, Memory.empty]

/-- Every masked byte write keeps the canonical form. -/
theorem Memory.wf_writeMasked (m : Memory) (hm : m.wf = true) (a : Nat) (v mask : Byte) :
    (m.writeMasked a v mask).wf = true := by
  obtain ⟨h1, h2, h3⟩ := m.wf_iff.1 hm
  refine (Memory.wf_iff _).2 ⟨cellsWf_cellSet _ h1 _ _, cellsWf_cellSet _ h2 _ _, fun k => ?_⟩
  simp only [Memory.writeMasked, cellGet_cellSet _ h1, cellGet_cellSet _ h2]
  by_cases hk : k = a
  · subst hk
    simp only [if_true]
    have h := h3 k
    apply BitVec.eq_of_getLsbD_eq
    intro i hi
    have hb : ((cellGet m.cells k &&& ~~~(cellGet m.written k)).getLsbD i) = (0#8).getLsbD i := by rw [h]
    simp only [BitVec.getLsbD_and, BitVec.getLsbD_or, BitVec.getLsbD_not, hi, decide_true, Bool.true_and,
      BitVec.getLsbD_zero] at hb ⊢
    revert hb
    cases (cellGet m.cells k).getLsbD i <;> cases (cellGet m.written k).getLsbD i <;> cases v.getLsbD i <;>
      cases mask.getLsbD i <;> decide
  · simp only [hk, if_false, h3]

theorem Memory.below_writeMasked (m : Memory) (n : Nat) (hm : m.below n = true) (a : Nat) (ha : a < n) (v mask : Byte) :
    (m.writeMasked a v mask).below n = true := by
  obtain ⟨h1, h2⟩ := (m.below_iff n).1 hm
  refine (Memory.below_iff _ _).2 ⟨fun c hc => ?_, fun c hc => ?_⟩ <;>
    rcases mem_cellSet _ _ _ _ hc with h | ⟨rfl, _⟩
  exacts [h1 c h, ha, h2 c h, ha]

theorem Memory.wf_writeBit (m : Memory) (hm : m.wf = true) (i : Nat) (v : Bool) : (m.writeBit i v).wf = true :=
  Memory.wf_writeMasked _ hm _ _ _

/-- HASH_UPDATE's write keeps the canonical form. -/
theorem Memory.wf_writeBits (m : Memory) (hm : m.wf = true) (i : Nat) (v : Bits) : (m.writeBits i v).wf = true := by
  induction v generalizing m i with
  | nil => exact hm
  | cons b v ih => exact ih _ (Memory.wf_writeBit _ hm _ _) _

theorem Memory.below_writeBits (m : Memory) (n : Nat) (hm : m.below n = true) (i : Nat) (v : Bits)
    (h : i + v.length ≤ 8 * n) : (m.writeBits i v).below n = true := by
  induction v generalizing m i with
  | nil => exact hm
  | cons b v ih =>
    simp only [List.length_cons] at h
    exact ih _ (Memory.below_writeMasked _ _ hm _ (by omega) _ _) _ (by omega)

/-- A host write keeps the canonical form. -/
theorem Memory.wf_writeWord (m : Memory) (hm : m.wf = true) (a : Nat) (v : Word) : (m.writeWord a v).wf = true :=
  Memory.wf_writeMasked _ (Memory.wf_writeMasked _ (Memory.wf_writeMasked _ (Memory.wf_writeMasked _ hm _ _ _) _ _ _)
    _ _ _) _ _ _

theorem Memory.below_writeWord (m : Memory) (n : Nat) (hm : m.below n = true) (a : Nat) (ha : a + 3 < n) (v : Word) :
    (m.writeWord a v).below n = true :=
  Memory.below_writeMasked _ _ (Memory.below_writeMasked _ _ (Memory.below_writeMasked _ _
    (Memory.below_writeMasked _ _ hm _ (by omega) _ _) _ (by omega) _ _) _ (by omega) _ _) _ (by omega) _ _

theorem getD_map_ones (bytes : List Byte) (k : Nat) :
    (bytes.map fun _ => 0xFF#8).getD k 0#8 = if k < bytes.length then 0xFF#8 else 0#8 := by
  by_cases h : k < bytes.length <;> simp [List.getD_eq_getElem?_getD, h]

/-- PROCESS's write of a whole buffer is in canonical form. -/
theorem Memory.wf_full (bytes : List Byte) : (Memory.full bytes).wf = true := by
  refine (Memory.wf_iff _).2 ⟨cellsWf_cellsFrom _ _, cellsWf_cellsFrom _ _, fun a => ?_⟩
  have h1 := cellGet_cellsFrom 0 bytes a
  have h2 := cellGet_cellsFrom 0 (bytes.map fun _ => 0xFF#8) a
  rw [Nat.zero_add] at h1 h2
  simp only [Memory.full, h1, h2, getD_map_ones]
  by_cases h : a < bytes.length
  · simp [h]
  · simp [h, List.getD_eq_getElem?_getD]

theorem Memory.below_full (bytes : List Byte) : (Memory.full bytes).below bytes.length = true := by
  refine (Memory.below_iff _ _).2 ⟨fun c hc => ?_, fun c hc => ?_⟩
  · have := le_of_mem_cellsFrom _ _ _ hc; omega
  · have := le_of_mem_cellsFrom _ _ _ hc
    simp only [List.length_map] at this
    omega

/-! ## Bits of a buffer -/

theorem Memory.read_eq (m : Memory) (free : Nat → Bool) (i : Nat) :
    m.read free i = if m.isWritten i then m.storedBit i else free i := rfl

/-- A written bit is read as it stands, whatever the draws (R39). -/
theorem Memory.read_of_written (m : Memory) (free : Nat → Bool) (i : Nat) (h : m.isWritten i = true) :
    m.read free i = m.storedBit i := by
  simp [Memory.read_eq, h]

theorem byte_bit_eq (i j : Nat) : (j / 8 = i / 8 ∧ j % 8 = i % 8) ↔ j = i := by omega

theorem getLsbD_one_shl_byte (i j : Nat) (hi : i < 8) (hj : j < 8) : ((1#8) <<< i).getLsbD j = decide (j = i) := by
  interval_cases i <;> interval_cases j <;> decide

/-- The bits after one bit write: that bit is written and holds the value, every other bit is as before. -/
theorem Memory.bits_writeBit (m : Memory) (hm : m.wf = true) (i : Nat) (v : Bool) (j : Nat) :
    (m.writeBit i v).isWritten j = (decide (j = i) || m.isWritten j) ∧
      (m.writeBit i v).storedBit j = if j = i then v else m.storedBit j := by
  obtain ⟨h1, h2, -⟩ := m.wf_iff.1 hm
  have hj8 : j % 8 < 8 := Nat.mod_lt _ (by omega)
  have hi8 : i % 8 < 8 := Nat.mod_lt _ (by omega)
  have hb := byte_bit_eq i j
  simp only [Memory.isWritten, Memory.storedBit, Memory.writeBit, Memory.writeMasked, cellGet_cellSet _ h1,
    cellGet_cellSet _ h2]
  by_cases hbyte : j / 8 = i / 8
  · simp only [hbyte, if_true, BitVec.getLsbD_or, BitVec.getLsbD_and, BitVec.getLsbD_not,
      getLsbD_one_shl_byte _ _ hi8 hj8, hj8, decide_true, Bool.true_and]
    by_cases hbit : j % 8 = i % 8
    · have hji : j = i := hb.1 ⟨hbyte, hbit⟩
      subst hji
      cases v
      · simp
      · simp [hj8]
    · have hji : j ≠ i := fun h => hbit (by rw [h])
      cases v <;> simp [hbit, hji]
  · have hji : j ≠ i := fun h => hbyte (by rw [h])
    simp [hbyte, hji]

/-- The bits after a run of bit writes (R129): the run's own positions hold its bits, every other bit is as before. -/
theorem Memory.bits_writeBits (m : Memory) (hm : m.wf = true) (i : Nat) (v : Bits) (j : Nat) :
    (m.writeBits i v).isWritten j = ((decide (i ≤ j) && decide (j < i + v.length)) || m.isWritten j) ∧
      (m.writeBits i v).storedBit j =
        if i ≤ j ∧ j < i + v.length then v.getD (j - i) false else m.storedBit j := by
  induction v generalizing m i with
  | nil =>
    have hf : ¬(i ≤ j ∧ j < i) := by omega
    have hf' : (decide (i ≤ j) && decide (j < i)) = false := by simp
    simp [Memory.writeBits, hf, hf']
  | cons b v ih =>
    obtain ⟨ih1, ih2⟩ := ih _ (Memory.wf_writeBit m hm i b) (i + 1)
    obtain ⟨b1, b2⟩ := Memory.bits_writeBit m hm i b j
    simp only [Memory.writeBits, ih1, ih2, b1, b2, List.length_cons]
    by_cases hji : j = i
    · subst hji
      simp
    · by_cases hin : i + 1 ≤ j ∧ j < i + 1 + v.length
      · have hin' : i ≤ j ∧ j < i + (v.length + 1) := by omega
        have e : j - i = (j - (i + 1)) + 1 := by omega
        simp only [hin, hin', and_self, if_true, decide_true, Bool.true_and, Bool.true_or, true_and]
        rw [e, List.getD_cons_succ]
      · have hin' : ¬(i ≤ j ∧ j < i + (v.length + 1)) := by omega
        have d1 : (decide (i + 1 ≤ j) && decide (j < i + 1 + v.length)) = false := by simpa using hin
        have d2 : (decide (i ≤ j) && decide (j < i + (v.length + 1))) = false := by simpa using hin'
        simp only [hin, hin', hji, d1, d2, decide_false, Bool.false_or, if_false, and_self]

theorem getLsbD_ones_byte (i : Nat) (hi : i < 8) : (0xFF#8).getLsbD i = true := by interval_cases i <;> decide

/-- The bits after a whole byte is written. -/
theorem Memory.bits_writeByte (m : Memory) (hm : m.wf = true) (a : Nat) (v : Byte) (j : Nat) :
    (m.writeMasked a v 0xFF#8).isWritten j = (decide (j / 8 = a) || m.isWritten j) ∧
      (m.writeMasked a v 0xFF#8).storedBit j = if j / 8 = a then v.getLsbD (j % 8) else m.storedBit j := by
  obtain ⟨h1, h2, -⟩ := m.wf_iff.1 hm
  have hj8 : j % 8 < 8 := Nat.mod_lt _ (by omega)
  simp only [Memory.isWritten, Memory.storedBit, Memory.writeMasked, cellGet_cellSet _ h1, cellGet_cellSet _ h2]
  by_cases h : j / 8 = a
  · simp only [h, if_true, BitVec.getLsbD_or, BitVec.getLsbD_and, BitVec.getLsbD_not, getLsbD_ones_byte _ hj8, hj8]
    simp
  · simp [h]

/-- The bits after a host write of the word at byte offset `a` (R42). -/
theorem Memory.bits_writeWord (m : Memory) (hm : m.wf = true) (a : Nat) (v : Word) (j : Nat) :
    (m.writeWord a v).isWritten j = ((decide (8 * a ≤ j) && decide (j < 8 * a + 32)) || m.isWritten j) ∧
      (m.writeWord a v).storedBit j = if 8 * a ≤ j ∧ j < 8 * a + 32 then v.getLsbD (j - 8 * a) else m.storedBit j := by
  have h1 := Memory.wf_writeMasked m hm a (v.extractLsb' 0 8) 0xFF#8
  have h2 := Memory.wf_writeMasked _ h1 (a + 1) (v.extractLsb' 8 8) 0xFF#8
  have h3 := Memory.wf_writeMasked _ h2 (a + 2) (v.extractLsb' 16 8) 0xFF#8
  obtain ⟨w0, s0⟩ := Memory.bits_writeByte m hm a (v.extractLsb' 0 8) j
  obtain ⟨w1, s1⟩ := Memory.bits_writeByte _ h1 (a + 1) (v.extractLsb' 8 8) j
  obtain ⟨w2, s2⟩ := Memory.bits_writeByte _ h2 (a + 2) (v.extractLsb' 16 8) j
  obtain ⟨w3, s3⟩ := Memory.bits_writeByte _ h3 (a + 3) (v.extractLsb' 24 8) j
  have hj8 : j % 8 < 8 := Nat.mod_lt _ (by omega)
  simp only [Memory.writeWord, w3, s3, w2, s2, w1, s1, w0, s0, BitVec.getLsbD_extractLsb', hj8, decide_true,
    Bool.true_and]
  by_cases hin : 8 * a ≤ j ∧ j < 8 * a + 32
  · have hc : j / 8 = a ∨ j / 8 = a + 1 ∨ j / 8 = a + 2 ∨ j / 8 = a + 3 := by omega
    rcases hc with h | h | h | h
    · have e : 0 + j % 8 = j - 8 * a := by omega
      simp [h, hin, ← e]
    · have e : 8 + j % 8 = j - 8 * a := by omega
      simp [h, hin, ← e]
    · have e : 16 + j % 8 = j - 8 * a := by omega
      simp [h, hin, ← e]
    · have e : 24 + j % 8 = j - 8 * a := by omega
      simp [h, hin, ← e]
  · have n0 : ¬j / 8 = a := by omega
    have n1 : ¬j / 8 = a + 1 := by omega
    have n2 : ¬j / 8 = a + 2 := by omega
    have n3 : ¬j / 8 = a + 3 := by omega
    have hd : (decide (8 * a ≤ j) && decide (j < 8 * a + 32)) = false := by simpa using hin
    simp [n0, n1, n2, n3, hin, hd]

/-- The bits of a buffer written in full (R120). -/
theorem Memory.bits_full (bytes : List Byte) (j : Nat) :
    (Memory.full bytes).isWritten j = decide (j < 8 * bytes.length) ∧
      (Memory.full bytes).storedBit j = (bytes.getD (j / 8) 0#8).getLsbD (j % 8) := by
  have h1 := cellGet_cellsFrom 0 bytes (j / 8)
  have h2 := cellGet_cellsFrom 0 (bytes.map fun _ => 0xFF#8) (j / 8)
  rw [Nat.zero_add] at h1 h2
  have hj8 : j % 8 < 8 := Nat.mod_lt _ (by omega)
  have ones := getLsbD_ones_byte _ hj8
  simp only [Memory.isWritten, Memory.storedBit, Memory.full, h1, h2, getD_map_ones, and_true]
  by_cases h : j / 8 < bytes.length
  · have : j < 8 * bytes.length := by omega
    simp only [h, if_true, ones, this, decide_true]
  · have : ¬j < 8 * bytes.length := by omega
    simp [h, this]

end Sys2Proof.Machine
end

