-- ==== Sys2Proof/Laws/PerInstr.lean ====
section
/-!
SUPPORT. Laws/PerInstr.lean: one family of statements, proved per constructor: the fixed bits of every encoding are the
opcode and zeros (30_encoding.md rules R59, R60, R63).
-/
namespace Sys2Proof.Laws.FixedBits

/-- OP of a command (R63). -/
def opcode : Instr → BitVec 8
  | .nop => 0x00#8
  | .configure => 0x01#8
  | .clear => 0x02#8
  | .theta => 0x03#8
  | .rho => 0x04#8
  | .pi => 0x05#8
  | .khi => 0x06#8
  | .iota _ => 0x07#8
  | .round _ => 0x08#8
  | .permute => 0x09#8
  | .absorbBlock => 0x0A#8
  | .extractBlock => 0x0B#8
  | .process => 0x0C#8
  | .selectVariant _ => 0x0D#8
  | .hashInit _ => 0x0E#8
  | .hashUpdate _ => 0x0F#8
  | .viewGet _ => 0x10#8
  | .viewSet _ => 0x11#8
  | .viewXor _ => 0x12#8

/-- The mask of a command's row: its fixed bits (R63). -/
def fixedMask : Instr → Word
  | .iota _ | .round _ | .selectVariant _ | .hashInit _ | .hashUpdate _ => maskA
  | .viewGet _ | .viewSet _ | .viewXor _ => maskV
  | _ => maskN

/-- The word of a command carries its opcode, and every other fixed bit of its row is 0. -/
def Statement (i : Instr) : Prop :=
  opField (encode i) = opcode i ∧ encode i &&& fixedMask i = (opcode i).setWidth 32

/-- The fixed bits of a Format A word. -/
theorem formatA_fixed (op a : BitVec 8) :
    opField (encodeA op a) = op ∧ encodeA op a &&& maskA = op.setWidth 32 := by
  have bit8 : ∀ j : Nat, maskA.getLsbD j = (decide (j < 8) || (decide (16 ≤ j) && decide (j < 32))) := by
    intro j
    by_cases h : j < 32
    · interval_cases j <;> decide
    · rw [BitVec.getLsbD_of_ge _ _ (by omega)]
      simp; omega
  constructor
  · apply BitVec.eq_of_getLsbD_eq
    intro j hj
    simp only [opField, encodeA, BitVec.getLsbD_extractLsb', BitVec.getLsbD_or, BitVec.getLsbD_setWidth,
      BitVec.getLsbD_shiftLeft]
    have h1 : j < 32 := by omega
    simp [hj, h1]
  · apply BitVec.eq_of_getLsbD_eq
    intro j hj
    simp only [encodeA, BitVec.getLsbD_and, BitVec.getLsbD_or, BitVec.getLsbD_setWidth, BitVec.getLsbD_shiftLeft,
      bit8]
    by_cases h8 : j < 8
    · simp [hj, h8]
    · have ho : op.getLsbD j = false := BitVec.getLsbD_of_ge _ _ (by omega)
      by_cases h16 : 16 ≤ j
      · have ha : a.getLsbD (j - 8) = false := BitVec.getLsbD_of_ge _ _ (by omega)
        simp [hj, ho, ha]
      · simp [h8, h16, ho]

/-- The fixed bits of a Format V word. -/
theorem formatV_fixed (op : BitVec 8) (sel : ViewSel) :
    opField (encodeV op sel) = op ∧ encodeV op sel &&& maskV = op.setWidth 32 := by
  constructor
  · apply BitVec.eq_of_getLsbD_eq
    intro j hj
    interval_cases j <;> simp [opField, encodeV]
  · apply BitVec.eq_of_getLsbD_eq
    intro j hj
    interval_cases j <;> simp [encodeV, maskV]

theorem nop : Statement .nop := ⟨by decide, by decide⟩
theorem configure : Statement .configure := ⟨by decide, by decide⟩
theorem clear : Statement .clear := ⟨by decide, by decide⟩
theorem theta : Statement .theta := ⟨by decide, by decide⟩
theorem rho : Statement .rho := ⟨by decide, by decide⟩
theorem pi : Statement .pi := ⟨by decide, by decide⟩
theorem khi : Statement .khi := ⟨by decide, by decide⟩
theorem iota (ir : BitVec 8) : Statement (.iota ir) := formatA_fixed _ _
theorem round (ir : BitVec 8) : Statement (.round ir) := formatA_fixed _ _
theorem permute : Statement .permute := ⟨by decide, by decide⟩
theorem absorbBlock : Statement .absorbBlock := ⟨by decide, by decide⟩
theorem extractBlock : Statement .extractBlock := ⟨by decide, by decide⟩
theorem process : Statement .process := ⟨by decide, by decide⟩
theorem selectVariant (v : BitVec 8) : Statement (.selectVariant v) := formatA_fixed _ _
theorem hashInit (v : BitVec 8) : Statement (.hashInit v) := formatA_fixed _ _
theorem hashUpdate (n : BitVec 8) : Statement (.hashUpdate n) := formatA_fixed _ _
theorem viewGet (sel : ViewSel) : Statement (.viewGet sel) := formatV_fixed _ _
theorem viewSet (sel : ViewSel) : Statement (.viewSet sel) := formatV_fixed _ _
theorem viewXor (sel : ViewSel) : Statement (.viewXor sel) := formatV_fixed _ _

end Sys2Proof.Laws.FixedBits
end

