-- ==== Sys2Proof/Laws/Permutation.lean ====
section
/-!
SUPPORT. Laws/Permutation.lean: the bits of lanes, of a state built from lanes and of a rotation, and the two tables of
Machine/Permutation.lean against the rules that define them (42_round_function.md rules R97, R98, R101, R102).
-/
namespace Sys2Proof.Machine

theorem getLsbD_laneMask (w z : Nat) : (laneMask w).getLsbD z = (decide (z < 64) && decide (z < w)) := by
  rw [laneMask, BitVec.getLsbD_ofNat, Nat.testBit_two_pow_sub_one]

/-- Bit `z` of `Lane(x,y)` is `A[x,y,z]` (R17). -/
theorem getLsbD_laneOf (w : Nat) (S : Store) (x y z : Nat) :
    (laneOf w S x y).getLsbD z = (decide (z < 64) && decide (z < w) && cubeBit w S x y z) := by
  rw [laneOf, BitVec.getLsbD_and, BitVec.getLsbD_extractLsb', getLsbD_laneMask, cubeBit, flatIdx, flatIdx, Nat.add_zero]
  cases decide (z < 64) <;> cases decide (z < w) <;> simp

/-- A lane has no bit at `w` or above. -/
theorem laneOf_bit_ge (w : Nat) (S : Store) (x y z : Nat) (h : w ≤ z) : (laneOf w S x y).getLsbD z = false := by
  rw [getLsbD_laneOf]; simp; omega

theorem getLsbD_lanesUpTo (w : Nat) (hw : 0 < w) (hw64 : w ≤ 64) (f : Nat → Nat → Lane) (n : Nat) (hn : w * n ≤ 1600)
    (i : Nat) :
    (lanesUpTo w f n).getLsbD i = (decide (i < w * n) && (f (i / w % 5) (i / w / 5)).getLsbD (i % w)) := by
  induction n with
  | zero => simp [lanesUpTo]
  | succ n ih =>
    have hs : w * (n + 1) = w * n + w := Nat.mul_succ w n
    have hmod : i % w < w := Nat.mod_lt _ hw
    rw [lanesUpTo, BitVec.getLsbD_or, ih (by omega), BitVec.getLsbD_shiftLeft, BitVec.getLsbD_setWidth,
      BitVec.getLsbD_and, getLsbD_laneMask]
    by_cases h1 : i < w * n
    · simp [h1, show i < w * (n + 1) by omega]
    · by_cases h2 : i < w * (n + 1)
      · have hdiv : i / w = n := by
          rw [Nat.div_eq_iff hw, Nat.mul_comm n w]; omega
        have hrem : i % w = i - w * n := by
          have := Nat.div_add_mod i w
          rw [hdiv] at this; omega
        have hi : i < 1600 := by omega
        have h3 : i - w * n < 64 := by omega
        have h4 : i - w * n < w := by omega
        have h5 : i - w * n < 1600 := by omega
        simp only [h1, h2, hdiv, hrem, hi, h3, h4, h5]
        simp
      · have h4 : ¬i - w * n < w := by omega
        simp [h1, h2, h4]

/-- The bits of a state built from its lanes (R17, R84, R85). -/
theorem getLsbD_ofLanes (w : Nat) (hw : 0 < w) (hw64 : w ≤ 64) (f : Nat → Nat → Lane) (i : Nat) :
    (ofLanes w f).getLsbD i = (decide (i < 25 * w) && (f (i / w % 5) (i / w / 5)).getLsbD (i % w)) := by
  rw [ofLanes, getLsbD_lanesUpTo w hw hw64 f 25 (by omega), Nat.mul_comm w 25]

theorem flatIdx_lt (w x y z : Nat) (hx : x < 5) (hy : y < 5) (hz : z < w) : flatIdx w x y z < 25 * w := by
  have : 5 * y + x + 1 ≤ 25 := by omega
  have h := Nat.mul_le_mul_left w this
  rw [Nat.mul_succ] at h
  unfold flatIdx
  omega

/-- The coordinates of a flat index, back (R85). -/
theorem flatIdx_coords (w x y z : Nat) (hx : x < 5) (hz : z < w) :
    flatIdx w x y z / w % 5 = x ∧ flatIdx w x y z / w / 5 = y ∧ flatIdx w x y z % w = z := by
  have hw : 0 < w := by omega
  have hdiv : flatIdx w x y z / w = 5 * y + x := by
    unfold flatIdx
    rw [Nat.mul_add_div hw, Nat.div_eq_of_lt hz, Nat.add_zero]
  have hmod : flatIdx w x y z % w = z := by
    unfold flatIdx
    rw [Nat.mul_add_mod, Nat.mod_eq_of_lt hz]
  refine ⟨?_, ?_, hmod⟩ <;> rw [hdiv] <;> omega

/-- `A[x,y,z]` of a state built from its lanes. -/
theorem cubeBit_ofLanes (w : Nat) (hw64 : w ≤ 64) (f : Nat → Nat → Lane) (x y z : Nat) (hx : x < 5) (hy : y < 5)
    (hz : z < w) : cubeBit w (ofLanes w f) x y z = (f x y).getLsbD z := by
  obtain ⟨h1, h2, h3⟩ := flatIdx_coords w x y z hx hz
  rw [cubeBit, getLsbD_ofLanes w (by omega) hw64, h1, h2, h3]
  simp [flatIdx_lt w x y z hx hy hz]

/-- `ROT_w(v, u)[z] = v[(z - u) mod w]` (R13), for a lane with no bit at `w` or above. -/
theorem getLsbD_rotLane (w : Nat) (hw64 : w ≤ 64) (v : Lane) (hv : ∀ z, w ≤ z → v.getLsbD z = false) (u : Nat)
    (hu : u < w) (z : Nat) (hz : z < w) : (rotLane w v u).getLsbD z = v.getLsbD ((z + (w - u)) % w) := by
  have hz64 : z < 64 := by omega
  rw [rotLane, BitVec.getLsbD_and, BitVec.getLsbD_or, BitVec.getLsbD_shiftLeft, BitVec.getLsbD_ushiftRight,
    getLsbD_laneMask]
  by_cases h : z < u
  · have e : (z + (w - u)) % w = w - u + z := by rw [Nat.mod_eq_of_lt (by omega)]; omega
    simp [h, hz, hz64, e]
  · have e : (z + (w - u)) % w = z - u := by
      rw [show z + (w - u) = (z - u) + w by omega, Nat.add_mod_right, Nat.mod_eq_of_lt (by omega)]
    rw [e, hv (w - u + z) (by omega)]
    simp [h, hz, hz64]

/-- The table of R98 is what the walk of R97 gives. -/
theorem rhoOffset_eq_walk : ∀ x < 5, ∀ y < 5, rhoOffset x y = rhoOffsetBelow x y 24 := by decide

/-- The ROM holds what the LFSR of R101 gives. -/
theorem rcTab_eq_lfsr : ∀ t < 255, rcTab.getLsbD t = (lfsr t).getLsbD 0 := by decide +kernel

end Sys2Proof.Machine
end

