-- ==== Sys2Proof/Laws/Views.lean ====
section
/-!
SUPPORT. Laws/Views.lean: the view operands of the commands and the words claims use for them are the same (41_cube_views.md
rules R86, R87, R89).
-/
namespace Sys2Proof.Machine

/-- The six kinds and their codes (R62). -/
theorem kindOfCode_cases (k : BitVec 3) (kind : ViewKind) (h : kindOfCode k = some kind) :
    (kind = .lane ∧ k.toNat = 0) ∨ (kind = .plane ∧ k.toNat = 1) ∨ (kind = .sheet ∧ k.toNat = 2) ∨
      (kind = .row ∧ k.toNat = 3) ∨ (kind = .column ∧ k.toNat = 4) ∨ (kind = .slice ∧ k.toNat = 5) := by
  revert k
  cases kind <;> decide

theorem kindOfCode_some_iff (k : BitVec 3) : (∃ kind, kindOfCode k = some kind) ↔ k.toNat ≤ 5 := by
  have := kindOfCode_none_iff k
  cases h : kindOfCode k with
  | none => rw [h] at this; simp at this; simp; omega
  | some q => rw [h] at this; simp at this; simp; omega

/-- A used coordinate is out of range exactly when the range check fails (R89). -/
theorem coordOutOfRange_eq (w : Nat) (sel : ViewSel) (kind : ViewKind) (hk : kindOfCode sel.kind = some kind) :
    coordOutOfRange w sel = !coordsInRange kind w sel.x.toNat sel.y.toNat sel.z.toNat := by
  have neg : ∀ a b : Nat, decide (a ≤ b) = !decide (b < a) := by
    intro a b
    by_cases h : b < a <;> simp [h] <;> omega
  rcases kindOfCode_cases _ _ hk with ⟨rfl, h⟩ | ⟨rfl, h⟩ | ⟨rfl, h⟩ | ⟨rfl, h⟩ | ⟨rfl, h⟩ | ⟨rfl, h⟩ <;>
    simp [coordOutOfRange, coordsInRange, h, neg]

/-- The two forms of a view's length agree (R86, R87). -/
theorem viewLen_eq (w : Nat) (sel : ViewSel) (kind : ViewKind) (hk : kindOfCode sel.kind = some kind) :
    viewLen kind w sel = viewLength w sel := by
  rcases kindOfCode_cases _ _ hk with ⟨rfl, h⟩ | ⟨rfl, h⟩ | ⟨rfl, h⟩ | ⟨rfl, h⟩ | ⟨rfl, h⟩ | ⟨rfl, h⟩ <;>
    simp [viewLen, viewLength, singleLen, h]

/-- The two forms of a view's positions agree (R86, R87). -/
theorem viewIdx_eq (w : Nat) (sel : ViewSel) (kind : ViewKind) (hk : kindOfCode sel.kind = some kind) (k : Nat) :
    viewIdx kind w sel k = viewPos w sel k := by
  have flat : w * (5 * (k / (5 * w)) + k / w % 5) + k % w = k := by
    have h1 : k / (5 * w) = k / w / 5 := by rw [Nat.mul_comm, Nat.div_div_eq_div_mul]
    rw [h1, Nat.div_add_mod, Nat.div_add_mod]
  rcases kindOfCode_cases _ _ hk with ⟨rfl, h⟩ | ⟨rfl, h⟩ | ⟨rfl, h⟩ | ⟨rfl, h⟩ | ⟨rfl, h⟩ | ⟨rfl, h⟩ <;>
    cases ha : sel.all <;>
      simp [viewIdx, viewPos, viewCoord, singleIdx, bulkIdx, flatIdx, h, ha, flat]

/-- A view operand is valid exactly when `check_view` answers a kind (R89). -/
theorem viewValid_iff (w : Nat) (sel : ViewSel) : viewValid w sel = true ↔ ∃ kind, checkView w sel = .ok kind := by
  simp only [viewValid, checkView_ok_iff, Bool.and_eq_true, decide_eq_true_eq, Bool.or_eq_true, ← kindOfCode_some_iff]
  constructor
  · rintro ⟨⟨kind, hk⟩, h⟩
    rw [coordOutOfRange_eq w sel kind hk] at h
    exact ⟨kind, hk, by simpa using h⟩
  · rintro ⟨kind, hk, h⟩
    rw [coordOutOfRange_eq w sel kind hk]
    exact ⟨⟨kind, hk⟩, by simpa using h⟩

/-- The code of `check_view` is the one claims use (R89, R147). -/
theorem viewError_eq (w : Nat) (sel : ViewSel) :
    viewError w sel = match checkView w sel with
      | .ok _ => .none
      | .error e => e := by
  unfold viewError
  cases h : checkView w sel with
  | ok kind =>
    have hk : ¬6 ≤ sel.kind.toNat := by
      have := (kindOfCode_some_iff sel.kind).1 ⟨kind, ((checkView_ok_iff _ _ _).1 h).1⟩
      omega
    simp [hk, (viewValid_iff w sel).2 ⟨kind, h⟩]
  | error e =>
    have hv : viewValid w sel = false := by
      rw [Bool.eq_false_iff, ne_eq, viewValid_iff]
      rintro ⟨kind, hk⟩
      rw [h] at hk
      cases hk
    rcases (checkView_error_iff _ _ _).1 h with ⟨hk, rfl⟩ | ⟨kind, hk, -, -, rfl⟩
    · simp [(kindOfCode_none_iff _).1 hk]
    · have : ¬6 ≤ sel.kind.toNat := by
        have := (kindOfCode_some_iff sel.kind).1 ⟨kind, hk⟩
        omega
      simp [this, hv]

/-- A reserved KIND raises ILLEGAL (R62, R89). -/
theorem checkView_reserved (w : Nat) (sel : ViewSel) (h : 6 ≤ sel.kind.toNat) : checkView w sel = .error .illegal :=
  (checkView_error_iff _ _ _).2 (.inl ⟨(kindOfCode_none_iff _).2 h, rfl⟩)

/-- A used coordinate out of range raises INDEX (R89, R144). -/
theorem checkView_out_of_range (w : Nat) (sel : ViewSel) (h : sel.kind.toNat ≤ 5) (ha : sel.all = false)
    (hc : coordOutOfRange w sel = true) : checkView w sel = .error .index := by
  obtain ⟨kind, hk⟩ := (kindOfCode_some_iff _).2 h
  rw [coordOutOfRange_eq w sel kind hk] at hc
  exact (checkView_error_iff _ _ _).2 (.inr ⟨kind, hk, ha, by simpa using hc, rfl⟩)

end Sys2Proof.Machine
end

