-- ==== Sys2Proof/Machine/Assembler.lean ====
section
/-!
DEFINITION. Machine/Assembler.lean: the text of a host program (30_encoding.md rule R67; log entry 16): a line of characters
read as one line of `HostLine`, or as nothing where it is no line of the syntax. Host-side notation: no operation of the block.
-/
namespace Sys2Proof.Machine

/-! ## Words of a line -/

/-- Text after `;` is a comment (R67). -/
def stripComment (cs : List Char) : List Char := cs.takeWhile (· != ';')

/-- The words of a line: the runs of characters between blanks and commas. -/
def splitWords : List Char → List (List Char)
  | [] => []
  | c :: cs =>
    if c = ' ' ∨ c = ',' ∨ c = '\t' then [] :: splitWords cs
    else
      match splitWords cs with
      | [] => [[c]]
      | w :: rest => (c :: w) :: rest

/-- The words of a line without the empty ones. -/
def lineWords (cs : List Char) : List (List Char) := (splitWords (stripComment cs)).filter (· != [])

/-! ## Numbers (R67): decimal, or hexadecimal with prefix 0x -/

/-- The value of a digit in base 10 or 16. -/
def digitValue (base : Nat) (c : Char) : Option Nat :=
  let n := c.toNat
  let d :=
    if 48 ≤ n ∧ n ≤ 57 then n - 48
    else if 65 ≤ n ∧ n ≤ 70 then n - 55
    else if 97 ≤ n ∧ n ≤ 102 then n - 87
    else base
  if d < base then some d else none

/-- Digits read from the left, with `acc` read so far. -/
def digitsValue (base : Nat) : Nat → List Char → Option Nat
  | acc, [] => some acc
  | acc, c :: cs =>
    match digitValue base c with
    | some d => digitsValue base (acc * base + d) cs
    | none => none

/-- A number (R67). -/
def parseNumber (cs : List Char) : Option Nat :=
  match cs with
  | [] => none
  | '0' :: 'x' :: [] => none
  | '0' :: 'x' :: ds => digitsValue 16 0 ds
  | ds => digitsValue 10 0 ds

/-- A number that fits in `n` bits. -/
def parseField (n : Nat) (cs : List Char) : Option (BitVec n) :=
  match parseNumber cs with
  | some v => if v < 2 ^ n then some (BitVec.ofNat n v) else none
  | none => none

/-! ## Names -/

/-- The entry of a name table. -/
def lookupName {α : Type} (table : List (String × α)) (w : List Char) : Option α :=
  (table.find? fun e => e.1.toList == w).map fun e => e.2

/-- The register names of R20. -/
def registerNames : List (String × Reg) :=
  [("ID", .id), ("STATUS", .status), ("CMD", .cmd), ("CFG", .cfg), ("ACTCFG", .actcfg), ("SUFFIX", .suffix),
   ("MSGLEN", .msglen), ("OUTLEN", .outlen), ("VLEN", .vlen), ("DIN", .din)]

/-- The windows, whose words are named `STATE[k]`, `VIEWBUF[k]`, `OUTBUF[k]` and `MSGBUF[k]` (R67). -/
def windowNames : List (String × (Nat → Reg)) :=
  [("STATE", .stateWord), ("VIEWBUF", .viewWord), ("OUTBUF", .outWord), ("MSGBUF", .msgWord)]

/-- A register, or a window word (R67). DESIGN CHOICE (log entry 16): R67 puts word k at the window's start plus 4k and does
not say whether a k past the window (`STATE[50]`, `OUTBUF[k]` with 4k ≥ OUT_BYTES) makes a line. Here it does, for every k, and
the access goes to start + 4k, whatever stands there: a reserved offset, another window, or an address outside the engine's
64 KiB, which faults (log entry 9). -/
def parseReg (w : List Char) : Option Reg :=
  match lookupName registerNames w with
  | some r => some r
  | none =>
    let index := (w.dropWhile (· != '[')).drop 1
    match lookupName windowNames (w.takeWhile (· != '[')), index.getLast?, parseNumber index.dropLast with
    | some window, some ']', some k => some (window k)
    | _, _, _ => none

/-- The variant names (R67, R124). -/
def variantNames : List (String × VariantName) :=
  [("SHA3_224", .sha3_224), ("SHA3_256", .sha3_256), ("SHA3_384", .sha3_384), ("SHA3_512", .sha3_512),
   ("SHAKE128", .shake128), ("SHAKE256", .shake256), ("RAWSHAKE128", .rawshake128), ("RAWSHAKE256", .rawshake256)]

/-- The operand of SELECT_VARIANT and HASH_INIT: a number 0..255 or a variant name (R67). -/
def parseVariant (w : List Char) : Option (BitVec 8) :=
  match lookupName variantNames w with
  | some v => some (variantCode v)
  | none => parseField 8 w

/-! ## Commands -/

/-- The commands without an operand, with the pseudo-instructions that stand for one (R67, R68). -/
def plainCommands : List (String × HostCommand) :=
  [("NOP", .instr .nop), ("CONFIGURE", .instr .configure), ("CLEAR", .instr .clear), ("THETA", .instr .theta),
   ("RHO", .instr .rho), ("PI", .instr .pi), ("KHI", .instr .khi), ("PERMUTE", .instr .permute),
   ("ABSORB_BLOCK", .instr .absorbBlock), ("EXTRACT_BLOCK", .instr .extractBlock), ("PROCESS", .instr .process),
   ("HASH_FINAL", .hashFinal), ("KECCAK_F", .keccakF)]

/-- The commands with an 8-bit number (R67). -/
def numberCommands : List (String × (BitVec 8 → Instr)) :=
  [("IOTA", .iota), ("ROUND", .round), ("HASH_UPDATE", .hashUpdate)]

/-- The commands with a variant (R67). -/
def variantCommands : List (String × (BitVec 8 → Instr)) :=
  [("SELECT_VARIANT", .selectVariant), ("HASH_INIT", .hashInit)]

/-- The view commands for one view (R67). -/
def viewCommands : List (String × (ViewSel → Instr)) :=
  [("VIEW_GET", .viewGet), ("VIEW_SET", .viewSet), ("VIEW_XOR", .viewXor)]

/-- The view commands for every view of a kind: ALL = 1 and all coordinates 0 (R67). -/
def bulkCommands : List (String × (ViewSel → Instr)) :=
  [("VIEW_GET.ALL", .viewGet), ("VIEW_SET.ALL", .viewSet), ("VIEW_XOR.ALL", .viewXor)]

/-- The kind names (R62). -/
def kindNames : List (String × ViewKind) :=
  [("LANE", .lane), ("PLANE", .plane), ("SHEET", .sheet), ("ROW", .row), ("COLUMN", .column), ("SLICE", .slice)]

/-- The KIND code of a kind (R62). -/
def kindCode : ViewKind → BitVec 3
  | .lane => 0#3
  | .plane => 1#3
  | .sheet => 2#3
  | .row => 3#3
  | .column => 4#3
  | .slice => 5#3

/-- A view operand: the kind and the coordinates it uses, the others 0 (R62, R67). -/
def parseView (ws : List (List Char)) : Option ViewSel :=
  match ws with
  | [] => none
  | name :: args =>
    match lookupName kindNames name, args with
    | some .lane, [x, y] =>
      match parseField 3 x, parseField 3 y with
      | some x, some y => some { kind := kindCode .lane, all := false, x := x, y := y, z := 0#6 }
      | _, _ => none
    | some .plane, [y] => (parseField 3 y).map fun y => { kind := kindCode .plane, all := false, x := 0#3, y := y, z := 0#6 }
    | some .sheet, [x] => (parseField 3 x).map fun x => { kind := kindCode .sheet, all := false, x := x, y := 0#3, z := 0#6 }
    | some .row, [y, z] =>
      match parseField 3 y, parseField 6 z with
      | some y, some z => some { kind := kindCode .row, all := false, x := 0#3, y := y, z := z }
      | _, _ => none
    | some .column, [x, z] =>
      match parseField 3 x, parseField 6 z with
      | some x, some z => some { kind := kindCode .column, all := false, x := x, y := 0#3, z := z }
      | _, _ => none
    | some .slice, [z] => (parseField 6 z).map fun z => { kind := kindCode .slice, all := false, x := 0#3, y := 0#3, z := z }
    | _, _ => none

/-- A command's text, or a number, which is the command word itself (R67, R68). -/
def parseCommand (ws : List (List Char)) : Option HostCommand :=
  match ws with
  | [] => none
  | [w] =>
    match lookupName plainCommands w, lookupName variantNames w with
    | some c, _ => some c
    | none, some v => some (.variant v)
    | none, none => (parseField 32 w).map .number
  | name :: args =>
    match lookupName numberCommands name, lookupName variantCommands name, lookupName viewCommands name,
      lookupName bulkCommands name, args with
    | some f, _, _, _, [n] => (parseField 8 n).map fun a => .instr (f a)
    | _, some f, _, _, [v] => (parseVariant v).map fun a => .instr (f a)
    | _, _, some f, _, args => (parseView args).map fun sel => .instr (f sel)
    | _, _, _, some f, [k] =>
      (lookupName kindNames k).map fun kind =>
        .instr (f { kind := kindCode kind, all := true, x := 0#3, y := 0#3, z := 0#6 })
    | _, _, _, _, _ => none

/-! ## Lines -/

/-- The words of LOAD_STATE. -/
def parseWords : List (List Char) → Option (List Word)
  | [] => some []
  | w :: ws =>
    match parseField 32 w, parseWords ws with
    | some v, some vs => some (v :: vs)
    | _, _ => none

/-- The first word of a line (R67, R68). -/
inductive LineHead where
  | wr
  | rd
  | cmd
  | run
  | wait
  | loadState
  | readState
  deriving DecidableEq, Repr

/-- The names of the line heads (R67, R68). -/
def lineHeads : List (String × LineHead) :=
  [("WR", .wr), ("RD", .rd), ("CMD", .cmd), ("RUN", .run), ("WAIT", .wait), ("LOAD_STATE", .loadState),
   ("READ_STATE", .readState)]

/-- A line that holds something: `none` where the text is no line of the syntax (R67, R68). -/
def parseLine (cs : List Char) : Option HostLine :=
  match lineWords cs with
  | [] => none
  | head :: args =>
    match lookupName lineHeads head, args with
    | some .wr, [r, v] =>
      match parseReg r, parseField 32 v with
      | some r, some v => some (.wr r v)
      | _, _ => none
    | some .rd, [r] => (parseReg r).map .rd
    | some .cmd, ws => (parseCommand ws).map .cmd
    | some .run, ws => (parseCommand ws).map .run
    | some .wait, [] => some .wait
    | some .loadState, ws => (parseWords ws).map .loadState
    | some .readState, [] => some .readState
    | _, _ => none

/-- A program: its lines in order, the ones that hold only a comment or nothing left out (R67). -/
def parseProgram : List (List Char) → Option (List HostLine)
  | [] => some []
  | cs :: rest =>
    if lineWords cs = [] then parseProgram rest
    else
      match parseLine cs, parseProgram rest with
      | some line, some lines => some (line :: lines)
      | _, _ => none

end Sys2Proof.Machine
end

