-- ==== Sys2Proof/Tests/Slice0.lean ====
section
/-!
SUPPORT. Tests/Slice0.lean: the model's own tests. Expected values are the spec's: its encodings (30_encoding.md), the
examples of each command's rule, and the vectors of 95_test_vectors.md. Each test is one step.
-/
namespace Sys2Proof.Tests

open Sys2Proof.Machine

set_option Elab.async false

/-! ## Helpers -/

/-- The next state, if there is one. -/
def after (o : Host.Outcome State Fault Refusal) : Option State :=
  match o with
  | .next t => some t
  | _ => none

/-- Reset state with another storage. -/
def withStore (S : Store) : State := { State.reset with store := S }

/-- Reset state with ACTCFG = 0x00900003 (`w = 8`, `b = 200`, `r = 144`) and another storage. -/
def small (S : Store) : State := { State.reset with store := S, actcfg := ⟨3#3, 144#11⟩ }

/-- The state of V-VIEW: byte `k` is `k` for `k = 0..24`. -/
def bytesState : Store := 0x1817161514131211100F0E0D0C0B0A09080706050403020100#1600

/-- STATUS as a word after one command. -/
def statusAfter (i : Instr) (s : State) : Option Word := (after (exec i s)).map fun t => t.status.word

/-- VIEWBUF (bits) and VLEN after one command. -/
def viewAfter (i : Instr) (s : State) : Option (Store × BitVec 11) :=
  (after (exec i s)).map fun t => (t.viewbuf.bits, t.vlen)

/-- The storage after one command. -/
def storeAfter (i : Instr) (s : State) : Option Store := (after (exec i s)).map fun t => t.store

/-- A state from flat indices. -/
def ones (is : List Nat) : Store := is.foldl (fun S i => S ||| (1#1600 <<< i)) 0#1600

/-! ## WellFormed: an ill-formed term for each check -/

theorem test_wf_kind6 : (Instr.viewGet ⟨6#3, false, 0#3, 0#3, 0#6⟩).wf = false := by decide
theorem test_wf_kind7_all : (Instr.viewXor ⟨7#3, true, 0#3, 0#3, 0#6⟩).wf = false := by decide
theorem test_wf_update0 : (Instr.hashUpdate 0#8).wf = false := by decide
theorem test_wf_update5 : (Instr.hashUpdate 5#8).wf = false := by decide
theorem test_wf_slice : (Instr.viewSet ⟨5#3, false, 7#3, 7#3, 63#6⟩).wf = true := by decide

/-! ## Decoding: words written out from the encodings (R60, R63) -/

theorem test_decode_nop : decodeTableWord 32 0x00000000 = some .nop := by decide
theorem test_decode_configure : decodeTableWord 32 0x00000001 = some .configure := by decide
theorem test_decode_clear : decodeTableWord 32 0x00000002 = some .clear := by decide
theorem test_decode_theta : decodeTableWord 32 0x00000003 = some .theta := by decide
theorem test_decode_rho : decodeTableWord 32 0x00000004 = some .rho := by decide
theorem test_decode_pi : decodeTableWord 32 0x00000005 = some .pi := by decide
theorem test_decode_khi : decodeTableWord 32 0x00000006 = some .khi := by decide
/-- R110: IOTA 1. -/
theorem test_decode_iota : decodeTableWord 32 0x00000107 = some (.iota 1#8) := by decide
theorem test_decode_round : decodeTableWord 32 0b00000000000000001111111000001000 = some (.round 254#8) := by decide
theorem test_decode_permute : decodeTableWord 32 0x00000009 = some .permute := by decide
theorem test_decode_absorb : decodeTableWord 32 0x0000000A = some .absorbBlock := by decide
theorem test_decode_extract : decodeTableWord 32 0x0000000B = some .extractBlock := by decide
theorem test_decode_process : decodeTableWord 32 0x0000000C = some .process := by decide
/-- R126: SELECT_VARIANT SHAKE128. -/
theorem test_decode_select : decodeTableWord 32 0x0000040D = some (.selectVariant 4#8) := by decide
/-- R128: HASH_INIT SHAKE256. -/
theorem test_decode_init : decodeTableWord 32 0x0000050E = some (.hashInit 5#8) := by decide
/-- R129: HASH_UPDATE 3. -/
theorem test_decode_update : decodeTableWord 32 0x0000030F = some (.hashUpdate 3#8) := by decide
/-- R92: VIEW_GET LANE 1, 2. -/
theorem test_decode_get_lane : decodeTableWord 32 0x00210010 = some (.viewGet ⟨0#3, false, 1#3, 2#3, 0#6⟩) := by decide
/-- L1-6: VIEW_GET COLUMN 4, 62, bit by bit `00 111110 0 000 0 100 0000 0 100 00010000`. -/
theorem test_decode_get_column :
    decodeTableWord 32 0b00111110000001000000010000010000 = some (.viewGet ⟨4#3, false, 4#3, 0#3, 62#6⟩) := by decide
/-- R93: VIEW_SET.ALL LANE. -/
theorem test_decode_set_all : decodeTableWord 32 0x00000811 = some (.viewSet ⟨0#3, true, 0#3, 0#3, 0#6⟩) := by decide
/-- V-VIEW-19: VIEW_XOR SLICE 7. -/
theorem test_decode_xor_slice : decodeTableWord 32 0x07000512 = some (.viewXor ⟨5#3, false, 0#3, 0#3, 7#6⟩) := by decide
/-- V-CTL-2: a reserved opcode. -/
theorem test_decode_reserved_opcode : decodeTableWord 32 0x00000013 = none := by decide
/-- V-CTL-6: PERMUTE with A = 1. -/
theorem test_decode_must_be_zero : decodeTableWord 32 0x00000109 = none := by decide
theorem test_decode_bit23 : decodeTableWord 32 0x00800010 = none := by decide
/-- No two rows of the table overlap (R64). -/
theorem test_rows_disjoint :
    opcodeTable.Pairwise fun r q => (r.pattern ^^^ q.pattern) &&& (r.mask &&& q.mask) ≠ 0#32 := by decide
/-- The encoder writes the spec's words. -/
theorem test_encode_view : encode (.viewGet ⟨3#3, false, 0#3, 3#3, 1#6⟩) = 0x01300310#32 := by decide
theorem test_encode_iota : encode (.iota 254#8) = 0x0000FE07#32 := by decide

/-! ## Control and configuration -/

/-- R135: after a failed command (ERR = 4), NOP leaves ERR = 0, SKIP = 0, BUSY = 0 and ERRSEEN = 1. -/
theorem test_nop : statusAfter .nop { State.reset with status := ⟨true, false, true, false, .index⟩ } = some 0x4#32 := by
  decide
/-- V-CFG-1. -/
theorem test_configure :
    (after (exec .configure { withStore 7#1600 with cfg := CfgReg.ofWord 0x00900003#32 })).map
      (fun t => (t.actcfg.word, t.store, t.status.word)) = some (0x00900003#32, 0#1600, 0#32) := by decide +kernel
/-- V-CFG-2: the rate equals `b`. -/
theorem test_configure_rate_b :
    (after (exec .configure { State.reset with cfg := CfgReg.ofWord 0x00C80003#32 })).map
      (fun t => (t.actcfg.word, t.status.word)) = some (0x04400006#32, 0x14#32) := by decide +kernel
/-- R91, with bits above `b` kept. -/
theorem test_clear : storeAfter .clear (small (ones [0, 199, 200])) = some (ones [200]) := by decide +kernel

/-! ## Views -/

/-- V-VIEW-5: ROW 1, 0. -/
theorem test_get_row :
    viewAfter (.viewGet ⟨3#3, false, 0#3, 1#3, 0#6⟩) (small bytesState) = some (0x15#1600, 5#11) := by decide +kernel
/-- V-VIEW-15: VIEW_GET.ALL SLICE. -/
theorem test_get_all_slice :
    viewAfter (.viewGet ⟨5#3, true, 0#3, 0#3, 0#6⟩) (small bytesState) =
      some (0x1FF0000807F803C3C3C1999998AAAAAA#1600, 200#11) := by decide +kernel
/-- V-VIEW-20: VIEW_SET COLUMN 0, 0. -/
theorem test_set_column :
    storeAfter (.viewSet ⟨4#3, false, 0#3, 0#3, 0#6⟩)
      { small 0x9897969594939291908F8E8D8C8B8A89888786858483828180#1600 with
        viewbuf := ViewBuf.full 0x15#1600, vlen := 5#11 } =
      some 0x9897969595939291908E8E8D8C8B8B89888786848483828181#1600 := by decide +kernel
/-- R93: VLEN = 1599 raises LENGTH. -/
theorem test_set_length :
    statusAfter (.viewSet ⟨0#3, true, 0#3, 0#3, 0#6⟩) { State.reset with vlen := 1599#11 } = some 0x34#32 := by
  decide +kernel
/-- R94: VIEW_XOR ROW 0, 0 sets A[0,0,0]. -/
theorem test_xor_row :
    storeAfter (.viewXor ⟨3#3, false, 0#3, 0#3, 0#6⟩)
      { State.reset with viewbuf := ViewBuf.full 1#1600, vlen := 5#11 } = some 1#1600 := by decide +kernel
/-- V-VIEW-21: the silent no-op. -/
theorem test_xor_skip :
    statusAfter (.viewXor ⟨3#3, false, 0#3, 0#3, 0#6⟩) { State.reset with vlen := 64#11 } = some 0x2#32 := by
  decide +kernel

/-! ## The round function -/

/-- V-STEP-2. -/
theorem test_theta :
    storeAfter .theta (withStore (ones [65])) =
      some (ones [2, 65, 129, 322, 449, 642, 769, 962, 1089, 1282, 1409]) := by decide +kernel
/-- V-STEP-6. -/
theorem test_rho : storeAfter .rho (withStore (ones [1599])) = some (ones [1549]) := by decide +kernel
/-- V-STEP-9. -/
theorem test_pi : storeAfter .pi (withStore (ones [1599])) = some (ones [319]) := by decide +kernel
/-- V-STEP-12. -/
theorem test_khi : storeAfter .khi (withStore (ones [1599])) = some (ones [1471, 1599]) := by decide +kernel
/-- V-STEP-14, round −1. -/
theorem test_iota : storeAfter (.iota 254#8) State.reset = some 0x8A#1600 := by decide +kernel
/-- V-STEP-15: `w = 8`, ir = 2. -/
theorem test_iota_small : storeAfter (.iota 2#8) (small 0#1600) = some 0x8A#1600 := by decide +kernel
/-- P3b: one round on Keccak-f[200]. -/
theorem test_round :
    storeAfter (.round 0#8) (small 1#1600) =
      some 0x00000004000500010010040014000000020220200000009001801000#1600 := by decide +kernel
/-- V-PERM-1, lane (0,0). -/
theorem test_permute :
    (storeAfter .permute State.reset).map (fun S => laneOf 64 S 0 0) = some 0xF1258F7940E1DDE7#64 := by decide +kernel

/-! ## The sponge and the adapter -/

/-- R117: the all-zero block of `r` bits makes ABSORB_BLOCK equal PERMUTE (V-PERM-4, lane (0,0)). -/
theorem test_absorb :
    (storeAfter .absorbBlock { small 0#1600 with viewbuf := ViewBuf.full 0#1600, vlen := 144#11 }).map
      (fun S => laneOf 8 S 0 0) = some 0x3C#64 := by decide +kernel
/-- V-SP-15. -/
theorem test_absorb_skip : statusAfter .absorbBlock { State.reset with vlen := 1344#11 } = some 0x2#32 := by
  decide +kernel
/-- R118: the first `r = 144` bits, and VLEN. -/
theorem test_extract :
    viewAfter .extractBlock (small (ones [0, 143, 144])) = some (ones [0, 143], 144#11) := by decide +kernel
/-- V-SP-6 and V-SP-8: b = 200, r = 144, the empty message, 5 output bits. -/
theorem test_process :
    (after (exec .process { small 0#1600 with outlen := 5#32 })).map
      (fun t => (cellGet t.outbuf.cells 0, t.store, t.status.word)) =
      some (0x1A#8, 0xB0C2ACD48532F5944B0440C1E31DE870AA3B5C00EF1B6EA4BA#1600, 0#32) := by decide +kernel
/-- V-CTL-8: SUFLEN = 9. -/
theorem test_process_suffix :
    statusAfter .process { State.reset with suffix := SuffixReg.ofWord 0x00000902#32 } = some 0x14#32 := by
  decide +kernel
/-- R126: SHAKE128. -/
theorem test_select :
    (after (exec (.selectVariant 4#8) State.reset)).map (fun t => (t.actcfg.word, t.suffix.word, t.outlen)) =
      some (0x05400006#32, 0x0000040F#32, 256#32) := by decide +kernel
/-- V-VAR-18. -/
theorem test_select_8 : statusAfter (.selectVariant 8#8) State.reset = some 0x14#32 := by decide +kernel
/-- R128: HASH_INIT SHA3_224. -/
theorem test_init :
    (after (exec (.hashInit 0#8) { State.reset with msglen := 24#32 })).map
      (fun t => (t.actcfg.word, t.suffix.word, t.outlen, t.msglen)) =
      some (0x04800006#32, 0x00000202#32, 224#32, 0#32) := by decide +kernel
/-- R129: HASH_UPDATE 3 of "abc". -/
theorem test_update :
    (after (exec (.hashUpdate 3#8) { State.reset with din := 0x00636261#32 })).map
      (fun t => (t.msgbuf.cells, t.msgbuf.written, t.msglen)) =
      some ([(0, 0x61#8), (1, 0x62#8), (2, 0x63#8)], [(0, 0xFF#8), (1, 0xFF#8), (2, 0xFF#8)], 24#32) := by
  decide +kernel
/-- V-VAR-19: with MSGLEN = 2032, HASH_UPDATE 3 does not fit. -/
theorem test_update_length : statusAfter (.hashUpdate 3#8) { State.reset with msglen := 2032#32 } = some 0x34#32 := by
  decide +kernel

/-! ## The host port and the step -/

/-- R21, V-CTL-1. -/
theorem test_read_id : (readReg (regAt State.reset.params 0) State.reset).1 = 0x4B454343#32 := by decide +kernel
/-- V-CFG-6. -/
theorem test_cfg_reserved_bits : (readReg .cfg (writeReg .cfg 0xFFFFFFFF#32 State.reset)).1 = 0x07FF0007#32 := by
  decide +kernel
/-- V-CTL-4: writing 4 to STATUS clears ERRSEEN and keeps ERR. -/
theorem test_status_w1c :
    (writeReg .status 4#32 { State.reset with status := ⟨false, false, true, false, .index⟩ }).status.word = 0x40#32 := by
  decide +kernel
/-- V-CTL-11: a write while BUSY = 1 is dropped and sets OVR. -/
theorem test_overrun :
    (fun t : State => (t.status.word, t.msglen)) (writeReg .msglen 8#32 (State.reset.withFetchWord 32 9)) =
      (0x9#32, 0#32) := by decide +kernel
/-- P2: MSGBUF word 0 after 24 bits are written: its low three bytes are theirs. -/
theorem test_msgbuf_word :
    ((readReg (.msgWord 0) { State.reset with msgbuf := Memory.empty.writeWord 0 0x00636261#32 }).1) = 0x00636261#32 := by
  decide +kernel
/-- V-CTL-2: the ENGINE step of a reserved word. -/
theorem test_step_reserved :
    (after (step (State.reset.withFetchWord 32 0x13))).map (fun t => t.status.word) = some 0x54#32 := by decide +kernel
/-- The ENGINE step of IOTA 1 as the first command after reset (R110). -/
theorem test_step_iota :
    (after (step (State.reset.withFetchWord 32 0x107))).map (fun t => (t.store, t.status.word)) =
      some (0x8082#1600, 0#32) := by decide +kernel
/-- P5's last line but one of section 2.10: VIEW_GET LANE 5, 0 raises INDEX (V-CTL-3, from a clean STATUS). -/
theorem test_step_index :
    (after (step (State.reset.withFetchWord 32 0x00050010))).map (fun t => t.status.word) = some 0x44#32 := by
  decide +kernel
/-- R45. -/
theorem test_misaligned : performAccess ⟨2, 4, .read⟩ State.reset = .refused .unsupportedAccess := by rfl
/-- R44: the first address after the window. -/
theorem test_outside : performAccess ⟨0x10000, 4, .read⟩ State.reset = .fault .outsideWindow := by rfl

/-! ## Values of the bit-vector layer (95_test_vectors.md section 2.1) -/

theorem test_bv_from_bytes : fromBytes [0xFF#8] (some 5) = .ok [true, true, true, true, true] := by rfl
theorem test_bv_from_bytes_refused : fromBytes [0x01#8] (some 9) = .error .refused := by rfl
/-- R82: bits of the last byte from position 9 on are zero, and a byte beyond is dropped. -/
theorem test_bv_masked : maskedBytes [0xFF#8, 0xFF#8, 0xFF#8] 9 = [0xFF#8, 0x01#8] := by decide +kernel
theorem test_bv_to_bytes : toBytes [true, true, true, true, true] = [0x1F#8] := by decide +kernel
theorem test_bv_substring :
    bvSubstring [true, true, false, false, true] 1 3 = .ok [true, false, false] := by rfl
theorem test_bv_swap :
    bvSwap [true, true, false, false, true] 0 2 = [false, true, true, false, true] := by decide +kernel
theorem test_bv_xor_mismatch :
    bvXor [true, true, false] (.vector [true, true, true, true]) = [true, true, false] := by decide +kernel
/-- R81, byte by byte: a byte buffer of the receiver's length is XORed as its bits, and one of another length is a no-op. -/
theorem test_bv_xor_bytes :
    bvXor (bytesBits [0x0F#8]) (.buffer [0x3C#8]) = bytesBits [0x33#8] ∧ bvXor [true] (.buffer [0x3C#8]) = [true] := by
  decide +kernel
/-- V-BV-10: an append of the byte buffer [0x01] at a position that is no multiple of 8. -/
theorem test_bv_append_bytes :
    bvAppend [true, true, false] (.buffer [0x01#8]) =
      [true, true, false, true, false, false, false, false, false, false, false] := by decide +kernel
theorem test_bv_text : toBinString 2 [true, true, false, false, true] = "11 00 1".toList := by decide +kernel
theorem test_bv_hex : toHexString 1 true (bytesBits [0xA7#8, 0x0F#8]) = "A7 0F".toList := by decide +kernel


/-! ## The text of a host program (30_encoding.md rule R67; 95_test_vectors.md section 3) -/

/-- P3. -/
theorem test_line_wr : parseLine "WR CFG, 0x00900003       ; L_REQ 3, RATE_REQ 144".toList = some (.wr .cfg 0x00900003#32) := by
  decide +kernel
theorem test_line_window : parseLine "WR VIEWBUF[41], 0x80000000".toList = some (.wr (.viewWord 41) 0x80000000#32) := by
  decide +kernel
/-- P5: a number is the command word itself. -/
theorem test_line_number : parseLine "RUN 0x00000013".toList = some (.run (.number 0x13#32)) := by decide +kernel
/-- P3: the word written to CMD is 0x00000811. -/
theorem test_line_all : (parseLine "CMD VIEW_SET.ALL LANE".toList).map (lineOps State.reset.params 200) =
    some [wrOp State.reset.params .cmd 0x811#32] := by decide +kernel
theorem test_line_variant : parseLine "RUN HASH_INIT SHA3_224".toList = some (.run (.instr (.hashInit 0#8))) := by
  decide +kernel
theorem test_line_view : parseLine "CMD VIEW_GET COLUMN 4, 62".toList =
    some (.cmd (.instr (.viewGet ⟨4#3, false, 4#3, 0#3, 62#6⟩))) := by decide +kernel
/-- R68 leaves open a LOAD_STATE whose list is not ⌈b/32⌉ words long. The model's choice (log entry 16): 0 for a missing word. -/
theorem test_load_state_short : lineOps State.reset.params 50 (.loadState [5#32]) =
    [wrOp State.reset.params (.viewWord 0) 5#32, wrOp State.reset.params (.viewWord 1) 0#32,
      wrOp State.reset.params .vlen 50#32, wrOp State.reset.params .cmd 0x811#32] := by decide +kernel
theorem test_line_refused : parseLine "CMD IOTA 256".toList = none := by decide +kernel

/-! ## Witnesses: for every obligation with hypotheses, states and operands that meet them, clause by clause -/

/-- What `after` shows is a next state. -/
theorem next_of_after {o : Host.Outcome State Fault Refusal} {α : Type} {f : State → α} {v : α}
    (h : (after o).map f = some v) : ∃ t, o = .next t ∧ f t = v := by
  cases o with
  | next t => exact ⟨t, rfl, by simpa [after] using h⟩
  | fault _ => simp [after] at h
  | refused _ => simp [after] at h

/-- ERR after one command. -/
def errAfter (i : Instr) (s : State) : Option ErrCode := (after (exec i s)).map fun t => t.status.err

/-- SKIP after one command. -/
def skipAfter (i : Instr) (s : State) : Option Bool := (after (exec i s)).map fun t => t.status.skip

/-- Reset state with ACTCFG = (l, rate). -/
def configured (l : BitVec 3) (rate : BitVec 11) : State := { State.reset with actcfg := ⟨l, rate⟩ }

/-- Reset state with a command word pending. -/
def pending (w : Nat) : State := State.reset.withFetchWord 32 w

/-- The invariant holds in a state with a command pending. -/
theorem inv_pending : (pending 9).Inv where
  params := by decide
  config := by decide
  storeHigh := by decide +kernel
  notFormat := by decide
  skipNoError := by decide
  viewbuf := by decide +kernel
  msgbuf := by decide
  msgbufBelow := by decide
  outbuf := by decide
  outbufBelow := by decide
  outbufWhole := Or.inl rfl

/-- The words of each kind the spec calls illegal, and one that is not. -/
theorem test_witness_illegalWord :
    [0x13, 0xFF, 0x109, 0x00010007, 0x00800010, 0x610, 0x712, 0x0F, 0x50F].all (fun w => illegalWord (BitVec.ofNat 32 w)) ∧
      illegalWord 0x40F#32 = false ∧ illegalWord 0x511#32 = false := by decide

theorem test_witness_EncodeOfDecode :
    decode 0x00000009#32 = .ok .permute ∧ decode 0x0000FF07#32 = .ok (.iota 255#8) ∧
      decode 0x3F770F12#32 = .ok (.viewXor ⟨7#3, true, 7#3, 7#3, 63#6⟩) := by decide

theorem test_witness_DecoderRefusesExactlyReserved :
    reservedWord 0x13#32 = true ∧ reservedWord 0x40000010#32 = true ∧ reservedWord 0x00010007#32 = true ∧
      reservedWord 0x12#32 = false := by decide

theorem test_witness_IllegalCommandExactly :
    State.reset.status.busy = false ∧ nextMove (pending 0x13) = .engine (pending 0x13) ∧
      illegalWord (pending 0x13).pend = true ∧ ∃ t, step (pending 0x610) = .next t ∧ t.status.err = .illegal :=
  ⟨by decide, by decide +kernel, by decide, next_of_after (by decide +kernel)⟩

theorem test_witness_StepRunsDecodedCommand :
    nextMove { pending 9 with sched := [.engine, .host] } = .engine { pending 9 with sched := [.host] } ∧
      decode (pending 9).pend = .ok .permute := by decide +kernel

theorem test_witness_EngineEnabledExactlyWhenBusy :
    nextMove (pending 9) = .engine (pending 9) ∧ nextMove State.reset = .idle State.reset := by decide +kernel

theorem test_witness_CompletionWritesStatus :
    (∃ t, exec .nop (pending 0) = .next t ∧ t.status.err = .none) ∧
      (∃ t, exec (.hashUpdate 0#8) (pending 0) = .next t ∧ t.status.err = .illegal) ∧
      (∃ t, step (pending 0x13) = .next t ∧ t.status.err = .illegal) ∧
      ∃ t, exec .nop { pending 0 with status := ⟨true, true, true, true, .index⟩ } = .next t ∧ t.status.skip = false :=
  ⟨next_of_after (by decide +kernel), next_of_after (by decide +kernel), next_of_after (by decide +kernel),
    next_of_after (by decide +kernel)⟩

/-- R141 to R147 read off the command, at the bounds: each code, its priority, and the two silent no-ops. -/
theorem test_result_codes :
    resultCode (.viewSet ⟨6#3, false, 7#3, 0#3, 0#6⟩) State.reset = .illegal ∧
      resultCode (.viewSet ⟨0#3, false, 5#3, 0#3, 0#6⟩) State.reset = .index ∧
      resultCode (.viewSet ⟨0#3, false, 4#3, 0#3, 0#6⟩) State.reset = .length ∧
      resultCode (.hashUpdate 5#8) { State.reset with msglen := 0xFFFFFFFF#32 } = .illegal ∧
      resultCode .process { State.reset with suffix := ⟨0#8, 9#4⟩, msglen := 2049#32 } = .config ∧
      resultSkip (.viewXor ⟨0#3, false, 4#3, 0#3, 0#6⟩) State.reset = true ∧
      resultSkip (.viewXor ⟨0#3, false, 5#3, 0#3, 0#6⟩) State.reset = false ∧
      resultSkip .absorbBlock State.reset = true := by decide

theorem test_witness_FailedCommandChangesOnlyStatus :
    ∃ t, exec (.selectVariant 8#8) State.reset = .next t ∧ t.status.err = .config := next_of_after (by decide +kernel)

/-- R141 at the bounds: L_REQ 6 and 7, RATE_REQ 0, 1, b - 1 and b, v 7 and 8, SUFLEN 8 and 9. -/
theorem test_witness_ConfigErrorExactly :
    errAfter .configure { State.reset with cfg := ⟨7#3, 1#11⟩ } = some .config ∧
      errAfter .configure { State.reset with cfg := ⟨6#3, 1599#11⟩ } = some .none ∧
      errAfter .configure { State.reset with cfg := ⟨6#3, 1600#11⟩ } = some .config ∧
      errAfter .configure { State.reset with cfg := ⟨0#3, 0#11⟩ } = some .config ∧
      errAfter .configure { State.reset with cfg := ⟨0#3, 1#11⟩ } = some .none ∧
      errAfter (.hashInit 7#8) State.reset = some .none ∧ errAfter (.hashInit 8#8) State.reset = some .config ∧
      errAfter (.selectVariant 255#8) State.reset = some .config ∧
      errAfter .process { small 0#1600 with suffix := ⟨0#8, 9#4⟩, msglen := 0xFFFFFFFF#32 } = some .config ∧
      errAfter .process { small 0#1600 with suffix := ⟨0#8, 8#4⟩, outlen := 0#32 } = some .none := by decide +kernel

/-- R143 at the bounds: MSGLEN 2048 and 2049, OUTLEN 2048 and 2049 (256 bytes), HASH_UPDATE up to and past the end. -/
theorem test_witness_LengthErrorExactly :
    errAfter (.viewSet ⟨3#3, false, 0#3, 4#3, 63#6⟩) { State.reset with vlen := 4#11 } = some .length ∧
      errAfter (.viewSet ⟨3#3, false, 0#3, 5#3, 63#6⟩) { State.reset with vlen := 4#11 } = some .index ∧
      errAfter .process { State.reset with msglen := 2049#32 } = some .length ∧
      errAfter .process { State.reset with outlen := 2049#32 } = some .length ∧
      errAfter .process { configured 3#3 199#11 with outlen := 2048#32 } = some .none ∧
      errAfter (.hashUpdate 4#8) { State.reset with msglen := 2016#32 } = some .none ∧
      errAfter (.hashUpdate 4#8) { State.reset with msglen := 2017#32 } = some .length ∧
      errAfter (.hashUpdate 1#8) { State.reset with msglen := 0xFFFFFFFF#32 } = some .length := by decide +kernel

/-- R144 at the bounds, with `w = 8`. -/
theorem test_witness_IndexErrorExactly :
    errAfter (.viewGet ⟨0#3, false, 5#3, 0#3, 0#6⟩) (small 0#1600) = some .index ∧
      errAfter (.viewXor ⟨5#3, false, 7#3, 7#3, 8#6⟩) (small 0#1600) = some .index ∧
      errAfter (.viewGet ⟨5#3, false, 7#3, 7#3, 7#6⟩) (small 0#1600) = some .none ∧
      errAfter (.viewGet ⟨2#3, false, 4#3, 7#3, 63#6⟩) (small 0#1600) = some .none ∧
      errAfter (.viewSet ⟨1#3, true, 7#3, 7#3, 63#6⟩) { small 0#1600 with vlen := 200#11 } = some .none := by decide +kernel

theorem test_witness_SilentSkipExactly :
    skipAfter (.viewXor ⟨3#3, false, 0#3, 0#3, 0#6⟩) { State.reset with vlen := 64#11 } = some true ∧
      skipAfter .absorbBlock { State.reset with vlen := 1087#11 } = some true ∧
      skipAfter .absorbBlock { small 0#1600 with vlen := 144#11 } = some false := by decide +kernel

theorem test_witness_FormatErrorNeverRaised :
    (∃ t, exec .nop State.reset = .next t ∧ t.status.err = .none) ∧
      Reaches { State.resetWith Params.default with host := [], sched := [] } State.reset :=
  ⟨next_of_after (by decide +kernel), .refl _⟩

theorem test_witness_EngineStepAlwaysCompletes : (pending 9).Inv ∧ nextMove (pending 9) = .engine (pending 9) :=
  ⟨inv_pending, by decide +kernel⟩

theorem test_witness_RoundCommandsStuckOnIllegalConfig :
    (configured 7#3 1#11).actcfg.legal = false ∧ (configured 0#3 25#11).actcfg.legal = false ∧
      (configured 6#3 0#11).actcfg.legal = false ∧ (configured 6#3 0#11).suffix.len.toNat ≤ 8 ∧
      (configured 6#3 0#11).msglen.toNat ≤ 8 * (configured 6#3 0#11).params.msgBytes ∧
      ((configured 6#3 0#11).outlen.toNat + 7) / 8 ≤ (configured 6#3 0#11).params.outBytes := by decide

theorem test_witness_CommandFrame : ∃ t, exec .extractBlock State.reset = .next t ∧ t.vlen = 1088#11 :=
  next_of_after (by decide +kernel)

theorem test_witness_StepKeepsInvariant :
    (pending 9).Inv ∧ ∃ t, step (pending 9) = .next t ∧ t.status.busy = false :=
  ⟨inv_pending, next_of_after (by decide +kernel)⟩

theorem test_witness_ResetMeetsInvariant :
    Params.default.wf = true ∧ (⟨0x10000, 4, 64, 1, 1599⟩ : Params).wf = true ∧
      (⟨0, 61440, 1024, 1599, 1⟩ : Params).wf = true := by decide

theorem test_witness_ResetInputTakesEffect : ({ pending 9 with sched := [.reset] } : State).sched = .reset :: [] := by rfl

theorem test_witness_ConfigureApplies :
    (State.reset.cfg.l.toNat ≤ 6 ∧ 1 ≤ State.reset.cfg.rate.toNat ∧
      State.reset.cfg.rate.toNat < 25 * 2 ^ State.reset.cfg.l.toNat) ∧
      ¬((CfgReg.ofWord 0x00C80003#32).rate.toNat < 25 * 2 ^ (CfgReg.ofWord 0x00C80003#32).l.toNat) := by decide

/-- Every kind of view at its largest coordinates, for `w = 1` and `w = 64`, with ACTCFG legal. -/
theorem test_witness_views :
    (configured 0#3 24#11).actcfg.legal = true ∧ (configured 6#3 1599#11).actcfg.legal = true ∧
      ([0#3, 1#3, 2#3, 3#3, 4#3, 5#3].all fun k =>
        viewValid 1 ⟨k, false, 4#3, 4#3, 0#6⟩ && viewValid 64 ⟨k, false, 4#3, 4#3, 63#6⟩ &&
          viewValid 8 ⟨k, true, 7#3, 7#3, 63#6⟩) = true := by decide

theorem test_witness_ViewPositionsDistinct :
    viewValid (2 ^ 6) ⟨5#3, false, 0#3, 0#3, 63#6⟩ = true ∧ viewValid (2 ^ 0) ⟨4#3, true, 0#3, 0#3, 0#6⟩ = true := by decide

theorem test_witness_ViewGetResult :
    State.reset.actcfg.legal = true ∧ viewValid State.reset.actcfg.w ⟨0#3, false, 4#3, 4#3, 0#6⟩ = true := by decide

theorem test_witness_ViewSetResult :
    State.reset.actcfg.legal = true ∧ viewValid State.reset.actcfg.w ⟨0#3, true, 0#3, 0#3, 0#6⟩ = true ∧
      ({ State.reset with vlen := 1600#11 } : State).vlen.toNat =
        viewLength State.reset.actcfg.w ⟨0#3, true, 0#3, 0#3, 0#6⟩ := by decide

theorem test_witness_ViewXorResult :
    viewValid (small 0#1600).actcfg.w ⟨3#3, false, 0#3, 4#3, 7#6⟩ = true ∧
      ({ small 0#1600 with vlen := 5#11 } : State).vlen.toNat =
        viewLength (small 0#1600).actcfg.w ⟨3#3, false, 0#3, 4#3, 7#6⟩ := by decide

theorem test_witness_AlternatingPatternReads :
    (small 0x55555555555555555555555555555555555555555555555555#1600).actcfg.legal = true ∧
      1 ≤ (small 0#1600).actcfg.l.toNat ∧ viewValid (small 0#1600).actcfg.w ⟨0#3, false, 4#3, 0#3, 0#6⟩ = true ∧
      ∀ i < (small 0#1600).actcfg.b,
        (0x55555555555555555555555555555555555555555555555555#1600).getLsbD i = decide (i % 2 = 0) := by decide +kernel

/-- The legal configurations the statements about the round function and the sponge range over, at the bounds. -/
theorem test_witness_legalConfig :
    [(0#3, 1#11), (0#3, 24#11), (3#3, 144#11), (6#3, 1#11), (6#3, 1599#11)].all
      (fun c => (configured c.1 c.2).actcfg.legal) = true := by decide

/-- R114's consequences: `m mod r = r - 2`, `m mod r = r - 1` and `r = 1`. -/
theorem test_witness_PaddingShape :
    2 % 4 + 2 = 4 ∧ padZeros 4 2 = 0 ∧ 7 % 4 + 1 = 4 ∧ padZeros 4 7 = 3 ∧ padZeros 1 5 = 0 := by decide

theorem test_witness_AbsorbBlockResult :
    ({ State.reset with vlen := 1088#11 } : State).vlen = State.reset.actcfg.rate ∧
      State.reset.vlen ≠ State.reset.actcfg.rate ∧ State.reset.actcfg.legal = true := by decide

theorem test_witness_ProcessResult :
    let s : State := { State.reset with suffix := ⟨0xFF#8, 8#4⟩, msglen := 2048#32, outlen := 2048#32 }
    s.actcfg.legal = true ∧ s.suffix.len.toNat ≤ 8 ∧ s.msglen.toNat ≤ 8 * s.params.msgBytes ∧
      (s.outlen.toNat + 7) / 8 ≤ s.params.outBytes := by decide

/-- A state on Keccak-f[200] with r = 144, the empty message, and 145 output bits: one block, two extractions. -/
def spongeStart : State := { small 7#1600 with outlen := 145#32 }

/-- Every hypothesis at once, on one state: PROCESS completes without error, and the one VIEWBUF holds the one padded block. -/
theorem test_witness_HostDrivenSpongeEqualsProcess :
    let r := spongeStart.actcfg.rate.toNat
    let M := padded r (messageOperand spongeStart) spongeStart.suffix.suffix
    let vbs := [ViewBuf.full (bitsToStore M)]
    spongeStart.actcfg.legal = true ∧ (∃ t, exec .process spongeStart = .next t ∧ t.status.err = .none) ∧
      vbs.length = M.length / r ∧ ∀ k < M.length / r, holdsBlock r M k (vbs.getD k ViewBuf.empty) := by
  intro r M vbs
  have one : M.length / r = 1 := by decide +kernel
  have bits : ∀ i < r, (ViewBuf.full (bitsToStore M)).written.getLsbD i = true ∧
      (ViewBuf.full (bitsToStore M)).bits.getLsbD i = M.getD (0 * r + i) false := by decide +kernel
  refine ⟨by decide, next_of_after (by decide +kernel), one.symm, fun k hk => ?_⟩
  obtain rfl : k = 0 := by omega
  exact bits

/-- Two states with the same written message byte and different storage and VIEWBUF. -/
theorem test_witness_ProcessDeterministic :
    let m := Memory.empty.writeWord 0 0x61#32
    let s1 : State := { small 0#1600 with msglen := 8#32, outlen := 8#32, msgbuf := m }
    let s2 : State := { small 1#1600 with msglen := 8#32, outlen := 8#32, msgbuf := m, vlen := 7#11 }
    (∃ t, exec .process s1 = .next t ∧ t.status.err = .none) ∧ (∃ t, exec .process s2 = .next t ∧ t.status.err = .none) ∧
      ∀ i < 8, m.isWritten i = true :=
  ⟨next_of_after (by decide +kernel), next_of_after (by decide +kernel), by decide +kernel⟩

theorem test_witness_ProcessOutputPrefix :
    (∃ t, exec .process { small 0#1600 with outlen := 5#32 } = .next t ∧ t.status.err = .none) ∧
      (∃ t, exec .process { small 0#1600 with outlen := 145#32 } = .next t ∧ t.status.err = .none) ∧
      (5#32).toNat ≤ (145#32).toNat :=
  ⟨next_of_after (by decide +kernel), next_of_after (by decide +kernel), by decide⟩

/-- The operands of SELECT_VARIANT and HASH_INIT at the bound, on legal parameters. -/
theorem test_witness_SelectVariantResult :
    State.reset.params.wf = true ∧ State.reset.params.rawCap128 = 256 ∧ State.reset.params.rawCap256 = 512 ∧ (7#8).toNat < 8 ∧ 8 ≤ (8#8).toNat := by decide

theorem test_witness_HashUpdateResult :
    State.reset.params.wf = true ∧ State.reset.msgbuf.wf = true ∧
      2016 + 8 * (4#8).toNat ≤ 8 * State.reset.params.msgBytes ∧ 8 * State.reset.params.msgBytes < 2041 + 8 * (1#8).toNat ∧
      ¬(1 ≤ (0#8).toNat ∧ (0#8).toNat ≤ 4) ∧ ¬(1 ≤ (5#8).toNat ∧ (5#8).toNat ≤ 4) := by decide

theorem test_witness_HashInitResult : (7#8).toNat < 8 ∧ ∃ t, exec (.hashInit 8#8) State.reset = .next t ∧
    t.status.err = .config := ⟨by decide, next_of_after (by decide +kernel)⟩

theorem test_witness_CommandAndStatusWrites :
    State.reset.status.busy = false ∧ (pending 9).status.busy = true ∧
      regAt State.reset.params 0x008 = .cmd ∧ regAt State.reset.params 0x004 = .status := by decide

theorem test_witness_AccessesWhileBusy :
    (pending 9).status.busy = true ∧ Reg.cmd ≠ .id ∧ Reg.cmd ≠ .status ∧ State.reset.status.busy = false := by decide

theorem test_witness_UnsupportedAccessRefused :
    State.reset.params.base ≤ 0xFFFF ∧ 0xFFFF < State.reset.params.base + 0x10000 ∧
      (0xFFFF - State.reset.params.base) % 4 ≠ 0 ∧ (8 - State.reset.params.base) % 4 = 0 := by decide

/-- R22 and R140: the flags and each code at its place in STATUS, read while BUSY = 1 and while BUSY = 0. -/
theorem test_status_word :
    ([.none, .config, .format, .length, .index, .illegal].map fun e =>
      (readReg (regAt State.reset.params 4) { State.reset with status := ⟨false, false, true, false, e⟩ }).1) =
        [0x04#32, 0x14#32, 0x24#32, 0x34#32, 0x44#32, 0x54#32] ∧
      (readReg .status { State.reset with status := ⟨true, true, false, true, .none⟩ }).1 = 0xB#32 := by decide +kernel

/-- R25: ACTCFG reads its own fields, not CFG's. -/
theorem test_read_actcfg : (readReg (regAt State.reset.params 0x10) (small 0#1600)).1 = 0x00900003#32 := by decide +kernel

theorem test_witness_RegisterReadBack :
    0xFFFC % 4 = 0 ∧ 0xFFFC < 0x10000 ∧ State.reset.status.busy = false ∧ State.reset.msgbuf.wf = true ∧ State.reset.params.wf = true ∧
      4 * 63 < State.reset.params.msgBytes ∧
      4 * 63 < State.reset.params.outBytes ∧
      (readReg (.viewWord 49) (writeReg (.viewWord 49) 0x80000001#32 State.reset)).1 = 0x80000001#32 ∧
      [0x000, 0x010, 0x400, 0x4FC, 0xFFFC].all
        (fun off => writeReg (regAt State.reset.params off) 7#32 State.reset == State.reset) = true := by decide +kernel

theorem test_witness_StateWindowReads :
    (readReg (.stateWord 49) { State.reset with store := 1#1600 <<< 1599 }).1 = 0x80000000#32 := by decide +kernel

/-- The reserved ranges of R20, first and last word of each, with MSG_BYTES = OUT_BYTES = 256; and the offsets beside them. -/
theorem test_witness_ReservedOffsetsInert :
    [0x028, 0x0FC, 0x1C8, 0x1FC, 0x2C8, 0x3FC, 0x500, 0xFFC, 0x1100, 0xFFFC].all
        (fun off => regAt State.reset.params off == .reserved) = true ∧
      regAt State.reset.params 0x024 = .din ∧ regAt State.reset.params 0x100 = .stateWord 0 ∧
      regAt State.reset.params 0x1C4 = .stateWord 49 ∧ regAt State.reset.params 0x2C4 = .viewWord 49 ∧
      regAt State.reset.params 0x4FC = .outWord 63 ∧ regAt State.reset.params 0x10FC = .msgWord 63 := by decide

theorem test_witness_ReadsRepeat :
    (∀ j < 32, (ViewBuf.full 5#1600).written.getLsbD (32 * 49 + j) = true) ∧
      (∀ j < 32, (Memory.empty.writeWord 4 9#32).isWritten (32 * 1 + j) = true) ∧ State.reset.status.busy = false := by
  decide +kernel

/-- Program P2's MSGBUF word: three bytes written, the fourth not. The written bits read 0x636261 (95_test_vectors.md). -/
theorem test_partly_written_word :
    let s : State := { State.reset with msgbuf := Memory.empty.writeBits 0 (bytesBits [0x61#8, 0x62#8, 0x63#8]) }
    ∀ j < 24, (readReg (.msgWord 0) s).1.getLsbD j = (0x636261#32).getLsbD j := by
  intro s j hj
  have h : s.msgbuf.isWritten j = true ∧ s.msgbuf.storedBit j = (0x636261#32).getLsbD j := by
    revert j; decide +kernel
  have hj' : j < 32 := by omega
  simp only [readReg, readIdle, show s.status.busy = false from rfl, Bool.false_eq_true, if_false]
  rw [getLsbD_wordOfBits _ _ _ hj', Nat.mul_zero, Nat.zero_add, Memory.read_of_written _ _ _ h.1, h.2]

theorem test_witness_HostMovesKeepEngineResults :
    let s : State := { State.reset with host := [.access ⟨0x18, 4, .write 8#32⟩] }
    nextMove s = .host s ∧ ∃ t, step s = .next t ∧ t.msglen = 8#32 :=
  ⟨by decide +kernel, next_of_after (by decide +kernel)⟩

/-- BUSY rises on a CMD write and falls in the ENGINE step; OVR rises on a dropped write and falls on a STATUS write. -/
theorem test_witness_FlagsLifeCycle :
    (∃ t, step { State.reset with host := [.access ⟨8, 4, .write 0#32⟩] } = .next t ∧ t.status.busy = true) ∧
      (∃ t, step (pending 0) = .next t ∧ t.status.busy = false) ∧
      (∃ t, step { pending 0 with host := [.access ⟨0x24, 4, .write 0#32⟩], sched := [.host] } = .next t ∧
        t.status.ovr = true) ∧
      ∃ t, step { State.reset with status := ⟨false, false, false, true, .none⟩, host := [.access ⟨4, 4, .write 8#32⟩] } =
        .next t ∧ t.status.ovr = false :=
  ⟨next_of_after (by decide +kernel), next_of_after (by decide +kernel), next_of_after (by decide +kernel),
    next_of_after (by decide +kernel)⟩

theorem test_witness_WaitEndsWithEngineStep :
    let s : State := { pending 9 with host := [.wait], sched := List.replicate 2 .host }
    s.Inv ∧ s.status.busy = true ∧ s.host = .wait :: [] ∧ s.sched = List.replicate 2 .host :=
  ⟨{ inv_pending with }, rfl, rfl, rfl⟩

/-- R139: a run is finished with a turn left on the schedule, and two runs that differ in PEND are observed alike (R37). -/
theorem test_end_of_run :
    finished { State.reset with sched := [.reset] } = true ∧ finished (pending 9) = false ∧
      observation { State.reset with pend := 9#32 } = observation State.reset ∧
      observation { State.reset with vlen := 5#11 } ≠ observation State.reset := by decide +kernel

/-- Two instances with BASEs of their own, the first with a command pending. -/
theorem test_witness_EnginesShareNoState :
    let P : Platform := ⟨[pending 0, State.resetWith { Params.default with base := 0x10000 }]⟩
    platformWf P = true ∧ (match platformStep P 0 with
      | .next Q => some (Q.engines.map fun t => t.status.busy)
      | _ => none) = some [false, false] ∧ (1 : Nat) ≠ 0 := by decide +kernel

end Sys2Proof.Tests
end

section
/-!
PROOFS. The host port while BUSY = 0 and the STATE window (10_state.md rule R31).
-/
namespace Sys2Proof.Machine

/-! ## The host port while BUSY = 0 (R44, R48) -/

theorem readReg_idle (r : Reg) {s : State} (h : s.status.busy = false) : readReg r s = readIdle r s := by
  simp [readReg, h]

theorem writeReg_idle (r : Reg) (v : Word) {s : State} (h : s.status.busy = false) :
    writeReg r v s = writeIdle r v s := by
  simp [writeReg, h]

/-! ## The STATE window (R31) -/

theorem regAt_stateWord (p : Params) {k : Nat} (hk : k < 50) : regAt p (0x100 + 4 * k) = .stateWord k := by
  have hword : (0x100 + 4 * k - 0x100) / 4 = k := by omega
  rw [regAt, if_neg (by omega), if_pos (by omega), hword]

/-- Bit `j` of window word `k` is bit `32k + j` of the state's image. -/
theorem getLsbD_readReg_stateWord {s : State} (h : s.status.busy = false) (k : Nat) {j : Nat} (hj : j < 32) :
    (readReg (.stateWord k) s).1.getLsbD j =
      (decide (32 * k + j < s.actcfg.b) && s.store.getLsbD (32 * k + j)) := by
  have hword : (readReg (.stateWord k) s).1 = (stateImage s).extractLsb' (32 * k) 32 := by
    rw [readReg_idle _ h, readIdle]
  rw [hword, BitVec.getLsbD_extractLsb', getLsbD_stateImage]
  simp [hj]

theorem writeReg_stateWord {s : State} (h : s.status.busy = false) (k : Nat) (v : Word) :
    writeReg (.stateWord k) v s = s := by
  rw [writeReg_idle _ _ h, writeIdle]

/-- Every bit read is a bit of the storage, which reset leaves 0 (R160). -/
theorem readReg_stateWord_resetWith (p : Params) (k : Nat) :
    (readReg (.stateWord k) (State.resetWith p)).1 = 0#32 := by
  apply BitVec.eq_of_getLsbD_eq
  intro j hj
  have hstore : (State.resetWith p).store.getLsbD (32 * k + j) = false := BitVec.getLsbD_zero
  rw [getLsbD_readReg_stateWord rfl k hj, hstore, Bool.and_false, BitVec.getLsbD_zero]

/-- Settles O54: the offset map, the bits of an idle read, the ignored write, and the reset value, one lemma each. -/
theorem stateWindowReads : Obligations.StateWindowReads :=
  ⟨fun p _ hk => regAt_stateWord p hk,
    fun _ k _ hbusy _ hj => getLsbD_readReg_stateWord hbusy k hj,
    fun _ k v hbusy => writeReg_stateWord hbusy k v,
    readReg_stateWord_resetWith⟩

end Sys2Proof.Machine
end

section
/-!
PROOFS. Which accesses the host port refuses (20_memory.md rule R45).
-/
namespace Sys2Proof.Machine

theorem inWindow_iff (p : Params) (addr : Nat) :
    inWindow p addr = true ↔ p.base ≤ addr ∧ addr < p.base + 0x10000 := by
  simp [inWindow]

theorem supported_eq_false_iff (p : Params) (a : Access) :
    supported p a = false ↔ (a.addr - p.base) % 4 ≠ 0 ∨ a.width ≠ 4 := by
  rw [supported, Bool.and_eq_false_iff, beq_eq_false_iff_ne, beq_eq_false_iff_ne]

/-- The refusal comes before the direction and the register are looked at, and BUSY plays no part. -/
theorem performAccess_of_unsupported {a : Access} {s : State} (hin : inWindow s.params a.addr = true)
    (hsup : supported s.params a = false) : performAccess a s = .refused .unsupportedAccess := by
  simp [performAccess, hin, hsup]

/-- Settles O52: such an access is in the window and is not a supported one. -/
theorem unsupportedAccessRefused : Obligations.UnsupportedAccessRefused :=
  fun s a hlo hhi hbad =>
    performAccess_of_unsupported ((inWindow_iff s.params a.addr).mpr ⟨hlo, hhi⟩)
      ((supported_eq_false_iff s.params a).mpr hbad)

end Sys2Proof.Machine
end

section
/-!
PROOFS. The commands that configure, clear and read the state: CONFIGURE, CLEAR and VIEW_GET (41_cube_views.md rules R90 to
R92). Every command is its run (`exec_eq_commit`), so each is settled by the run it makes.
-/
namespace Sys2Proof.Machine

/-! ## How a run ends (R133, R148) -/

theorem complete_error {e : ErrCode} (he : e ≠ .none) (s : State) : complete e false s = failed e s := by
  simp [complete, failed, Status.completed, he]

theorem exec_of_run_raised (i : Instr) {s : State} {e : ErrCode} (h : commandRun i s = .raised e) :
    exec i s = .next (failed e s) := by
  rw [exec_eq_commit, h, commit_raised, complete_error (commandRun_raised i s e h).1]

theorem exec_of_run_done (i : Instr) {s u : State} (h : commandRun i s = .done false u) :
    exec i s = .next { u with status := okStatus s } := by
  rw [exec_eq_commit, h, commit_done, complete, commandRun_done_status i s false u h, okStatus]

/-! ## CONFIGURE (R90) -/

theorem runConfigure_legal {s : State} (h : s.cfg.legal = true) :
    runConfigure s = .done false { s with actcfg := s.cfg, store := 0#1600 } := if_pos h

theorem runConfigure_illegal {s : State} (h : ¬s.cfg.legal = true) : runConfigure s = .raised .config := if_neg h

/-- Settles O23: the two ranges are the legality of CFG, which decides what the run does. -/
theorem configureApplies : Obligations.ConfigureApplies :=
  ⟨by decide, fun s =>
    ⟨fun h => exec_of_run_done .configure (runConfigure_legal ((legal_iff s.cfg).mpr h)),
      fun h => exec_of_run_raised .configure (runConfigure_illegal (mt (legal_iff s.cfg).mp h))⟩⟩

/-! ## CLEAR (R91) -/

theorem getLsbD_putState_zero (b : Nat) (S : Store) (i : Nat) :
    (putState b S 0#1600).getLsbD i = (decide (b ≤ i) && S.getLsbD i) := by
  rw [getLsbD_putState]
  by_cases h : i < b
  · simp [h]
  · simp [h, Nat.le_of_not_lt h]

/-- Settles O24: the run stages a write of zeros to the `b` bits of the state (R18). -/
theorem clearZeroesState : Obligations.ClearZeroesState :=
  ⟨by decide, fun s =>
    ⟨_, exec_of_run_done .clear rfl, rfl, getLsbD_putState_zero s.actcfg.b s.store⟩⟩

/-! ## The length of a view (R86, R87) -/

theorem CfgReg.w_pos (c : CfgReg) : 0 < c.w := Nat.two_pow_pos _

theorem CfgReg.w_le_of_legal {c : CfgReg} (h : c.legal = true) : c.w ≤ 64 := by
  obtain ⟨hl, -, -⟩ := (legal_iff c).mp h
  exact Nat.pow_le_pow_right (n := 2) (by decide) hl

/-- No view is longer than the state. -/
theorem viewLen_le (kind : ViewKind) {w : Nat} (hw : 0 < w) (sel : ViewSel) : viewLen kind w sel ≤ 25 * w := by
  rw [viewLen]
  split
  · exact Nat.le_refl _
  · cases kind <;> simp only [singleLen] <;> omega

/-- A valid view has one of the six kinds (R62). -/
theorem exists_kind_of_viewValid {w : Nat} {sel : ViewSel} (h : viewValid w sel = true) :
    ∃ kind, checkView w sel = .ok kind ∧ kindOfCode sel.kind = some kind := by
  obtain ⟨kind, hcheck⟩ := (viewValid_iff w sel).mp h
  exact ⟨kind, hcheck, ((checkView_ok_iff w sel kind).mp hcheck).1⟩

theorem viewLength_le {w : Nat} (hw : 0 < w) {sel : ViewSel} (h : viewValid w sel = true) :
    viewLength w sel ≤ 25 * w := by
  obtain ⟨kind, -, hkind⟩ := exists_kind_of_viewValid h
  rw [← viewLen_eq w sel kind hkind]
  exact viewLen_le kind hw sel

/-- The length of a valid view fits in the 11 bits of VLEN (R29). -/
theorem toNat_ofNat_viewLength {c : CfgReg} (hlegal : c.legal = true) {sel : ViewSel}
    (hvalid : viewValid c.w sel = true) :
    (BitVec.ofNat 11 (viewLength c.w sel)).toNat = viewLength c.w sel := by
  have hlen := viewLength_le c.w_pos hvalid
  have hw := CfgReg.w_le_of_legal hlegal
  rw [BitVec.toNat_ofNat, Nat.mod_eq_of_lt (by omega)]

/-! ## VIEW_GET (R92) -/

theorem runViewGet_of_checkView_error {s : State} {sel : ViewSel} {e : ErrCode}
    (h : checkView s.actcfg.w sel = .error e) : runViewGet sel s = .raised e := by
  rw [runViewGet, h]

/-- The run in the coordinates of the view tables. -/
theorem runViewGet_of_viewValid {s : State} {sel : ViewSel} (h : viewValid s.actcfg.w sel = true) :
    runViewGet sel s =
      .done false
        { s with
          viewbuf := ViewBuf.full (gather (viewBit s.actcfg.w sel s.store) (viewLength s.actcfg.w sel))
          vlen := BitVec.ofNat 11 (viewLength s.actcfg.w sel) } := by
  obtain ⟨kind, hcheck, hkind⟩ := exists_kind_of_viewValid h
  have hbits : (fun k => s.store.getLsbD (viewIdx kind s.actcfg.w sel k)) = viewBit s.actcfg.w sel s.store := by
    funext k
    rw [viewIdx_eq _ _ _ hkind]
    rfl
  rw [runViewGet, hcheck]
  simp only [viewLen_eq _ _ _ hkind, hbits]

/-- Every bit of a buffer a command fills is written, and a gathered bit is the source's below the length and 0 above. -/
theorem full_gather_bits (f : Nat → Bool) (n : Nat) {k : Nat} (hk : k < 1600) :
    (ViewBuf.full (gather f n)).written.getLsbD k = true ∧
      (ViewBuf.full (gather f n)).bits.getLsbD k = (decide (k < n) && f k) := by
  constructor
  · rw [ViewBuf.full, BitVec.getLsbD_allOnes, decide_eq_true hk]
  · rw [ViewBuf.full, getLsbD_gather, decide_eq_true hk, Bool.true_and]

/-- Settles O26: the two errors are those of `check_view`; on a valid view the run gathers the view's bits, and their number
fits in VLEN. -/
theorem viewGetResult : Obligations.ViewGetResult :=
  ⟨by decide, fun s sel =>
    ⟨fun hkind => exec_of_run_raised (.viewGet sel) (runViewGet_of_checkView_error (checkView_reserved _ sel hkind)),
      fun hkind hall hout =>
        exec_of_run_raised (.viewGet sel)
          (runViewGet_of_checkView_error (checkView_out_of_range _ sel hkind hall hout)),
      fun hlegal hvalid =>
        ⟨_, exec_of_run_done (.viewGet sel) (runViewGet_of_viewValid hvalid), rfl,
          toNat_ofNat_viewLength hlegal hvalid, fun _ hk => full_gather_bits _ _ hk⟩⟩⟩

end Sys2Proof.Machine
end

section
/-!
PROOFS. What the round-function commands share: each applies one mapping to the state (42_round_function.md rules R106 to
R112), which reaches the `b` bits of the cube and no other part of the state but STATUS.
-/
namespace Sys2Proof.Machine

theorem commandRun_theta (s : State) : commandRun .theta s = runMapping (fun l S => theta (2 ^ l) S) s := rfl

theorem commandRun_rho (s : State) : commandRun .rho s = runMapping (fun l S => rho (2 ^ l) S) s := rfl

theorem commandRun_pi (s : State) : commandRun .pi s = runMapping (fun l S => pi (2 ^ l) S) s := rfl

theorem commandRun_khi (s : State) : commandRun .khi s = runMapping (fun l S => khi (2 ^ l) S) s := rfl

theorem commandRun_iota (ir : BitVec 8) (s : State) :
    commandRun (.iota ir) s = runMapping (fun l S => iota l S (operandA ir)) s := rfl

/-- The state a round-function command leaves: `g` of the active `l` on the `b` bits of the state, and STATUS completed. -/
def mapped (g : Nat → Store → Store) (s : State) : State :=
  { s with store := putState s.actcfg.b s.store (g s.actcfg.lNat s.store), status := okStatus s }

theorem exec_of_runMapping {i : Instr} {g : Nat → Store → Store} {s : State} (hrun : commandRun i s = runMapping g s)
    (hlegal : s.actcfg.legal = true) : exec i s = .next (mapped g s) :=
  exec_of_run_done i (hrun.trans (runMapping_legal g s hlegal))

theorem writesOnlyCube_mapped (g : Nat → Store → Store) (s : State) : WritesOnlyCube s (mapped g s) := by
  refine ⟨rfl, fun i hi => ?_⟩
  rw [mapped, getLsbD_putState, if_neg (Nat.not_lt.mpr hi)]

theorem cubeBit_mapped (g : Nat → Store → Store) (s : State) {x y z : Nat} (hx : x < 5) (hy : y < 5)
    (hz : z < s.actcfg.w) :
    cubeBit s.actcfg.w (mapped g s).store x y z = cubeBit s.actcfg.w (g s.actcfg.lNat s.store) x y z := by
  have hin : flatIdx s.actcfg.w x y z < s.actcfg.b := flatIdx_lt _ x y z hx hy hz
  rw [cubeBit, cubeBit, mapped, getLsbD_putState, if_pos hin]

/-- A round-function command settles every bit of the cube once the bits of its mapping are known. -/
theorem exec_mapping_bits {i : Instr} {g : Nat → Store → Store} {s : State} {bit : Nat → Nat → Nat → Bool}
    (hrun : commandRun i s = runMapping g s) (hlegal : s.actcfg.legal = true)
    (hbit : ∀ x < 5, ∀ y < 5, ∀ z < s.actcfg.w, cubeBit s.actcfg.w (g s.actcfg.lNat s.store) x y z = bit x y z) :
    ∃ t, exec i s = .next t ∧ WritesOnlyCube s t ∧
      ∀ x < 5, ∀ y < 5, ∀ z < s.actcfg.w, cubeBit s.actcfg.w t.store x y z = bit x y z :=
  ⟨mapped g s, exec_of_runMapping hrun hlegal, writesOnlyCube_mapped g s,
    fun x hx y hy z hz => (cubeBit_mapped g s hx hy hz).trans (hbit x hx y hy z hz)⟩

end Sys2Proof.Machine
end

section
/-!
PROOFS. The step mappings θ, ρ, π and χ, bit by bit (42_round_function.md rules R96, R97, R99, R100): the lane form of R105,
read at one bit.
-/
namespace Sys2Proof.Machine

section
variable {w : Nat} (hw64 : w ≤ 64) (S : Store) {x y z : Nat}
include hw64

/-! ## Lanes, read below the lane depth -/

theorem getLsbD_laneOf_of_lt (x y : Nat) (hz : z < w) : (laneOf w S x y).getLsbD z = cubeBit w S x y z := by
  rw [getLsbD_laneOf, decide_eq_true hz, decide_eq_true (Nat.lt_of_lt_of_le hz hw64), Bool.true_and, Bool.true_and]

theorem getLsbD_rotLane_laneOf (x y : Nat) {u : Nat} (hu : u < w) (hz : z < w) :
    (rotLane w (laneOf w S x y) u).getLsbD z = cubeBit w S x y ((z + (w - u)) % w) := by
  rw [getLsbD_rotLane w hw64 _ (laneOf_bit_ge w S x y) u hu z hz,
    getLsbD_laneOf_of_lt hw64 S x y (Nat.mod_lt _ (by omega))]

/-! ## θ (R96) -/

theorem getLsbD_columnParity (x : Nat) (hz : z < w) : (columnParity w S x).getLsbD z = parity w S x z := by
  simp only [columnParity, parity, BitVec.getLsbD_xor, getLsbD_laneOf_of_lt hw64 S _ _ hz]

omit hw64 in
theorem columnParity_bit_ge (x z : Nat) (hz : w ≤ z) : (columnParity w S x).getLsbD z = false := by
  simp [columnParity, laneOf_bit_ge w S _ _ z hz]

omit hw64 in
/-- A rotation by 1 reads bit `z - 1`; for `w = 1` the amount is 0 and the one bit is its own neighbour. -/
theorem rotate_one_source (hz : z < w) : (z + (w - 1 % w)) % w = (z + w - 1) % w := by
  obtain rfl | hw : w = 1 ∨ 1 < w := by omega
  · rw [Nat.mod_one, Nat.mod_one]
  · rw [Nat.mod_eq_of_lt hw, Nat.add_sub_assoc hw.le]

theorem getLsbD_thetaEffect (x : Nat) (hz : z < w) :
    (thetaEffect w S x).getLsbD z =
      (parity w S ((x + 4) % 5) z ^^ parity w S ((x + 1) % 5) ((z + w - 1) % w)) := by
  have hw : 0 < w := by omega
  have hrot : (rotLane w (columnParity w S ((x + 1) % 5)) (1 % w)).getLsbD z =
      parity w S ((x + 1) % 5) ((z + w - 1) % w) := by
    rw [getLsbD_rotLane w hw64 _ (columnParity_bit_ge S _) _ (Nat.mod_lt 1 hw) z hz, rotate_one_source hz,
      getLsbD_columnParity hw64 S _ (Nat.mod_lt _ hw)]
  rw [thetaEffect, BitVec.getLsbD_xor, getLsbD_columnParity hw64 S _ hz, hrot]

theorem cubeBit_theta (hx : x < 5) (hy : y < 5) (hz : z < w) :
    cubeBit w (theta w S) x y z =
      (cubeBit w S x y z ^^ (parity w S ((x + 4) % 5) z ^^ parity w S ((x + 1) % 5) ((z + w - 1) % w))) := by
  rw [theta, cubeBit_ofLanes w hw64 _ x y z hx hy hz, BitVec.getLsbD_xor, getLsbD_laneOf_of_lt hw64 S x y hz,
    getLsbD_thetaEffect hw64 S x hz]

/-! ## ρ, π and χ (R97, R99, R100) -/

theorem cubeBit_rho (hx : x < 5) (hy : y < 5) (hz : z < w) :
    cubeBit w (rho w S) x y z = cubeBit w S x y ((z + (w - rhoOffset x y % w)) % w) := by
  have hu : rhoOffset x y % w < w := Nat.mod_lt _ (by omega)
  rw [rho, cubeBit_ofLanes w hw64 _ x y z hx hy hz, getLsbD_rotLane_laneOf hw64 S x y hu hz]

theorem cubeBit_pi (hx : x < 5) (hy : y < 5) (hz : z < w) :
    cubeBit w (pi w S) x y z = cubeBit w S ((x + 3 * y) % 5) x z := by
  rw [pi, cubeBit_ofLanes w hw64 _ x y z hx hy hz, getLsbD_laneOf_of_lt hw64 S _ _ hz]

theorem cubeBit_khi (hx : x < 5) (hy : y < 5) (hz : z < w) :
    cubeBit w (khi w S) x y z =
      (cubeBit w S x y z ^^ (!cubeBit w S ((x + 1) % 5) y z && cubeBit w S ((x + 2) % 5) y z)) := by
  have hz64 : z < 64 := Nat.lt_of_lt_of_le hz hw64
  rw [khi, cubeBit_ofLanes w hw64 _ x y z hx hy hz]
  simp only [BitVec.getLsbD_xor, BitVec.getLsbD_and, BitVec.getLsbD_not, getLsbD_laneOf_of_lt hw64 S _ _ hz, hz64,
    decide_true, Bool.true_and]

end

/-! ## The walk of ρ (R97, R98) -/

/-- The walk stays in the plane of the 25 lanes. -/
theorem rhoWalk_lt (k : Nat) : (rhoWalk k).1 < 5 ∧ (rhoWalk k).2 < 5 := by
  induction k with
  | zero => decide
  | succ k ih => exact ⟨ih.2, Nat.mod_lt _ (by decide)⟩

/-- The table of R98 holds, for the lane at step `k` of the walk, the offset of that step. -/
theorem rhoOffset_rhoWalk : ∀ k < 24, rhoOffset (rhoWalk k).1 (rhoWalk k).2 = (k + 1) * (k + 2) / 2 := by decide

theorem rhoWalk_covers : ∀ x < 5, ∀ y < 5, (x, y) ≠ (0, 0) → ∃ k < 24, rhoWalk k = (x, y) := by decide

/-- A rotation by 0 keeps the lane. -/
theorem cubeBit_rho_origin {w : Nat} (hw64 : w ≤ 64) (S : Store) {z : Nat} (hz : z < w) :
    cubeBit w (rho w S) 0 0 z = cubeBit w S 0 0 z := by
  have hoffset : rhoOffset 0 0 = 0 := rfl
  rw [cubeBit_rho hw64 S (by decide) (by decide) hz, hoffset, Nat.zero_mod, Nat.sub_zero, Nat.add_mod_right,
    Nat.mod_eq_of_lt hz]

/-! ## The commands -/

/-- Settles O30: the lane XORed with D[x], read at one bit. -/
theorem thetaBits : Obligations.ThetaBits := fun s hlegal =>
  exec_mapping_bits (commandRun_theta s) hlegal fun _ hx _ hy _ hz =>
    cubeBit_theta (CfgReg.w_le_of_legal hlegal) s.store hx hy hz

/-- Settles O31: each lane is rotated by its table entry, which is 0 at the origin and the walk's offset elsewhere. -/
theorem rhoBits : Obligations.RhoBits := by
  refine ⟨fun s hlegal => ?_, rhoWalk_covers⟩
  have hw64 := CfgReg.w_le_of_legal hlegal
  obtain ⟨t, hexec, hframe, hbits⟩ := exec_mapping_bits (commandRun_rho s) hlegal fun _ _ _ _ _ _ => rfl
  refine ⟨t, hexec, hframe, fun z hz => ?_, fun k hk z hz => ?_⟩
  · exact (hbits 0 (by decide) 0 (by decide) z hz).trans (cubeBit_rho_origin hw64 s.store hz)
  · obtain ⟨hx, hy⟩ := rhoWalk_lt k
    rw [← rhoOffset_rhoWalk k hk]
    exact (hbits _ hx _ hy z hz).trans (cubeBit_rho hw64 s.store hx hy hz)

/-- Settles O32: each lane is a lane of the old state. -/
theorem piBits : Obligations.PiBits := fun s hlegal =>
  exec_mapping_bits (commandRun_pi s) hlegal fun _ hx _ hy _ hz =>
    cubeBit_pi (CfgReg.w_le_of_legal hlegal) s.store hx hy hz

/-- Settles O33: the three lanes read are lanes of the old state. -/
theorem khiBits : Obligations.KhiBits := fun s hlegal =>
  exec_mapping_bits (commandRun_khi s) hlegal fun _ hx _ hy _ hz =>
    cubeBit_khi (CfgReg.w_le_of_legal hlegal) s.store hx hy hz

end Sys2Proof.Machine
end

section
/-!
PROOFS. The round constants and ι (42_round_function.md rules R101 to R103): the ROM is what the LFSR gives, the LFSR has
period 255, and RC[ir] has its bits at the positions `2^j - 1` of lane (0,0).
-/
namespace Sys2Proof.Machine

/-! ## The round-constant bits (R101, R102) -/

theorem lfsr_255 : lfsr 255 = lfsr 0 := by decide +kernel

/-- The LFSR is back at its start after 255 steps, so it repeats from there on. -/
theorem lfsr_periodic : Function.Periodic lfsr 255 := by
  intro t
  induction t with
  | zero => exact lfsr_255
  | succ t ih => rw [Nat.add_right_comm, lfsr, ih, lfsr]

theorem rc_eq_lfsrBit (t : Nat) : rc t = lfsrBit t := rcTab_eq_lfsr _ (Nat.mod_lt t (by decide))

theorem rc_eq_lfsr (t : Nat) : rc t = (lfsr t).getLsbD 0 := by
  rw [rc_eq_lfsrBit, lfsrBit, lfsr_periodic.map_mod_nat]

theorem rc_add_255 (t : Nat) : rc (t + 255) = rc t := by rw [rc, rc, Nat.add_mod_right]

/-- The ROM is the printed table, bit by bit (R102). -/
theorem rc_eq_rcListed : ∀ t < 255, rc t = rcListed t := by decide +kernel

/-- Settles O35: the ROM against the LFSR, reduced and not, its period, and the printed table. -/
theorem roundConstantsAreLfsr : Obligations.RoundConstantsAreLfsr :=
  ⟨fun t => ⟨rc_eq_lfsrBit t, rc_eq_lfsr t, rc_add_255 t⟩, by decide, rc_eq_rcListed⟩

/-! ## RC[ir] (R103) -/

theorem rcPosition_lt {l j : Nat} (hj : j ≤ l) : 2 ^ j - 1 < 2 ^ l := by
  have hle : 2 ^ j ≤ 2 ^ l := Nat.pow_le_pow_right (by decide) hj
  have hpos : 0 < 2 ^ j := Nat.two_pow_pos j
  omega

/-- The bits of RC[ir] built from its first `n` positions. -/
theorem getLsbD_rcLaneBelow (ir : Nat) {n : Nat} (hn : n ≤ 7) (z : Nat) :
    (rcLaneBelow ir n).getLsbD z = (List.range n).any fun j => z == 2 ^ j - 1 && lfsrBit (j + 7 * ir) := by
  induction n with
  | zero => simp [rcLaneBelow]
  | succ n ih =>
    have hpos : 2 ^ n - 1 < 64 := rcPosition_lt (l := 6) (by omega)
    have hone : (1#64 <<< (2 ^ n - 1)).getLsbD z = (z == 2 ^ n - 1) := by
      rw [← BitVec.twoPow_eq, BitVec.getLsbD_twoPow, decide_eq_true hpos, Bool.true_and, beq_eq_decide]
      exact decide_eq_decide.mpr eq_comm
    rw [rcLaneBelow, BitVec.getLsbD_or, ih (by omega), List.range_succ, List.any_append, rc_eq_lfsrBit]
    cases h : lfsrBit (n + 7 * ir) <;> simp [hone, h, -List.any_eq_true]

theorem getLsbD_rcLane {l : Nat} (hl : l ≤ 6) (ir z : Nat) :
    (rcLane l ir).getLsbD z = roundConstantBit l ir z := getLsbD_rcLaneBelow ir (by omega) z

/-- RC[ir] lies in one lane: every position `2^j - 1` is below `w` (R103). -/
theorem roundConstantBit_of_le {l z : Nat} (ir : Nat) (hz : 2 ^ l ≤ z) : roundConstantBit l ir z = false := by
  rw [roundConstantBit, List.any_eq_false]
  intro j hj
  have hlt : 2 ^ j - 1 < 2 ^ l := rcPosition_lt (Nat.lt_succ_iff.mp (List.mem_range.mp hj))
  simp [show z ≠ 2 ^ j - 1 by omega]

/-! ## ι (R103) -/

theorem flatIdx_origin (w z : Nat) : flatIdx w 0 0 z = z := by simp [flatIdx]

/-- Every lane but (0,0) lies at `w` or above. -/
theorem le_flatIdx (w : Nat) {x y : Nat} (h : ¬(x = 0 ∧ y = 0)) (z : Nat) : w ≤ flatIdx w x y z := by
  have hlane : w * 1 ≤ w * (5 * y + x) := Nat.mul_le_mul_left w (by omega)
  rw [flatIdx]
  omega

theorem roundConstantBit_flatIdx (l ir x y z : Nat) :
    roundConstantBit l ir (flatIdx (2 ^ l) x y z) = (decide (x = 0 ∧ y = 0) && roundConstantBit l ir z) := by
  by_cases h : x = 0 ∧ y = 0
  · obtain ⟨rfl, rfl⟩ := h
    simp [flatIdx_origin]
  · simp [h, roundConstantBit_of_le ir (le_flatIdx (2 ^ l) h z)]

theorem cubeBit_iota {l : Nat} (hl : l ≤ 6) (S : Store) (ir : Nat) {x y z : Nat} (hx : x < 5) (hy : y < 5)
    (hz : z < 2 ^ l) :
    cubeBit (2 ^ l) (iota l S ir) x y z =
      (cubeBit (2 ^ l) S x y z ^^ (decide (x = 0 ∧ y = 0) && roundConstantBit l ir z)) := by
  have hin : flatIdx (2 ^ l) x y z < 1600 := by
    have hlt := flatIdx_lt (2 ^ l) x y z hx hy hz
    have hw : 2 ^ l ≤ 64 := Nat.pow_le_pow_right (n := 2) (by decide) hl
    omega
  rw [cubeBit, iota, BitVec.getLsbD_xor, BitVec.getLsbD_setWidth, decide_eq_true hin, Bool.true_and,
    getLsbD_rcLane hl, roundConstantBit_flatIdx, cubeBit]

/-- Settles O34: the bits of RC[ir] XORed into the storage, all of them in lane (0,0). -/
theorem iotaBits : Obligations.IotaBits := fun s ir hlegal =>
  exec_mapping_bits (commandRun_iota ir s) hlegal fun _ hx _ hy _ hz =>
    cubeBit_iota ((legal_iff s.actcfg).mp hlegal).1 s.store (operandA ir) hx hy hz

end Sys2Proof.Machine
end

section
/-!
PROOFS. The padding rule (43_sponge.md rules R113, R114).
-/
namespace Sys2Proof.Machine

/-- The number of zeros is the remainder itself, which is not negative (R113). -/
theorem coe_padZeros {r : Nat} (hr : 1 ≤ r) (m : Nat) : (padZeros r m : Int) = (-(m : Int) - 2) % (r : Int) :=
  Int.toNat_of_nonneg (Int.emod_nonneg _ (by omega))

theorem padZeros_lt {r : Nat} (hr : 1 ≤ r) (m : Nat) : padZeros r m < r := by
  have hlt := Int.emod_lt_of_pos (-(m : Int) - 2) (show (0 : Int) < r by omega)
  rw [← coe_padZeros hr] at hlt
  exact Int.ofNat_lt.mp hlt

/-- The padded message is a whole number of blocks (R114 (1)). -/
theorem dvd_add_padZeros {r : Nat} (hr : 1 ≤ r) (m : Nat) : r ∣ m + padZeros r m + 2 := by
  have hdvd := Int.dvd_self_sub_emod (x := -(m : Int) - 2) (m := r)
  rw [← coe_padZeros hr] at hdvd
  have hneg : -(m : Int) - 2 - padZeros r m = -((m + padZeros r m + 2 : Nat) : Int) := by push_cast; ring
  rw [hneg, Int.dvd_neg] at hdvd
  exact Int.natCast_dvd_natCast.mp hdvd

/-- The two properties name one number: any number of zeros below `r` that fills the last block is R113's. -/
theorem padZeros_eq_of_dvd {r m j : Nat} (hj : j < r) (hdvd : r ∣ m + j + 2) : padZeros r m = j := by
  have hmod : m + 2 + padZeros r m ≡ m + 2 + j [MOD r] := by
    have h0 : r ∣ m + 2 + padZeros r m := by
      simpa only [Nat.add_right_comm] using dvd_add_padZeros (Nat.one_le_of_lt hj) m
    have h1 : r ∣ m + 2 + j := by simpa only [Nat.add_right_comm] using hdvd
    exact ((Nat.modEq_zero_iff_dvd).mpr h0).trans ((Nat.modEq_zero_iff_dvd).mpr h1).symm
  exact (Nat.ModEq.add_left_cancel' _ hmod).eq_of_lt_of_lt (padZeros_lt (Nat.one_le_of_lt hj) m) hj

@[simp] theorem length_padding (r m : Nat) : (padding r m).length = padZeros r m + 2 := by simp [padding]

/-- The first and the last bit are 1, and the `j` between them are 0 (R113). -/
theorem getD_padding (r m : Nat) {k : Nat} (hk : k < padZeros r m + 2) :
    (padding r m).getD k false = (decide (k = 0) || decide (k = padZeros r m + 1)) := by
  cases k with
  | zero => simp [padding]
  | succ k =>
    rw [padding, List.getD_cons_succ, List.getD_eq_getElem?_getD, List.getElem?_append, List.length_replicate]
    by_cases hlast : k = padZeros r m
    · simp [hlast]
    · have hlt : k < padZeros r m := by omega
      simp [hlt, hlast]

/-- A multiple of `r` less than `r` above `n` is `n` rounded up to a multiple of `r`. -/
theorem add_eq_mul_ceilDiv {r n j : Nat} (hj : j < r) (hdvd : r ∣ n + j) : n + j = r * ((n + (r - 1)) / r) := by
  obtain ⟨q, hq⟩ := hdvd
  have hdiv : (n + (r - 1)) / r = q := by
    rw [Nat.div_eq_iff (by omega), Nat.mul_comm q r]
    omega
  rw [hq, hdiv]

/-- Settles O40: R113's number is below `r` and fills the last block; no other number does both, which gives the three
boundary cases. -/
theorem paddingShape : Obligations.PaddingShape := by
  intro r m hr
  have hlt := padZeros_lt hr m
  have hdvd := dvd_add_padZeros hr m
  have hdivmod := Nat.div_add_mod m r
  refine ⟨length_padding r m, Nat.mod_eq_zero_of_dvd hdvd, hlt, fun k hk => getD_padding r m hk, ?_, ?_, ?_, ?_⟩
  · rw [Nat.add_right_comm] at hdvd ⊢
    exact add_eq_mul_ceilDiv hlt hdvd
  · intro hm
    exact padZeros_eq_of_dvd (by omega) ⟨m / r + 1, by rw [Nat.mul_succ]; omega⟩
  · intro hm
    exact padZeros_eq_of_dvd (by omega) ⟨m / r + 2, by rw [Nat.mul_add]; omega⟩
  · intro hone
    omega

end Sys2Proof.Machine
end

section
/-!
PROOFS. The sponge commands as runs, each with the state it stages (43_sponge.md rules R117, R118, R120), and the statements
that follow from them: what EXTRACT_BLOCK does (R118) and what PROCESS depends on (R122).
-/
namespace Sys2Proof.Machine

/-! ## EXTRACT_BLOCK (R118) -/

/-- The state EXTRACT_BLOCK leaves: the rate part in VIEWBUF with zeros after it, and VLEN = r. -/
def extracted (s : State) : State :=
  { s with
    viewbuf := ViewBuf.full (gather s.store.getLsbD s.actcfg.rate.toNat)
    vlen := s.actcfg.rate
    status := okStatus s }

theorem exec_extractBlock (s : State) : exec .extractBlock s = .next (extracted s) := exec_of_run_done .extractBlock rfl

/-- Settles O42: the run gathers the first `r` bits of the storage into a buffer it fills. -/
theorem extractBlockResult : Obligations.ExtractBlockResult :=
  ⟨by decide, fun s => ⟨extracted s, exec_extractBlock s, rfl, fun _ hk => full_gather_bits _ _ hk⟩⟩

/-! ## PROCESS (R120) -/

/-- What the sponge gives on the operands PROCESS reads: the output bits and the final `T` (R115, R120). -/
def processSponge (s : State) : Bits × Store :=
  sponge s.actcfg.lNat s.actcfg.rate.toNat (messageOperand s) s.suffix.suffix s.outlen.toNat

/-- The state PROCESS stages (R120). -/
def processed (s : State) : State :=
  { s.drew s.msglen.toNat with
    outbuf := Memory.full (toBytesN s.params.outBytes (processSponge s).1)
    store := putState s.actcfg.b s.store (processSponge s).2 }

/-- PROCESS stages a result exactly when its three checks pass and ACTCFG is legal, and then the one result. -/
theorem runProcess_done_iff (s : State) (k : Bool) (u : State) :
    runProcess s = .done k u ↔
      s.suffix.len.toNat ≤ 8 ∧ s.msglen.toNat ≤ 8 * s.params.msgBytes ∧
        (s.outlen.toNat + 7) / 8 ≤ s.params.outBytes ∧ s.actcfg.legal = true ∧ k = false ∧ u = processed s := by
  rw [runProcess]
  split_ifs with hsuffix hmsg hout hlegal
  · exact ⟨nofun, fun ⟨hle, _⟩ => absurd hle (Nat.not_le.mpr hsuffix)⟩
  · exact ⟨nofun, fun ⟨_, hle, _⟩ => absurd hle (Nat.not_le.mpr hmsg)⟩
  · exact ⟨nofun, fun ⟨_, _, hle, _⟩ => absurd hle (Nat.not_le.mpr hout)⟩
  · constructor
    · rintro ⟨⟩
      exact ⟨Nat.not_lt.mp hsuffix, Nat.not_lt.mp hmsg, Nat.not_lt.mp hout, hlegal, rfl, rfl⟩
    · rintro ⟨-, -, -, -, rfl, rfl⟩
      rfl
  · exact ⟨nofun, fun ⟨_, _, _, hl, _⟩ => absurd hl hlegal⟩

/-- A PROCESS that completes without error had room for its output and has left the one result. -/
theorem exec_process_ok {s t : State} (hexec : exec .process s = .next t) (hok : t.status.err = .none) :
    (s.outlen.toNat + 7) / 8 ≤ s.params.outBytes ∧ t = complete .none false (processed s) := by
  rw [exec_eq_commit, commit_next_iff] at hexec
  obtain ⟨k, u, hrun, rfl⟩ | ⟨e, hrun, rfl⟩ := hexec
  · obtain ⟨-, -, hout, -, rfl, rfl⟩ := (runProcess_done_iff s k u).mp hrun
    exact ⟨hout, rfl⟩
  · exact absurd hok (commandRun_raised .process s e hrun).1

/-- Bit `i` of the output stands in OUTBUF at bit `i` (R120). -/
theorem storedBit_processed {s : State} {i : Nat} (hi : i < 8 * s.params.outBytes) :
    (processed s).outbuf.storedBit i = (processSponge s).1.getD i false := by
  rw [processed, (Memory.bits_full _ i).2, getLsbD_toBytesN _ _ _ _ (by omega) (by omega), Nat.div_add_mod]

theorem getLsbD_store_processed {s : State} {i : Nat} (hi : i < s.actcfg.b) :
    (processed s).store.getLsbD i = (processSponge s).2.getLsbD i := by
  rw [processed, getLsbD_putState, if_pos hi]

/-! ## PROCESS depends on its operands alone (R122) -/

theorem bitsOf_congr {f g : Nat → Bool} {n : Nat} (h : ∀ i < n, f i = g i) : bitsOf f n = bitsOf g n :=
  List.map_congr_left fun i hi => h i (List.mem_range.mp hi)

/-- A message whose bits have all been written holds no draw. -/
theorem messageOperand_of_written {s : State} (h : ∀ i < s.msglen.toNat, s.msgbuf.isWritten i = true) :
    messageOperand s = bitsOf s.msgbuf.storedBit s.msglen.toNat :=
  bitsOf_congr fun i hi => Memory.read_of_written _ _ _ (h i hi)

/-- Settles O45: the two commands read the same message, so they run one sponge. -/
theorem processDeterministic : Obligations.ProcessDeterministic := by
  intro s1 s2 t1 t2 hexec1 hexec2 hok1 hok2 hparams hcfg hsuffix hmsglen houtlen hbits
  have hmessage : messageOperand s1 = messageOperand s2 := by
    rw [messageOperand_of_written fun i hi => (hbits i hi).1,
      messageOperand_of_written fun i hi => (hbits i (hmsglen ▸ hi)).2.1, ← hmsglen]
    exact bitsOf_congr fun i hi => (hbits i hi).2.2
  have hsponge : processSponge s1 = processSponge s2 := by
    rw [processSponge, processSponge, hcfg, hmessage, hsuffix, houtlen]
  obtain ⟨-, rfl⟩ := exec_process_ok hexec1 hok1
  obtain ⟨-, rfl⟩ := exec_process_ok hexec2 hok2
  constructor
  · rw [complete_outbuf, complete_outbuf, processed, processed, hsponge, hparams]
  · intro i hi
    rw [complete_store, complete_store, getLsbD_store_processed hi, getLsbD_store_processed (hcfg ▸ hi), hsponge]

end Sys2Proof.Machine
end

section
/-!
PROOFS. Keccak-f[b] reads the `b` bits of the state and nothing above them (42_round_function.md rules R17, R18, R112): the
storage above `b`, which the commands keep, plays no part.
-/
namespace Sys2Proof.Machine

/-- Two vectors agree in their first `n` bits. -/
def EqBelow (n : Nat) (S T : Store) : Prop := ∀ i < n, S.getLsbD i = T.getLsbD i

theorem EqBelow.xor {n : Nat} {S T : Store} (h : EqBelow n S T) (P : Store) : EqBelow n (S ^^^ P) (T ^^^ P) := by
  intro i hi
  rw [BitVec.getLsbD_xor, BitVec.getLsbD_xor, h i hi]

/-- A write of the state puts the first `b` bits in place (R18). -/
theorem eqBelow_putState (b : Nat) (old T : Store) : EqBelow b (putState b old T) T := by
  intro i hi
  rw [getLsbD_putState, if_pos hi]

theorem laneOf_congr {w : Nat} {S T : Store} (h : EqBelow (25 * w) S T) {x y : Nat} (hx : x < 5) (hy : y < 5) :
    laneOf w S x y = laneOf w T x y := by
  apply BitVec.eq_of_getLsbD_eq
  intro z _
  rw [getLsbD_laneOf, getLsbD_laneOf]
  by_cases hz : z < w
  · rw [cubeBit, cubeBit, h _ (flatIdx_lt w x y z hx hy hz)]
  · simp [hz]

/-- A state built from its lanes uses the 25 lanes of the cube only. -/
theorem ofLanes_congr (w : Nat) {f g : Nat → Nat → Lane} (h : ∀ x < 5, ∀ y < 5, f x y = g x y) :
    ofLanes w f = ofLanes w g := by
  have hupto : ∀ n ≤ 25, lanesUpTo w f n = lanesUpTo w g n := by
    intro n
    induction n with
    | zero => intro _; rfl
    | succ n ih =>
      intro hn
      rw [lanesUpTo, lanesUpTo, ih (by omega), h (n % 5) (by omega) (n / 5) (by omega)]
  exact hupto 25 (Nat.le_refl _)

theorem columnParity_congr {w : Nat} {S T : Store} (h : EqBelow (25 * w) S T) {x : Nat} (hx : x < 5) :
    columnParity w S x = columnParity w T x := by
  simp only [columnParity, laneOf_congr h hx (show 0 < 5 by decide), laneOf_congr h hx (show 1 < 5 by decide),
    laneOf_congr h hx (show 2 < 5 by decide), laneOf_congr h hx (show 3 < 5 by decide),
    laneOf_congr h hx (show 4 < 5 by decide)]

/-- θ builds its whole result from the lanes of the cube, so it gives one vector for both. -/
theorem theta_congr {w : Nat} {S T : Store} (h : EqBelow (25 * w) S T) : theta w S = theta w T := by
  apply ofLanes_congr
  intro x hx y hy
  rw [laneOf_congr h hx hy, thetaEffect, thetaEffect, columnParity_congr h (Nat.mod_lt _ (by decide)),
    columnParity_congr h (Nat.mod_lt _ (by decide))]

theorem roundFn_congr {l : Nat} {S T : Store} (h : EqBelow (25 * 2 ^ l) S T) (ir : Nat) :
    roundFn l S ir = roundFn l T ir := by
  rw [roundFn, roundFn, theta_congr h]

/-- After one round the two runs are the same. -/
theorem roundsUpTo_succ_congr {l : Nat} {S T : Store} (h : EqBelow (25 * 2 ^ l) S T) (n : Nat) :
    roundsUpTo l S (n + 1) = roundsUpTo l T (n + 1) := by
  induction n with
  | zero => exact roundFn_congr h 0
  | succ n ih => rw [roundsUpTo, ih, ← roundsUpTo]

theorem keccakF_congr {l : Nat} {S T : Store} (h : EqBelow (25 * 2 ^ l) S T) : keccakF l S = keccakF l T := by
  have hcount : roundCount l = (11 + 2 * l) + 1 := by rw [roundCount]; omega
  rw [keccakF, keccakF, hcount, roundsUpTo_succ_congr h]

theorem absorbOne_congr {l : Nat} {S T : Store} (h : EqBelow (25 * 2 ^ l) S T) (P : Bits) :
    absorbOne l P S = absorbOne l P T := keccakF_congr (h.xor _)

@[simp] theorem length_ratePart (r : Nat) (T : Store) : (ratePart r T).length = r := length_bitsOf _ _

theorem ratePart_congr {n r : Nat} {S T : Store} (h : EqBelow n S T) (hr : r ≤ n) : ratePart r S = ratePart r T :=
  bitsOf_congr fun i hi => h i (Nat.lt_of_lt_of_le hi hr)

end Sys2Proof.Machine
end

section
/-!
PROOFS. The host-driven sponge (43_sponge.md rule R119): each block command of the host is one step of the sponge function on
the `b` bits of the state, so the two loops run side by side.
-/
namespace Sys2Proof.Machine

/-- A legal rate is below the width, which is at most 1600 (R6, R7). -/
theorem CfgReg.rate_lt_b {c : CfgReg} (h : c.legal = true) : c.rate.toNat < c.b := ((legal_iff c).mp h).2.2

theorem CfgReg.b_le_of_legal {c : CfgReg} (h : c.legal = true) : c.b ≤ 1600 :=
  Nat.mul_le_mul_left 25 (CfgReg.w_le_of_legal h)

/-! ## ABSORB_BLOCK (R117) -/

/-- The state ABSORB_BLOCK stages when VLEN = r: the block in VIEWBUF absorbed. -/
def absorbed (s : State) : State :=
  { s.drew s.actcfg.rate.toNat with
    store := putState s.actcfg.b s.store
      (absorbOne s.actcfg.lNat (bitsOf (viewOperand s) s.actcfg.rate.toNat) s.store) }

theorem runAbsorbBlock_of_vlen {s : State} (hlegal : s.actcfg.legal = true) (hvlen : s.vlen = s.actcfg.rate) :
    runAbsorbBlock s = .done false (absorbed s) := by
  simp [runAbsorbBlock, absorbed, hlegal, hvlen]

theorem exec_absorbBlock {s : State} (hlegal : s.actcfg.legal = true) (hvlen : s.vlen = s.actcfg.rate) :
    exec .absorbBlock s = .next (complete .none false (absorbed s)) :=
  congrArg (commit s) (runAbsorbBlock_of_vlen hlegal hvlen)

/-- The block ABSORB_BLOCK reads when VIEWBUF holds block 0 of `M`: written bits, so no draw is among them. -/
theorem bitsToStore_viewOperand {s : State} {M : Bits} {r : Nat} (h : holdsBlock r M 0 s.viewbuf) :
    bitsToStore (bitsOf (viewOperand s) r) = bitsToStore (M.take r) := by
  apply BitVec.eq_of_getLsbD_eq
  intro i _
  rw [getLsbD_bitsToStore, getLsbD_bitsToStore, getD_bitsOf, List.getD_eq_getElem?_getD, List.getElem?_take]
  by_cases hi : i < r
  · obtain ⟨hwritten, hbit⟩ := h i hi
    rw [Nat.zero_mul, Nat.zero_add] at hbit
    simp [hi, viewOperand, ViewBuf.read_of_written _ _ _ hwritten, hbit]
  · simp [hi]

/-- ABSORB_BLOCK on block 0 of `M` is the absorb step of the sponge. -/
theorem eqBelow_absorbed {s : State} {M : Bits} {T : Store} (hblock : holdsBlock s.actcfg.rate.toNat M 0 s.viewbuf)
    (hT : EqBelow s.actcfg.b s.store T) :
    EqBelow s.actcfg.b (absorbed s).store (absorbOne s.actcfg.lNat (M.take s.actcfg.rate.toNat) T) := by
  rw [← absorbOne_congr (l := s.actcfg.lNat) hT, absorbOne, ← bitsToStore_viewOperand hblock, ← absorbOne]
  exact eqBelow_putState _ _ _

/-! ## The absorb loop (R119 (2)) -/

/-- The host has written a block to VIEWBUF, and VLEN = r. -/
def blockLoaded (vb : ViewBuf) (s : State) : State := { s with viewbuf := vb, vlen := s.actcfg.rate }

theorem hostAbsorb_cons {s : State} (hlegal : s.actcfg.legal = true) (vb : ViewBuf) (vbs : List ViewBuf) :
    hostAbsorb (vb :: vbs) s = hostAbsorb vbs (complete .none false (absorbed (blockLoaded vb s))) := by
  have hexec : exec .absorbBlock (blockLoaded vb s) = .next (complete .none false (absorbed (blockLoaded vb s))) := exec_absorbBlock hlegal rfl
  rw [hostAbsorb, ← blockLoaded, hexec]

theorem holdsBlock_drop {r k : Nat} {M : Bits} {vb : ViewBuf} (h : holdsBlock r M (k + 1) vb) :
    holdsBlock r (M.drop r) k vb := by
  intro i hi
  have hpos : (k + 1) * r + i = r + (k * r + i) := by rw [Nat.succ_mul]; omega
  rw [List.getD_eq_getElem?_getD, List.getElem?_drop, ← List.getD_eq_getElem?_getD, ← hpos]
  exact h i hi

/-- The host's absorb loop against the sponge's, block by block. -/
theorem hostAbsorb_eqBelow {s : State} {vbs : List ViewBuf} {M : Bits} {T : Store} (hlegal : s.actcfg.legal = true)
    (hblocks : ∀ k < vbs.length, holdsBlock s.actcfg.rate.toNat M k (vbs.getD k ViewBuf.empty))
    (hT : EqBelow s.actcfg.b s.store T) :
    ∃ t, hostAbsorb vbs s = .next t ∧ t.actcfg = s.actcfg ∧
      EqBelow s.actcfg.b t.store (absorbBlocks s.actcfg.lNat s.actcfg.rate.toNat vbs.length M T) := by
  induction vbs generalizing s M T with
  | nil => exact ⟨s, rfl, rfl, hT⟩
  | cons vb vbs ih =>
    rw [hostAbsorb_cons hlegal]
    exact ih (s := complete .none false (absorbed (blockLoaded vb s))) hlegal
      (fun k hk => holdsBlock_drop (hblocks (k + 1) (Nat.succ_lt_succ hk)))
      (eqBelow_absorbed (s := blockLoaded vb s) (hblocks 0 (Nat.succ_pos _)) hT)

/-! ## The squeeze loop (R119 (3)) -/

/-- The host reads the rate part of the state it extracts from. -/
theorem bitsOf_extracted {s : State} (hlegal : s.actcfg.legal = true) :
    bitsOf (extracted s).viewbuf.bits.getLsbD s.actcfg.rate.toNat = ratePart s.actcfg.rate.toNat s.store := by
  apply bitsOf_congr
  intro i hi
  have hi1600 : i < 1600 := (hi.trans (CfgReg.rate_lt_b hlegal)).trans_le (CfgReg.b_le_of_legal hlegal)
  rw [extracted, (full_gather_bits _ _ hi1600).2, decide_eq_true hi, Bool.true_and]

theorem exec_permute {s : State} (hlegal : s.actcfg.legal = true) : exec .permute s = .next (mapped keccakF s) :=
  exec_of_runMapping rfl hlegal

theorem hostSqueeze_stop {s : State} (hlegal : s.actcfg.legal = true) {d : Nat} {Z : Bits}
    (hd : d ≤ (Z ++ ratePart s.actcfg.rate.toNat s.store).length) (n : Nat) :
    hostSqueeze d n Z s = some (Z ++ ratePart s.actcfg.rate.toNat s.store, extracted s) := by
  rw [hostSqueeze.eq_def]
  simp only [exec_extractBlock, bitsOf_extracted hlegal, if_pos hd]

theorem hostSqueeze_permute {s : State} (hlegal : s.actcfg.legal = true) {d : Nat} {Z : Bits}
    (hd : ¬d ≤ (Z ++ ratePart s.actcfg.rate.toNat s.store).length) (n : Nat) :
    hostSqueeze d (n + 1) Z s =
      hostSqueeze d n (Z ++ ratePart s.actcfg.rate.toNat s.store) (mapped keccakF (extracted s)) := by
  have hpermute : exec .permute (extracted s) = .next (mapped keccakF (extracted s)) := exec_permute hlegal
  rw [hostSqueeze.eq_def]
  simp only [exec_extractBlock, bitsOf_extracted hlegal, if_neg hd, hpermute]

/-- The host's PERMUTE after a take is the permutation of the squeeze loop. -/
theorem eqBelow_mapped_extracted {s : State} {T : Store} (hT : EqBelow s.actcfg.b s.store T) :
    EqBelow s.actcfg.b (mapped keccakF (extracted s)).store (keccakF s.actcfg.lNat T) := by
  rw [← keccakF_congr (l := s.actcfg.lNat) hT]
  exact eqBelow_putState _ _ _

/-- The host's squeeze loop against the sponge's: it stops where the other stops, with the same bits read and the same state.
Every take reads at least one bit, so `n` repetitions suffice when `d ≤ |Z| + n`. -/
theorem hostSqueeze_eq_squeezeLoop {s : State} {T : Store} {d n : Nat} {Z : Bits} (hlegal : s.actcfg.legal = true)
    (hT : EqBelow s.actcfg.b s.store T) (hn : d ≤ Z.length + n) :
    ∃ u, hostSqueeze d n Z s = some ((squeezeLoop s.actcfg.lNat s.actcfg.rate.toNat d n Z T).1, u) ∧
      EqBelow s.actcfg.b u.store (squeezeLoop s.actcfg.lNat s.actcfg.rate.toNat d n Z T).2 := by
  have htake := ratePart_congr hT (CfgReg.rate_lt_b hlegal).le
  induction n generalizing s T Z with
  | zero =>
    have hd : d ≤ (Z ++ ratePart s.actcfg.rate.toNat s.store).length := by rw [List.length_append]; omega
    rw [hostSqueeze_stop hlegal hd, squeezeLoop, htake]
    exact ⟨extracted s, rfl, hT⟩
  | succ n ih =>
    rw [squeezeLoop, ← htake]
    by_cases hd : d ≤ (Z ++ ratePart s.actcfg.rate.toNat s.store).length
    · rw [hostSqueeze_stop hlegal hd, if_pos hd]
      exact ⟨extracted s, rfl, hT⟩
    · have hfuel : d ≤ (Z ++ ratePart s.actcfg.rate.toNat s.store).length + n := by
        have hrate := ((legal_iff s.actcfg).mp hlegal).2.1
        rw [List.length_append, length_ratePart]
        omega
      have hmapped := eqBelow_mapped_extracted hT
      rw [hostSqueeze_permute hlegal hd, if_neg hd]
      exact ih (s := mapped keccakF (extracted s)) hlegal hmapped hfuel
        (ratePart_congr hmapped (CfgReg.rate_lt_b hlegal).le)

/-- A truncation keeps the bits below its length (R115 (5)). -/
theorem getD_take_of_lt (v : Bits) {d i : Nat} (hi : i < d) : (v.take d).getD i false = v.getD i false := by
  rw [List.getD_eq_getElem?_getD, List.getD_eq_getElem?_getD, List.getElem?_take_of_lt hi]

/-! ## The whole sequence (R119) -/

/-- The state CLEAR leaves (R91). -/
def cleared (s : State) : State := { s with store := putState s.actcfg.b s.store 0#1600, status := okStatus s }

theorem exec_clear (s : State) : exec .clear s = .next (cleared s) := exec_of_run_done .clear rfl

/-- Settles O44: CLEAR starts both from zero, and the two loops keep the states' `b` bits equal. -/
theorem hostDrivenSpongeEqualsProcess : Obligations.HostDrivenSpongeEqualsProcess := by
  intro s t vbs hlegal hexec hok r M hlength hblocks
  obtain ⟨hout, rfl⟩ := exec_process_ok hexec hok
  rw [← hlength] at hblocks
  obtain ⟨s1, habsorb, hcfg, hs1⟩ :=
    hostAbsorb_eqBelow (s := cleared s) hlegal hblocks (eqBelow_putState s.actcfg.b s.store 0#1600)
  rw [hlength] at hs1
  obtain ⟨u, hsqueeze, hu⟩ := hostSqueeze_eq_squeezeLoop (s := s1) (Z := []) (hcfg ▸ hlegal) (hcfg ▸ hs1)
    (show s.outlen.toNat ≤ 0 + s.outlen.toNat by omega)
  rw [hcfg] at hsqueeze hu
  refine ⟨cleared s, s1, _, u, exec_clear s, habsorb, hsqueeze, fun i hi => ?_, fun i hi => ?_⟩
  · rw [complete_outbuf, storedBit_processed (by omega)]
    exact getD_take_of_lt _ hi
  · rw [complete_store, getLsbD_store_processed hi]
    exact (hu i hi).symm

end Sys2Proof.Machine
end

section
/-!
PROOFS. The variants and the hash adapter (44_variants_adapter.md rules R124 to R129): SELECT_VARIANT, HASH_INIT and
HASH_UPDATE, each settled by the run it makes.
-/
namespace Sys2Proof.Machine

/-! ## The variant table, column by column (R124, R126) -/

/-- The capacities, in the order of the variant codes. -/
def capacityColumn (p : Params) : List Nat := [448, 512, 768, 1024, 256, 512, p.rawCap128, p.rawCap256]

/-- The ACTCFG words, with the default RAWSHAKE_CAP (log entry 2). -/
def cfgWordColumn : List Word :=
  [0x04800006#32, 0x04400006#32, 0x03400006#32, 0x02400006#32, 0x05400006#32, 0x04400006#32, 0x05400006#32,
    0x04400006#32]

/-- The SUFFIX words. -/
def suffixWordColumn : List Word :=
  [0x00000202#32, 0x00000202#32, 0x00000202#32, 0x00000202#32, 0x0000040F#32, 0x0000040F#32, 0x00000203#32,
    0x00000203#32]

/-- The OUTLEN words: the SHA3 variants only. -/
def outlenColumn : List Word := [224#32, 256#32, 384#32, 512#32]

/-- The row of a variant code, read off the columns. -/
theorem varTab_of_lt (p : Params) {v : Nat} (hv : v < 8) :
    ∃ row, varTab p v = some row ∧ row.capacity = (capacityColumn p).getD v 0 ∧
      ∀ s, (applyVariant row s).suffix.word = suffixWordColumn.getD v 0#32 ∧
        (applyVariant row s).outlen = outlenColumn.getD v s.outlen := by
  interval_cases v <;> exact ⟨_, rfl, rfl, fun _ => ⟨by simp [applyVariant, SuffixReg.word, suffixWordColumn], rfl⟩⟩

/-- The rate fits in its field, so no bit of it is lost. -/
theorem toNat_rate_applyVariant (row : Variant) (s : State) :
    (applyVariant row s).actcfg.rate.toNat = 1600 - row.capacity := by
  rw [applyVariant, BitVec.toNat_ofNat, Nat.mod_eq_of_lt (by omega)]

/-- A variant's ACTCFG depends on its capacity alone. -/
theorem cfgWord_of_default_capacity :
    ∀ v < 8, CfgReg.word ⟨6#3, BitVec.ofNat 11 (1600 - (capacityColumn Params.default).getD v 0)⟩ =
      cfgWordColumn.getD v 0#32 := by decide

theorem capacityColumn_eq_default {p : Params} (h128 : p.rawCap128 = 256) (h256 : p.rawCap256 = 512) :
    capacityColumn p = capacityColumn Params.default := by
  rw [capacityColumn, h128, h256]
  rfl

/-! ## SELECT_VARIANT (R126) -/

theorem runSelectVariant_of_row {s : State} {v : Nat} {row : Variant} (h : varTab s.params v = some row) :
    runSelectVariant v s = .done false (applyVariant row s) := by
  rw [runSelectVariant, h]

theorem runSelectVariant_of_none {s : State} {v : Nat} (h : varTab s.params v = none) :
    runSelectVariant v s = .raised .config := by
  rw [runSelectVariant, h]

/-- The state SELECT_VARIANT leaves for a variant of the table. -/
def variantSelected (row : Variant) (s : State) : State := { applyVariant row s with status := okStatus s }

theorem exec_selectVariant_of_row {s : State} {v : BitVec 8} {row : Variant}
    (h : varTab s.params v.toNat = some row) : exec (.selectVariant v) s = .next (variantSelected row s) :=
  exec_of_run_done (.selectVariant v) (runSelectVariant_of_row h)

theorem exec_selectVariant_of_ge {v : BitVec 8} (h : 8 ≤ v.toNat) (s : State) :
    exec (.selectVariant v) s = .next (failed .config s) :=
  exec_of_run_raised (.selectVariant v) (runSelectVariant_of_none ((varTab_none_iff s.params v).mpr h))

/-- Settles O47: the run applies the row of the table, whose columns give every register it sets. -/
theorem selectVariantResult : Obligations.SelectVariantResult := by
  refine ⟨by decide, fun s v _ => ⟨fun hv => ?_, fun hv => exec_selectVariant_of_ge hv s⟩⟩
  obtain ⟨row, hrow, hcapacity, hregs⟩ := varTab_of_lt s.params hv
  obtain ⟨hsuffix, houtlen⟩ := hregs s
  refine ⟨_, exec_selectVariant_of_row hrow, rfl, rfl, ?_, fun h128 h256 => ?_, hsuffix, houtlen⟩
  · exact (toNat_rate_applyVariant row s).trans (congrArg (1600 - ·) hcapacity)
  · rw [capacityColumn_eq_default h128 h256] at hcapacity
    rw [variantSelected, applyVariant, hcapacity]
    exact cfgWord_of_default_capacity v.toNat hv

/-! ## HASH_INIT (R128) -/

theorem exec_hashInit_of_row {s : State} {v : BitVec 8} {row : Variant} (h : varTab s.params v.toNat = some row) :
    exec (.hashInit v) s = .next { variantSelected row s with msglen := 0#32 } := by
  have hrun : commandRun (.hashInit v) s = .done false { applyVariant row s with msglen := 0#32 } := by
    rw [commandRun, runHashInit_eq, operandA, h]
  exact exec_of_run_done (.hashInit v) hrun

theorem exec_hashInit_of_ge {v : BitVec 8} (h : 8 ≤ v.toNat) (s : State) :
    exec (.hashInit v) s = .next (failed .config s) := by
  have hrun : commandRun (.hashInit v) s = .raised .config := by
    rw [commandRun, runHashInit_eq, (varTab_none_iff s.params v).mpr h]
  exact exec_of_run_raised (.hashInit v) hrun

/-- Settles O48: both commands apply the same row, and HASH_INIT clears MSGLEN in what it stages. -/
theorem hashInitResult : Obligations.HashInitResult := by
  refine ⟨by decide, fun s v => ⟨fun hv => ?_, fun hv => exec_hashInit_of_ge hv s⟩⟩
  obtain ⟨row, hrow, -⟩ := varTab_of_lt s.params hv
  exact ⟨_, exec_selectVariant_of_row hrow, exec_hashInit_of_row hrow, rfl⟩

/-! ## HASH_UPDATE (R129) -/

/-- The state HASH_UPDATE stages: `n` bytes of DIN appended to the message. -/
def appended (n : Nat) (s : State) : State :=
  { s with
    msgbuf := s.msgbuf.writeBits s.msglen.toNat (dinOperand s n)
    msglen := BitVec.ofNat 32 (s.msglen.toNat + 8 * n) }

theorem runHashUpdate_illegal {n : Nat} (hn : ¬(1 ≤ n ∧ n ≤ 4)) (s : State) :
    runHashUpdate n s = .raised .illegal := if_pos (by omega)

theorem runHashUpdate_length {n : Nat} {s : State} (hn : 1 ≤ n ∧ n ≤ 4)
    (hlen : 8 * s.params.msgBytes < s.msglen.toNat + 8 * n) : runHashUpdate n s = .raised .length := by
  rw [runHashUpdate, if_neg (by omega), if_pos hlen]

theorem runHashUpdate_fits {n : Nat} {s : State} (hn : 1 ≤ n ∧ n ≤ 4)
    (hlen : s.msglen.toNat + 8 * n ≤ 8 * s.params.msgBytes) :
    runHashUpdate n s = .done false (appended n s) := by
  rw [runHashUpdate, if_neg (by omega), if_neg (Nat.not_lt.mpr hlen), appended]

theorem msgBytes_le_of_paramsWf {p : Params} (h : p.wf = true) : p.msgBytes ≤ 61440 := by
  simp only [Params.wf, Bool.and_eq_true, decide_eq_true_eq] at h
  omega

/-- A message that fits in MSGBUF has a length that fits in the 32 bits of MSGLEN. -/
theorem toNat_msglen_appended {n : Nat} {s : State} (hparams : s.params.wf = true)
    (hlen : s.msglen.toNat + 8 * n ≤ 8 * s.params.msgBytes) :
    (appended n s).msglen.toNat = s.msglen.toNat + 8 * n := by
  have hbytes := msgBytes_le_of_paramsWf hparams
  rw [appended, BitVec.toNat_ofNat, Nat.mod_eq_of_lt (by omega)]

/-- The appended bits are written and are DIN's. -/
theorem bits_msgbuf_appended {s : State} (hbuf : s.msgbuf.wf = true) {n k : Nat} (hk : k < 8 * n) :
    (appended n s).msgbuf.isWritten (s.msglen.toNat + k) = true ∧
      (appended n s).msgbuf.storedBit (s.msglen.toNat + k) = s.din.getLsbD k := by
  obtain ⟨hwritten, hstored⟩ := Memory.bits_writeBits s.msgbuf hbuf s.msglen.toNat (dinOperand s n) (s.msglen.toNat + k)
  rw [appended, hwritten, hstored, dinOperand, length_bitsOf, getD_bitsOf]
  simp [hk]

/-- Every bit before and after the appended ones is as before. -/
theorem bits_msgbuf_appended_other {s : State} (hbuf : s.msgbuf.wf = true) {n i : Nat}
    (hi : i < s.msglen.toNat ∨ s.msglen.toNat + 8 * n ≤ i) :
    (appended n s).msgbuf.isWritten i = s.msgbuf.isWritten i ∧
      (appended n s).msgbuf.storedBit i = s.msgbuf.storedBit i := by
  obtain ⟨hwritten, hstored⟩ := Memory.bits_writeBits s.msgbuf hbuf s.msglen.toNat (dinOperand s n) i
  have hout : ¬(s.msglen.toNat ≤ i ∧ i < s.msglen.toNat + 8 * n) := by omega
  rw [appended, hwritten, hstored, dinOperand, length_bitsOf, if_neg hout, ← Bool.decide_and, decide_eq_false hout]
  exact ⟨Bool.false_or _, rfl⟩

/-- Settles O49: the two errors are the run's two checks in order; past them the run appends DIN's bits at MSGLEN. -/
theorem hashUpdateResult : Obligations.HashUpdateResult :=
  ⟨by decide, fun s n hparams hbuf =>
    ⟨fun hn hlen =>
        ⟨_, exec_of_run_done (.hashUpdate n) (runHashUpdate_fits hn hlen), rfl, toNat_msglen_appended hparams hlen,
          fun _ hk => bits_msgbuf_appended hbuf hk, fun _ hi => bits_msgbuf_appended_other hbuf hi⟩,
      fun hn hlen => exec_of_run_raised (.hashUpdate n) (runHashUpdate_length hn hlen),
      fun hn => exec_of_run_raised (.hashUpdate n) (runHashUpdate_illegal hn s)⟩⟩

end Sys2Proof.Machine
end

section
/-!
PROOFS. The life cycle of a command (45_control.md rules R131 to R135): NOP, what acceptance and a STATUS write do to the
state, and what completion writes to STATUS.
-/
namespace Sys2Proof.Machine

/-! ## NOP (R135) -/

/-- A word that decodes is matched by the row that builds its command (R64). -/
theorem exists_row_of_decode {c : Word} {i : Instr} (h : decode c = .ok i) :
    ∃ row ∈ opcodeTable, c &&& row.mask = row.pattern ∧ row.build c = i := by
  unfold decode at h
  cases hrow : selectRow c with
  | some row =>
    rw [hrow] at h
    exact ⟨row, List.mem_of_find?_eq_some hrow, by simpa using List.find?_some hrow, Except.ok.inj h⟩
  | none =>
    simp only [hrow] at h
    split at h <;> cases h

/-- Only the first row of the table builds NOP. -/
theorem row_of_build_nop {c : Word} :
    ∀ row ∈ opcodeTable, row.build c = .nop → row.mask = maskN ∧ row.pattern = 0#32 := by
  simp [opcodeTable]

theorem decode_nop_iff (c : Word) : decode c = .ok .nop ↔ c = 0#32 := by
  constructor
  · intro h
    obtain ⟨row, hmem, hmatch, hbuild⟩ := exists_row_of_decode h
    obtain ⟨hmask, hpattern⟩ := row_of_build_nop row hmem hbuild
    rw [hmask, hpattern] at hmatch
    exact (BitVec.and_allOnes (x := c)).symm.trans hmatch
  · rintro rfl
    rfl

/-- Settles O22: one row of the table builds NOP, and NOP stages the state as it is. -/
theorem nopOnlyCompletes : Obligations.NopOnlyCompletes := ⟨decode_nop_iff, fun _ => exec_of_run_done .nop rfl⟩

/-! ## Writes to CMD and STATUS (R131, R134) -/

/-- An aligned write in the window is the write of the register at its offset, whatever BUSY is (R44). -/
theorem performAccess_write (s : State) (v : Word) {off : Nat} (halign : off % 4 = 0) (hoff : off < 0x10000) :
    performAccess ⟨s.params.base + off, 4, .write v⟩ s = .next (writeReg (regAt s.params off) v s) := by
  have hsub : s.params.base + off - s.params.base = off := Nat.add_sub_cancel_left ..
  rw [performAccess_next_iff]
  exact ⟨by simp [Access.good, inWindow, supported, hsub, halign, hoff], by simp only [accessReg, hsub]⟩

theorem writeReg_cmd (v : Word) (s : State) : writeReg .cmd v s = accept v s := ite_self _

theorem writeReg_status (v : Word) (s : State) :
    writeReg .status v s = { s with status := s.status.cleared v } := ite_self _

/-- Settles O51: offsets 0x008 and 0x004 are CMD and STATUS, whose writes do not look at BUSY but in `accept`. -/
theorem commandAndStatusWrites : Obligations.CommandAndStatusWrites := by
  intro s v
  have hcmd : performAccess ⟨s.params.base + 0x008, 4, .write v⟩ s = .next (accept v s) :=
    (performAccess_write s v rfl (by decide)).trans (congrArg _ (writeReg_cmd v s))
  refine ⟨fun hidle => ?_, fun hbusy => ?_, ?_⟩
  · rw [hcmd, accept_idle v s hidle, Status.accepted]
  · rw [hcmd, accept_busy v s hbusy, Status.overrun]
  · exact (performAccess_write s v rfl (by decide)).trans (congrArg _ (writeReg_status v s))

/-! ## The code and the skip a run ends with (R141 to R147) -/

/-- A run that is not stuck ends with this code and this skip. -/
def RunResult.Reports (code : ErrCode) (skip : Bool) : RunResult → Prop
  | .done k _ => code = .none ∧ skip = k
  | .raised e => code = e ∧ skip = false
  | .stuck _ => True

theorem reports_runMapping (g : Nat → Store → Store) (s : State) : (runMapping g s).Reports .none false := by
  rw [runMapping]
  split
  · exact ⟨rfl, rfl⟩
  · trivial

theorem not_legal_iff (c : CfgReg) :
    ¬c.legal = true ↔ c.l.toNat = 7 ∨ c.rate.toNat < 1 ∨ 25 * 2 ^ c.l.toNat ≤ c.rate.toNat := by
  have hl := c.l.isLt
  rw [legal_iff]
  omega

theorem reports_configure (s : State) :
    (runConfigure s).Reports (resultCode .configure s) (resultSkip .configure s) := by
  by_cases h : s.cfg.legal = true
  · rw [runConfigure_legal h]
    exact ⟨if_neg ((not_legal_iff s.cfg).not_right.mp h), rfl⟩
  · rw [runConfigure_illegal h]
    exact ⟨if_pos ((not_legal_iff s.cfg).mp h), rfl⟩

theorem reports_absorbBlock (s : State) :
    (runAbsorbBlock s).Reports (resultCode .absorbBlock s) (resultSkip .absorbBlock s) := by
  simp only [runAbsorbBlock]
  split_ifs with hlegal hvlen
  · exact ⟨rfl, decide_eq_true (mt (congrArg BitVec.toNat) hvlen)⟩
  · exact ⟨rfl, decide_eq_false (not_not.mpr (BitVec.eq_of_toNat_eq (not_not.mp hvlen)))⟩
  · trivial

theorem reports_process (s : State) : (runProcess s).Reports (resultCode .process s) (resultSkip .process s) := by
  simp only [runProcess, resultCode, gt_iff_lt, ite_or]
  split_ifs
  · exact ⟨rfl, rfl⟩
  · exact ⟨rfl, rfl⟩
  · exact ⟨rfl, rfl⟩
  · exact ⟨rfl, rfl⟩
  · trivial

theorem reports_selectVariant (v : BitVec 8) (s : State) :
    (runSelectVariant (operandA v) s).Reports (resultCode (.selectVariant v) s) (resultSkip (.selectVariant v) s) := by
  have hrow := varTab_none_iff s.params v
  rw [runSelectVariant]
  cases h : varTab s.params (operandA v) with
  | none => exact ⟨if_pos (hrow.mp h), rfl⟩
  | some row => exact ⟨if_neg (by simp [← hrow, h]), rfl⟩

/-- HASH_INIT ends as the SELECT_VARIANT it starts with. -/
theorem reports_runHashInit {v : Nat} {s : State} {code : ErrCode} {skip : Bool}
    (h : (runSelectVariant v s).Reports code skip) : (runHashInit v s).Reports code skip := by
  rw [runHashInit]
  cases hrun : runSelectVariant v s <;> rwa [hrun] at h

theorem reports_hashUpdate (n : BitVec 8) (s : State) :
    (runHashUpdate (operandA n) s).Reports (resultCode (.hashUpdate n) s) (resultSkip (.hashUpdate n) s) := by
  simp only [runHashUpdate, resultCode, operandA, gt_iff_lt]
  split_ifs <;> exact ⟨rfl, rfl⟩

/-! ### The view commands -/

theorem viewError_of_checkView_ok {w : Nat} {sel : ViewSel} {kind : ViewKind} (h : checkView w sel = .ok kind) :
    viewError w sel = .none := by
  rw [viewError_eq, h]

theorem viewError_of_checkView_error {w : Nat} {sel : ViewSel} {e : ErrCode} (h : checkView w sel = .error e) :
    viewError w sel = e := by
  rw [viewError_eq, h]

theorem checkView_error_ne_none {w : Nat} {sel : ViewSel} {e : ErrCode} (h : checkView w sel = .error e) :
    e ≠ .none := by
  obtain ⟨-, rfl⟩ | ⟨-, -, -, -, rfl⟩ := (checkView_error_iff w sel e).mp h <;> nofun

theorem viewValid_eq_false_of_checkView_error {w : Nat} {sel : ViewSel} {e : ErrCode}
    (h : checkView w sel = .error e) : viewValid w sel = false := by
  rw [← Bool.not_eq_true, viewValid_iff, h]
  exact nofun

theorem viewLen_of_checkView {w : Nat} {sel : ViewSel} {kind : ViewKind} (h : checkView w sel = .ok kind) :
    viewLen kind w sel = viewLength w sel :=
  viewLen_eq w sel kind ((checkView_ok_iff w sel kind).mp h).1

theorem reports_viewGet (sel : ViewSel) (s : State) :
    (runViewGet sel s).Reports (resultCode (.viewGet sel) s) (resultSkip (.viewGet sel) s) := by
  rw [runViewGet]
  cases h : checkView s.actcfg.w sel with
  | error e => exact ⟨viewError_of_checkView_error h, rfl⟩
  | ok kind => exact ⟨viewError_of_checkView_ok h, rfl⟩

theorem reports_viewSet (sel : ViewSel) (s : State) :
    (runViewSet sel s).Reports (resultCode (.viewSet sel) s) (resultSkip (.viewSet sel) s) := by
  rw [runViewSet]
  cases h : checkView s.actcfg.w sel with
  | error e =>
    simp only [resultCode, viewError_of_checkView_error h, if_pos (checkView_error_ne_none h)]
    exact ⟨rfl, rfl⟩
  | ok kind =>
    simp only [resultCode, viewError_of_checkView_ok h, viewLen_of_checkView h, ne_eq, not_true_eq_false, if_false]
    split_ifs <;> exact ⟨rfl, rfl⟩

theorem reports_viewXor (sel : ViewSel) (s : State) :
    (runViewXor sel s).Reports (resultCode (.viewXor sel) s) (resultSkip (.viewXor sel) s) := by
  rw [runViewXor]
  cases h : checkView s.actcfg.w sel with
  | error e =>
    simp only [resultSkip, viewValid_eq_false_of_checkView_error h]
    exact ⟨viewError_of_checkView_error h, rfl⟩
  | ok kind =>
    simp only [resultSkip, (viewValid_iff _ _).mpr ⟨kind, h⟩, viewLen_of_checkView h, Bool.true_and]
    split_ifs with hvlen
    · exact ⟨viewError_of_checkView_ok h, decide_eq_true hvlen⟩
    · exact ⟨viewError_of_checkView_ok h, decide_eq_false hvlen⟩

/-- A run ends with the code and the skip that R141 to R147 give its command. -/
theorem commandRun_reports (i : Instr) (s : State) :
    (commandRun i s).Reports (resultCode i s) (resultSkip i s) := by
  cases i with
  | nop | clear | extractBlock => exact ⟨rfl, rfl⟩
  | theta | rho | pi | khi | iota | round | permute =>
    rw [commandRun]
    exact reports_runMapping _ s
  | configure => exact reports_configure s
  | absorbBlock => exact reports_absorbBlock s
  | process => exact reports_process s
  | selectVariant v => exact reports_selectVariant v s
  | hashInit v => exact reports_runHashInit (reports_selectVariant v s)
  | hashUpdate n => exact reports_hashUpdate n s
  | viewGet sel => exact reports_viewGet sel s
  | viewSet sel => exact reports_viewSet sel s
  | viewXor sel => exact reports_viewXor sel s

/-! ## The ENGINE step (R132) -/

theorem step_of_fetch_ok {s s' : State} {i : Instr} (hmove : nextMove s = .engine s') (hfetch : fetch s' = .ok i) :
    step s = exec i s' := by
  simp only [step, hmove, hfetch]

theorem step_of_fetch_error {s s' : State} {e : DecodeError} (hmove : nextMove s = .engine s')
    (hfetch : fetch s' = .error e) : step s = .next (complete .illegal false s') := by
  simp only [step, hmove, hfetch, illegalCommand, commit_raised]

/-- The ENGINE moves from a state that differs from `s` in its schedule alone. -/
theorem status_of_nextMove_engine {s s' : State} (h : nextMove s = .engine s') : s'.status = s.status := by
  rw [nextMove_state s s' (.inl h)]

/-! ## Completion (R133) -/

/-- No command both skips and raises, so the two forms of what completion writes agree. -/
theorem completed_eq_statusAfterCommand (st : Status) {code : ErrCode} {skip : Bool}
    (h : skip = true → code = .none) : st.completed code skip = statusAfterCommand code skip st := by
  by_cases hcode : code = .none
  · simp [Status.completed, statusAfterCommand, hcode]
  · have hskip : skip = false := Bool.eq_false_iff.mpr (mt h hcode)
    simp [Status.completed, statusAfterCommand, hcode, hskip]

/-- The run reports the command's code and skip, and completion writes them over a STATUS the run has left alone. -/
theorem status_of_exec {i : Instr} {s t : State} (h : exec i s = .next t) :
    t.status = statusAfterCommand (resultCode i s) (resultSkip i s) s.status := by
  have hreports := commandRun_reports i s
  rw [exec_eq_commit, commit_next_iff] at h
  obtain ⟨k, u, hrun, rfl⟩ | ⟨e, hrun, rfl⟩ := h
  · rw [hrun] at hreports
    obtain ⟨hcode, hskip⟩ := hreports
    rw [hcode, hskip, ← commandRun_done_status i s k u hrun]
    exact completed_eq_statusAfterCommand _ fun _ => rfl
  · rw [hrun] at hreports
    obtain ⟨hcode, hskip⟩ := hreports
    rw [hcode, hskip]
    exact completed_eq_statusAfterCommand _ Bool.noConfusion

theorem status_of_engine_step {s s' t : State} (hmove : nextMove s = .engine s') (h : step s = .next t) :
    t.status = statusAfterCommand (engineCode s') (engineSkip s') s.status := by
  rw [← status_of_nextMove_engine hmove, engineCode, engineSkip, ← fetch]
  cases hfetch : fetch s' with
  | ok i =>
    rw [step_of_fetch_ok hmove hfetch] at h
    exact status_of_exec h
  | error e =>
    rw [step_of_fetch_error hmove hfetch] at h
    cases h
    exact completed_eq_statusAfterCommand _ Bool.noConfusion

theorem resultCode_status (i : Instr) (s : State) (old : Status) :
    resultCode i { s with status := old } = resultCode i s := by cases i <;> rfl

theorem resultSkip_status (i : Instr) (s : State) (old : Status) :
    resultSkip i { s with status := old } = resultSkip i s := by cases i <;> rfl

/-- Settles O8: what a command's completion writes, then an ENGINE step's; the code and the skip read no field of STATUS, so ERR
and SKIP do not depend on the STATUS before. -/
theorem completionWritesStatus : Obligations.CompletionWritesStatus := by
  refine ⟨fun _ _ _ => status_of_exec, fun _ _ _ => status_of_engine_step, fun i s t u old ht hu => ?_⟩
  rw [status_of_exec ht, status_of_exec hu, resultCode_status, resultSkip_status]
  exact ⟨rfl, rfl⟩

end Sys2Proof.Machine
end

section
/-!
PROOFS. The errors and the silent no-ops (60_exceptions.md rules R141 to R144, R146 to R148): a command reports the code and the
skip that `resultCode` and `resultSkip` read off it, so each rule is a statement about these two.
-/
namespace Sys2Proof.Machine

/-! ## What a command reports -/

theorem err_of_exec {i : Instr} {s t : State} (h : exec i s = .next t) : t.status.err = resultCode i s := by
  rw [status_of_exec h, statusAfterCommand]

theorem skip_of_exec {i : Instr} {s t : State} (h : exec i s = .next t) : t.status.skip = resultSkip i s := by
  rw [status_of_exec h, statusAfterCommand]

/-! ## The code of a view operand (R89) -/

theorem viewValid_iff_coords (w : Nat) (sel : ViewSel) :
    viewValid w sel = true ↔ sel.kind.toNat ≤ 5 ∧ ¬(sel.all = false ∧ coordOutOfRange w sel = true) := by
  rw [viewValid]
  cases sel.all <;> simp

theorem viewError_eq_illegal_iff (w : Nat) (sel : ViewSel) : viewError w sel = .illegal ↔ 6 ≤ sel.kind.toNat := by
  simp [viewError, ite_eq_iff]

theorem viewError_eq_none_iff (w : Nat) (sel : ViewSel) : viewError w sel = .none ↔ viewValid w sel = true := by
  have hkind (h : viewValid w sel = true) : sel.kind.toNat < 6 :=
    Nat.lt_succ_of_le ((viewValid_iff_coords w sel).mp h).1
  simpa [viewError, ite_eq_iff] using hkind

theorem viewError_eq_index_iff (w : Nat) (sel : ViewSel) :
    viewError w sel = .index ↔ sel.kind.toNat ≤ 5 ∧ sel.all = false ∧ coordOutOfRange w sel = true := by
  simp only [viewError, ite_eq_iff, viewValid_iff_coords, reduceCtorEq, and_false, and_true, false_or]
  grind

theorem viewError_ne_config (w : Nat) (sel : ViewSel) : viewError w sel ≠ .config := by
  simp [viewError, ite_eq_iff]

theorem viewError_ne_length (w : Nat) (sel : ViewSel) : viewError w sel ≠ .length := by
  simp [viewError, ite_eq_iff]

theorem resultCode_viewSet_eq_length_iff (sel : ViewSel) (s : State) :
    resultCode (.viewSet sel) s = .length ↔
      viewValid s.actcfg.w sel = true ∧ s.vlen.toNat ≠ viewLength s.actcfg.w sel := by
  simp [resultCode, ite_eq_iff, viewError_ne_length, viewError_eq_none_iff]

/-- VIEW_SET raises every code but LENGTH as the other view commands do. -/
theorem resultCode_viewSet_eq_iff {e : ErrCode} (hnone : e ≠ .none) (hlength : e ≠ .length) (sel : ViewSel) (s : State) :
    resultCode (.viewSet sel) s = e ↔ viewError s.actcfg.w sel = e := by
  have herr (h : viewError s.actcfg.w sel = e) : viewError s.actcfg.w sel ≠ .none := h ▸ hnone
  simpa [resultCode, ite_eq_iff, hnone.symm, hlength.symm] using herr

/-! ## Each code, exactly (R141, R143, R144) -/

/-- Settles O10: no view operand reports CONFIG; the other commands report it by their own checks. -/
theorem configErrorExactly : Obligations.ConfigErrorExactly := by
  intro i s t h
  rw [err_of_exec h]
  cases i with
  | viewGet sel | viewXor sel => simp [resultCode, viewError_ne_config]
  | viewSet sel => simp [resultCode_viewSet_eq_iff, viewError_ne_config]
  | _ => simp [resultCode, ite_eq_iff, -ite_eq_left_iff]

/-- Settles O11: no view operand reports LENGTH; VIEW_SET, PROCESS and HASH_UPDATE report it past their earlier checks. -/
theorem lengthErrorExactly : Obligations.LengthErrorExactly := by
  intro i s t h
  rw [err_of_exec h]
  cases i with
  | viewGet sel | viewXor sel => simp [resultCode, viewError_ne_length]
  | viewSet sel => simp [resultCode_viewSet_eq_length_iff]
  | hashUpdate n => simp [resultCode, ite_eq_iff, Nat.one_le_iff_ne_zero, and_assoc]
  | _ => simp [resultCode, ite_eq_iff, -ite_eq_left_iff]

/-- Settles O12: the three view commands report INDEX as their operand does, and no other command has a check for it. -/
theorem indexErrorExactly : Obligations.IndexErrorExactly := by
  intro i s t h
  rw [err_of_exec h]
  cases i with
  | viewGet sel | viewXor sel => simp [resultCode, viewError_eq_index_iff]
  | viewSet sel => simp [resultCode_viewSet_eq_iff, viewError_eq_index_iff]
  | _ => simp [resultCode, ite_eq_iff]

/-! ## A command that raises an error (R148) -/

/-- A run that stages a result completes without error, so an error was raised, and the staged state is gone. -/
theorem eq_failed_of_exec {i : Instr} {s t : State} (h : exec i s = .next t) (herr : t.status.err ≠ .none) :
    t = failed t.status.err s := by
  rw [exec_eq_commit, commit_next_iff] at h
  obtain ⟨k, u, -, rfl⟩ | ⟨e, hrun, rfl⟩ := h
  · exact absurd rfl herr
  · exact complete_error (commandRun_raised i s e hrun).1 s

theorem step_illegal_of_fetch_error {s s' : State} {e : DecodeError} (hmove : nextMove s = .engine s')
    (hfetch : fetch s' = .error e) : step s = .next (failed .illegal s') := by
  rw [step_of_fetch_error hmove hfetch, complete_error (e := .illegal) nofun]

/-- Settles O9: a raised code discards what the run staged; a word that decodes to no command stages nothing. -/
theorem failedCommandChangesOnlyStatus : Obligations.FailedCommandChangesOnlyStatus := by
  refine ⟨fun i s t => eq_failed_of_exec, fun s s' t hmove hstep herr => ?_⟩
  cases hfetch : fetch s' with
  | ok i => exact eq_failed_of_exec (step_of_fetch_ok hmove hfetch ▸ hstep) herr
  | error e =>
    rw [step_illegal_of_fetch_error hmove hfetch] at hstep
    cases hstep
    rfl

/-! ## The silent no-ops (R146) -/

theorem resultSkip_iff (i : Instr) (s : State) :
    resultSkip i s = true ↔
      (∃ sel, i = .viewXor sel ∧ viewValid s.actcfg.w sel = true ∧ s.vlen.toNat ≠ viewLength s.actcfg.w sel) ∨
        (i = .absorbBlock ∧ s.vlen ≠ s.actcfg.rate) := by
  cases i <;> simp [resultSkip]

theorem runViewXor_of_length_ne {s : State} {sel : ViewSel} (hvalid : viewValid s.actcfg.w sel = true)
    (hlen : s.vlen.toNat ≠ viewLength s.actcfg.w sel) : runViewXor sel s = .done true s := by
  obtain ⟨kind, hcheck, hkind⟩ := exists_kind_of_viewValid hvalid
  rw [runViewXor, hcheck]
  exact if_pos (viewLen_eq _ _ _ hkind ▸ hlen)

theorem runAbsorbBlock_of_vlen_ne {s : State} (hlegal : s.actcfg.legal = true) (hlen : s.vlen ≠ s.actcfg.rate) :
    runAbsorbBlock s = .done true s := by
  have hne : s.vlen.toNat ≠ s.actcfg.rate.toNat := mt BitVec.eq_of_toNat_eq hlen
  simp [runAbsorbBlock, hlegal, hne]

theorem legal_of_exec_absorbBlock {s t : State} (h : exec .absorbBlock s = .next t) : s.actcfg.legal = true := by
  by_contra hillegal
  have hrun : commandRun .absorbBlock s = .stuck .inconsistentStateSize := if_pos hillegal
  rw [exec_eq_commit, hrun] at h
  cases h

theorem eq_skipped_of_exec {i : Instr} {s t : State} (h : exec i s = .next t) (hskip : resultSkip i s = true) :
    t = skipped s := by
  have hrun : commandRun i s = .done true s := by
    obtain ⟨sel, rfl, hvalid, hlen⟩ | ⟨rfl, hlen⟩ := (resultSkip_iff i s).mp hskip
    · exact runViewXor_of_length_ne hvalid hlen
    · exact runAbsorbBlock_of_vlen_ne (legal_of_exec_absorbBlock h) hlen
  rw [exec_eq_commit, hrun] at h
  cases h
  rfl

/-- Settles O13: the commands that report SKIP; each of them stages the state it started from. -/
theorem silentSkipExactly : Obligations.SilentSkipExactly := by
  intro i s t h
  rw [skip_of_exec h]
  exact ⟨resultSkip_iff i s, eq_skipped_of_exec h⟩

end Sys2Proof.Machine
end

section
/-!
PROOFS. STATUS.ERR is never FORMAT (60_exceptions.md rule R142): no command raises it, a host move keeps ERR, and
reset clears it.
-/
namespace Sys2Proof.Machine

/-! ## The ENGINE and the host (R132, R138) -/

theorem exec_err_ne_format {i : Instr} {s t : State} (h : exec i s = .next t) : t.status.err ≠ .format := by
  rw [exec_eq_commit, commit_next_iff] at h
  obtain ⟨k, u, -, rfl⟩ | ⟨e, hrun, rfl⟩ := h
  · exact nofun
  · exact (commandRun_raised i s e hrun).2

theorem err_writeReg (r : Reg) (v : Word) (s : State) : (writeReg r v s).status.err = s.status.err := by
  cases r with
  | cmd =>
    rw [writeReg_cmd, accept]
    split <;> rfl
  | _ =>
    rw [writeReg]
    split <;> rfl

theorem err_readReg (r : Reg) (s : State) : (readReg r s).2.status.err = s.status.err := by
  obtain ⟨n, hn⟩ := readReg_state r s
  rw [hn, drew_status]

theorem err_performAccess {a : Access} {s t : State} (h : performAccess a s = .next t) :
    t.status.err = s.status.err := by
  obtain ⟨-, rfl⟩ := (performAccess_next_iff a s t).mp h
  cases a.dir with
  | read => exact err_readReg _ s
  | write v => exact err_writeReg _ v s

theorem err_hostMove {s t : State} (h : hostMove s = .next t) : t.status.err = s.status.err := by
  obtain ⟨-, rfl⟩ | ⟨a, rest, -, haccess⟩ | ⟨rest, -, rfl⟩ := hostMove_cases s t h
  · rfl
  · exact err_performAccess (s := { s with host := rest }) haccess
  · rw [respond_status]
    split <;> rfl

/-! ## A step and a run -/

theorem step_err_ne_format {s t : State} (hs : s.status.err ≠ .format) (h : step s = .next t) : t.status.err ≠ .format := by
  obtain ⟨s', i, -, -, hexec⟩ | ⟨s', e, -, -, rfl⟩ | ⟨s', hmove, hhost⟩ | ⟨s', -, rfl⟩ | hidle := step_cases s t h
  · exact exec_err_ne_format hexec
  · exact nofun
  · rw [err_hostMove hhost, nextMove_state s s' (.inr (.inl hmove))]
    exact hs
  · exact nofun
  · rw [nextMove_state s t (.inr (.inr (.inr hidle)))]
    exact hs

theorem reaches_err_ne_format {s t : State} (h : Reaches s t) (hs : s.status.err ≠ .format) : t.status.err ≠ .format := by
  induction h with
  | refl => exact hs
  | tail _ hstep ih => exact step_err_ne_format ih hstep

/-- Settles O14: no command raises FORMAT, and a run from reset starts without an error. -/
theorem formatErrorNeverRaised : Obligations.FormatErrorNeverRaised :=
  ⟨fun _ _ _ => exec_err_ne_format, fun _ _ _ _ h => reaches_err_ne_format h nofun⟩

end Sys2Proof.Machine
end

section
/-!
PROOFS. IllegalCommand (60_exceptions.md rule R145): the words the decoder refuses are the reserved encodings
(30_encoding.md rules R64, R65), and the commands that raise it are those whose operands are not well formed.
-/
namespace Sys2Proof.Machine

/-! ## The row a word selects (R64) -/

/-- The must-be-zero bits of an opcode's format (R60). -/
def mustBeZero (op : Nat) : Word :=
  if op = 0x07 ∨ op = 0x08 ∨ op = 0x0D ∨ op = 0x0E ∨ op = 0x0F then 0xFFFF0000#32
  else if op = 0x10 ∨ op = 0x11 ∨ op = 0x12 then 0xC088F000#32
  else 0xFFFFFF00#32

/-- A row fixes the opcode, which is its pattern, and the must-be-zero bits of that opcode's format. -/
theorem row_fixes : ∀ row ∈ opcodeTable, row.mask = mustBeZero row.pattern.toNat ||| 0xFF#32 ∧
    row.pattern &&& mustBeZero row.pattern.toNat = 0#32 ∧ row.pattern &&& 0xFF#32 = row.pattern ∧
    row.pattern.toNat ≤ 0x12 := by decide

theorem exists_row_of_opcode : ∀ op < 0x13, ∃ row ∈ opcodeTable, row.pattern.toNat = op := by decide

theorem and_or_and_right (c m l : Word) : c &&& (m ||| l) &&& l = c &&& l := by
  ext i
  simp only [BitVec.getElem_and, BitVec.getElem_or]
  cases l[i] <;> simp

/-- A word matches a row when its two kinds of fixed bits do. -/
theorem and_or_eq_iff {c m l p : Word} (hm : p &&& m = 0#32) (hl : p &&& l = p) :
    c &&& (m ||| l) = p ↔ c &&& l = p ∧ c &&& m = 0#32 := by
  constructor
  · rintro rfl
    exact ⟨(and_or_and_right c m l).symm.trans hl, (and_or_and_right c l m).symm.trans (BitVec.or_comm l m ▸ hm)⟩
  · rintro ⟨hlow, hzero⟩
    rw [BitVec.and_or_distrib_left, hlow, hzero, BitVec.zero_or]

theorem and_lowByte_eq_iff (c p : Word) : c &&& 0xFF#32 = p ↔ c.toNat % 256 = p.toNat := by
  rw [← BitVec.toNat_inj, BitVec.toNat_and]
  exact Eq.congr_left (Nat.and_two_pow_sub_one_eq_mod c.toNat 8)

theorem row_matches_iff (c : Word) {row : OpRow} (h : row ∈ opcodeTable) :
    c &&& row.mask = row.pattern ↔
      c.toNat % 256 = row.pattern.toNat ∧ c &&& mustBeZero row.pattern.toNat = 0#32 := by
  obtain ⟨hmask, hzero, hop, -⟩ := row_fixes row h
  rw [hmask, and_or_eq_iff hzero hop, and_lowByte_eq_iff]

/-! ## The reserved words (R65 (1) and (2)) -/

theorem and_high_eq_zero_iff (c : Word) (k : Nat) : c &&& BitVec.allOnes 32 <<< k = 0#32 ↔ c.toNat / 2 ^ k = 0 := by
  have hlt : c.toNat / 2 ^ k * 2 ^ k < 2 ^ 32 := (Nat.div_mul_le_self _ _).trans_lt c.isLt
  rw [← BitVec.shiftLeft_ushiftRight, ← BitVec.toNat_inj, BitVec.toNat_shiftLeft, BitVec.toNat_ushiftRight,
    Nat.shiftRight_eq_div_pow, Nat.shiftLeft_eq, Nat.mod_eq_of_lt hlt, BitVec.toNat_ofNat, Nat.zero_mod,
    mul_eq_zero_iff_right (Nat.two_pow_pos k).ne']

theorem and_twoPow_eq_zero_iff (c : Word) {k : Nat} (hk : k < 32) :
    c &&& BitVec.twoPow 32 k = 0#32 ↔ c.getLsbD k = false := by
  have hne : BitVec.twoPow 32 k ≠ 0#32 := by
    rw [ne_eq, ← BitVec.toNat_inj, BitVec.toNat_twoPow_of_lt hk]
    exact (Nat.two_pow_pos k).ne'
  rw [BitVec.and_twoPow, ite_eq_right_iff, ← Bool.not_eq_true]
  exact ⟨fun h hbit => hne (h hbit), fun h hbit => absurd hbit h⟩

theorem and_formatV_eq_zero_iff (c : Word) :
    c &&& 0xC088F000#32 = 0#32 ↔
      (c.getLsbD 31 || c.getLsbD 30 || c.getLsbD 23 || c.getLsbD 19 || c.getLsbD 15 || c.getLsbD 14 || c.getLsbD 13
        || c.getLsbD 12) = false := by
  have hmask : 0xC088F000#32 = .twoPow 32 31 ||| .twoPow 32 30 ||| .twoPow 32 23 ||| .twoPow 32 19 ||| .twoPow 32 15
      ||| .twoPow 32 14 ||| .twoPow 32 13 ||| .twoPow 32 12 := by decide
  simp only [hmask, BitVec.and_or_distrib_left, BitVec.or_eq_zero_iff, Bool.or_eq_false_iff,
    and_twoPow_eq_zero_iff c, Nat.reduceLT]

theorem reservedWord_eq_false_iff (c : Word) :
    reservedWord c = false ↔ c.toNat % 256 ≤ 0x12 ∧ c &&& mustBeZero (c.toNat % 256) = 0#32 := by
  have h8 : c &&& 0xFFFFFF00#32 = 0#32 ↔ c.toNat / 2 ^ 8 = 0 := and_high_eq_zero_iff c 8
  have h16 : c &&& 0xFFFF0000#32 = 0#32 ↔ c.toNat / 2 ^ 16 = 0 := and_high_eq_zero_iff c 16
  by_cases hop : 0x13 ≤ c.toNat % 256
  · simp [reservedWord, hop, Nat.not_le.mpr hop]
  · simp only [reservedWord, mustBeZero, if_neg hop, and_iff_right (show c.toNat % 256 ≤ 0x12 by omega)]
    split_ifs
    · rw [bne_eq_false_iff_eq, h16]
    · rw [and_formatV_eq_zero_iff]
    · rw [bne_eq_false_iff_eq, h8]

/-- The rows select exactly the words that are not reserved. -/
theorem exists_row_iff (c : Word) :
    (∃ row ∈ opcodeTable, c &&& row.mask = row.pattern) ↔ reservedWord c = false := by
  rw [reservedWord_eq_false_iff]
  constructor
  · rintro ⟨row, hrow, hmatch⟩
    obtain ⟨hop, hzero⟩ := (row_matches_iff c hrow).mp hmatch
    obtain ⟨-, -, -, hle⟩ := row_fixes row hrow
    rw [hop]
    exact ⟨hle, hzero⟩
  · rintro ⟨hop, hzero⟩
    obtain ⟨row, hrow, heq⟩ := exists_row_of_opcode _ (Nat.lt_succ_of_le hop)
    exact ⟨row, hrow, (row_matches_iff c hrow).mpr ⟨heq.symm, heq ▸ hzero⟩⟩

theorem reservedWord_of_decode_error {c : Word} {e : DecodeError} (h : decode c = .error e) : reservedWord c = true := by
  by_contra hres
  obtain ⟨row, hrow, hmatch⟩ := (exists_row_iff c).mpr (Bool.eq_false_iff.mpr hres)
  unfold decode at h
  cases hsel : selectRow c with
  | some row => simp [hsel] at h
  | none => exact List.find?_eq_none.mp hsel row hrow (beq_iff_eq.mpr hmatch)

/-! ## The operands that are not well formed (R145 (2) and (3)) -/

theorem toNat_aField (c : Word) : (aField c).toNat = c.toNat / 256 % 256 := by
  simp [aField, Nat.shiftRight_eq_div_pow]

theorem toNat_kind_viewField (c : Word) : (viewField c).kind.toNat = c.toNat / 256 % 8 := by
  simp [viewField, Nat.shiftRight_eq_div_pow]

/-- The operand check of a word, by its opcode and its operand bits, is the check of the command its row builds. -/
theorem illegalWord_of_row (c : Word) : ∀ row ∈ opcodeTable, c.toNat % 256 = row.pattern.toNat →
    illegalWord c = (reservedWord c || !(row.build c).wf) := by
  have hkind (k : Nat) : decide (6 ≤ k) = !decide (k ≤ 5) := by
    rw [← decide_not, decide_eq_decide]
    omega
  have hcount (n : Nat) : (n == 0 || decide (4 < n)) = !(decide (1 ≤ n) && decide (n ≤ 4)) := by
    rw [beq_eq_decide, ← Bool.decide_and, ← Bool.decide_or, ← decide_not, decide_eq_decide]
    omega
  simp +contextual [opcodeTable, illegalWord, Instr.wf, ViewSel.wf, hkind, hcount, toNat_aField, toNat_kind_viewField]

theorem illegalWord_of_decode_ok {c : Word} {i : Instr} (h : decode c = .ok i) : illegalWord c = !i.wf := by
  obtain ⟨row, hrow, hmatch, rfl⟩ := exists_row_of_decode h
  have hres : reservedWord c = false := (exists_row_iff c).mp ⟨row, hrow, hmatch⟩
  rw [illegalWord_of_row c row hrow ((row_matches_iff c hrow).mp hmatch).1, hres, Bool.false_or]

theorem illegalWord_of_decode_error {c : Word} {e : DecodeError} (h : decode c = .error e) : illegalWord c = true := by
  rw [illegalWord, reservedWord_of_decode_error h, Bool.true_or, Bool.true_or]

/-! ## The commands that raise ILLEGAL -/

theorem viewSel_wf_eq_false_iff (sel : ViewSel) : sel.wf = false ↔ 6 ≤ sel.kind.toNat :=
  decide_eq_false_iff_not.trans Nat.not_le

/-- A reserved KIND is caught before anything else of the operand (R89). -/
theorem checkView_of_not_wf {sel : ViewSel} (h : sel.wf = false) (w : Nat) : checkView w sel = .error .illegal :=
  checkView_reserved w sel ((viewSel_wf_eq_false_iff sel).mp h)

theorem wf_hashUpdate_eq_false_iff (n : BitVec 8) :
    (Instr.hashUpdate n).wf = false ↔ ¬(1 ≤ n.toNat ∧ n.toNat ≤ 4) := by
  simp [Instr.wf]

theorem resultCode_eq_illegal_iff (i : Instr) (s : State) : resultCode i s = .illegal ↔ i.wf = false := by
  cases i with
  | viewGet sel | viewXor sel => simp [resultCode, viewError_eq_illegal_iff, Instr.wf, viewSel_wf_eq_false_iff]
  | viewSet sel => simp [resultCode_viewSet_eq_iff, viewError_eq_illegal_iff, Instr.wf, viewSel_wf_eq_false_iff]
  | hashUpdate n =>
    rw [wf_hashUpdate_eq_false_iff, resultCode]
    split_ifs
    · exact iff_of_true rfl (by omega)
    · exact iff_of_false nofun (by omega)
    · exact iff_of_false nofun (by omega)
  | _ => simp [resultCode, Instr.wf, ite_eq_iff]

theorem commandRun_of_not_wf {i : Instr} (h : i.wf = false) (s : State) : commandRun i s = .raised .illegal := by
  cases i with
  | hashUpdate n => exact runHashUpdate_illegal ((wf_hashUpdate_eq_false_iff n).mp h) s
  | viewGet sel => rw [commandRun, runViewGet, checkView_of_not_wf h]
  | viewSet sel => rw [commandRun, runViewSet, checkView_of_not_wf h]
  | viewXor sel => rw [commandRun, runViewXor, checkView_of_not_wf h]
  | _ => cases h

/-! ## The ENGINE step (R132, R145) -/

theorem step_illegalWord {s s' : State} (hmove : nextMove s = .engine s') (hword : illegalWord s'.pend = true) :
    step s = .next (failed .illegal s') := by
  cases hfetch : fetch s' with
  | ok i =>
    have hwf : i.wf = false := by
      simpa [illegalWord_of_decode_ok hfetch] using hword
    rw [step_of_fetch_ok hmove hfetch, exec_of_run_raised i (commandRun_of_not_wf hwf s')]
  | error e => exact step_illegal_of_fetch_error hmove hfetch

theorem illegalWord_of_step_illegal {s s' t : State} (hmove : nextMove s = .engine s') (hstep : step s = .next t)
    (herr : t.status.err = .illegal) : illegalWord s'.pend = true := by
  cases hfetch : fetch s' with
  | ok i =>
    rw [step_of_fetch_ok hmove hfetch] at hstep
    rw [err_of_exec hstep, resultCode_eq_illegal_iff] at herr
    rw [illegalWord_of_decode_ok hfetch, herr, Bool.not_false]
  | error e => exact illegalWord_of_decode_error hfetch

/-- Settles O5: a CMD write does not look at its word; at the ENGINE step the illegal words are those that decode to no command
or to one that is not well formed. -/
theorem illegalCommandExactly : Obligations.IllegalCommandExactly := by
  refine ⟨fun s c hidle => ?_, fun _ _ => step_illegalWord, fun _ _ _ => illegalWord_of_step_illegal⟩
  rw [writeReg_cmd, accept_idle c s hidle, Status.accepted]

end Sys2Proof.Machine
end

section
/-!
PROOFS. The decoder and the encoder (30_encoding.md rules R59 to R65): a word selects at most one row of the table, the row of a
command selects its word and builds the command back, and a row leaves no bit of its words unread.
-/
namespace Sys2Proof.Machine

open Sys2Proof.Laws.FixedBits (formatA_fixed formatV_fixed)

/-! ## The row of a word (R64) -/

theorem patterns_nodup : (opcodeTable.map OpRow.pattern).Nodup := by decide

/-- Two rows that match one word both have its opcode as their pattern. -/
theorem row_unique {c : Word} {row row' : OpRow} (h : row ∈ opcodeTable) (h' : row' ∈ opcodeTable)
    (hmatch : c &&& row.mask = row.pattern) (hmatch' : c &&& row'.mask = row'.pattern) : row = row' := by
  obtain ⟨hop, -⟩ := (row_matches_iff c h).mp hmatch
  obtain ⟨hop', -⟩ := (row_matches_iff c h').mp hmatch'
  exact List.inj_on_of_nodup_map patterns_nodup h h' (BitVec.eq_of_toNat_eq (hop.symm.trans hop'))

theorem decode_of_row {c : Word} {row : OpRow} (h : row ∈ opcodeTable) (hmatch : c &&& row.mask = row.pattern) :
    decode c = .ok (row.build c) := by
  rw [decode]
  cases hsel : selectRow c with
  | none => exact absurd (beq_iff_eq.mpr hmatch) (List.find?_eq_none.mp hsel row h)
  | some row' =>
    have hmatch' : c &&& row'.mask = row'.pattern := by simpa using List.find?_some hsel
    rw [row_unique h (List.mem_of_find?_eq_some hsel) hmatch hmatch']

/-! ## The operands of an encoded word (R60, R61) -/

theorem aField_encodeA (op a : BitVec 8) : aField (encodeA op a) = a := by
  apply BitVec.eq_of_getLsbD_eq
  intro i hi
  have h32 : 8 + i < 32 := by omega
  simp [aField, encodeA, hi, h32]

theorem viewField_encodeV (op : BitVec 8) (sel : ViewSel) : viewField (encodeV op sel) = sel := by
  have hkind : (encodeV op sel).extractLsb' 8 3 = sel.kind := by
    ext i hi
    interval_cases i <;> simp [encodeV]
  have hall : (encodeV op sel).getLsbD 11 = sel.all := by simp [encodeV]
  have hx : (encodeV op sel).extractLsb' 16 3 = sel.x := by
    ext i hi
    interval_cases i <;> simp [encodeV]
  have hy : (encodeV op sel).extractLsb' 20 3 = sel.y := by
    ext i hi
    interval_cases i <;> simp [encodeV]
  have hz : (encodeV op sel).extractLsb' 24 6 = sel.z := by
    ext i hi
    interval_cases i <;> simp [encodeV]
  rw [viewField, hkind, hall, hx, hy, hz]

/-- The row of a command matches its word and reads its operands back. -/
theorem exists_row_of_instr (i : Instr) :
    ∃ row ∈ opcodeTable, encode i &&& row.mask = row.pattern ∧ row.build (encode i) = i := by
  have formatN (op : BitVec 8) : encodeN op &&& maskN = op.setWidth 32 := BitVec.and_allOnes
  have formatA (op a : BitVec 8) := (formatA_fixed op a).2
  have formatV (op : BitVec 8) (sel : ViewSel) := (formatV_fixed op sel).2
  cases i <;> simp [opcodeTable, encode, aField_encodeA, viewField_encodeV, formatN, formatA, formatV]

/-- Settles O2: a command's row matches its word, and the row a word selects is the one that matches it. -/
theorem decodeOfEncode : Obligations.DecodeOfEncode := by
  intro i
  obtain ⟨row, hrow, hmatch, hbuild⟩ := exists_row_of_instr i
  rw [decode_of_row hrow hmatch, hbuild]

/-! ## The word of a decoded command (R64) -/

theorem encodeN_of_and_maskN {c : Word} {op : BitVec 8} (h : c &&& maskN = op.setWidth 32) : encodeN op = c := by
  rw [encodeN, ← h]
  exact BitVec.and_allOnes

/-- Format A frees the eight bits its operand is read from. -/
theorem encodeA_aField {c : Word} {op : BitVec 8} (h : c &&& maskA = op.setWidth 32) : encodeA op (aField c) = c := by
  rw [encodeA, ← h]
  apply BitVec.eq_of_getLsbD_eq
  intro i hi
  simp only [aField, maskA, BitVec.getLsbD_or, BitVec.getLsbD_and, BitVec.getLsbD_shiftLeft, BitVec.getLsbD_setWidth,
    BitVec.getLsbD_extractLsb']
  interval_cases i <;> simp

/-- Format V frees the bits of KIND, ALL, X, Y and Z and no other. -/
theorem encodeV_viewField {c : Word} {op : BitVec 8} (h : c &&& maskV = op.setWidth 32) :
    encodeV op (viewField c) = c := by
  rw [encodeV, ← h]
  apply BitVec.eq_of_getLsbD_eq
  intro i hi
  simp only [viewField, maskV, BitVec.getLsbD_or, BitVec.getLsbD_and, BitVec.getLsbD_shiftLeft, BitVec.getLsbD_setWidth,
    BitVec.getLsbD_extractLsb', BitVec.getLsbD_ofBool]
  interval_cases i <;> simp

/-- Every row is in one of the three formats, its pattern being its opcode (R60). -/
theorem row_format : ∀ row ∈ opcodeTable, ∃ op : BitVec 8, row.pattern = op.setWidth 32 ∧
    ((row.mask = maskN ∧ ∀ c, encode (row.build c) = encodeN op) ∨
      (row.mask = maskA ∧ ∀ c, encode (row.build c) = encodeA op (aField c)) ∨
      (row.mask = maskV ∧ ∀ c, encode (row.build c) = encodeV op (viewField c))) := by
  refine fun row hrow => ⟨row.pattern.setWidth 8, ?_⟩
  revert row
  simp [opcodeTable, encode]

theorem encode_build {c : Word} {row : OpRow} (h : row ∈ opcodeTable) (hmatch : c &&& row.mask = row.pattern) :
    encode (row.build c) = c := by
  obtain ⟨op, hop, ⟨hmask, hencode⟩ | ⟨hmask, hencode⟩ | ⟨hmask, hencode⟩⟩ := row_format row h <;>
    rw [hmask, hop] at hmatch <;> rw [hencode]
  · exact encodeN_of_and_maskN hmatch
  · exact encodeA_aField hmatch
  · exact encodeV_viewField hmatch

/-- Settles O3: the word that decodes to a command matches the row that builds it. -/
theorem encodeOfDecode : Obligations.EncodeOfDecode := by
  intro c i h
  obtain ⟨row, hrow, hmatch, rfl⟩ := exists_row_of_decode h
  exact encode_build hrow hmatch

/-! ## The words that decode to no command (R65) -/

/-- Settles O4: a word is reserved exactly when no row matches it. -/
theorem decoderRefusesExactlyReserved : Obligations.DecoderRefusesExactlyReserved := by
  intro c
  refine ⟨fun ⟨e, he⟩ => reservedWord_of_decode_error he, fun hres => ?_⟩
  cases hdec : decode c with
  | error e => exact ⟨e, rfl⟩
  | ok i =>
    obtain ⟨row, hrow, hmatch, -⟩ := exists_row_of_decode hdec
    have hfree : reservedWord c = false := (exists_row_iff c).mp ⟨row, hrow, hmatch⟩
    exact absurd hres (Bool.eq_false_iff.mp hfree)

/-- Settles O1: each of the ten words is decoded by the table. -/
theorem sampleWordsDecode : Obligations.SampleWordsDecode := by
  unfold Obligations.SampleWordsDecode
  decide

end Sys2Proof.Machine
end

section
/-!
PROOFS. The views of the state cube (41_cube_views.md rules R84 to R89): every bit of a valid view has its coordinates in the
cube, and no two bits of a view have the same.
-/
namespace Sys2Proof.Machine

/-! ## The coordinates of a view's bits lie in the cube (R86, R87) -/

/-- Coordinates of the cube `5 × 5 × w` (R84). -/
def InCube (w : Nat) (c : Nat × Nat × Nat) : Prop := c.1 < 5 ∧ c.2.1 < 5 ∧ c.2.2 < w

theorem inCube_bulk {w : Nat} (hw : 0 < w) {sel : ViewSel} {kind : ViewKind}
    (hkind : kindOfCode sel.kind = some kind) (hall : sel.all = true) {k : Nat} (hk : k < 25 * w) :
    InCube w (viewCoord w sel k) := by
  have hhigh : k / (5 * w) < 5 := Nat.div_lt_of_lt_mul (by omega)
  have hslice : k / 25 < w := Nat.div_lt_of_lt_mul hk
  have h5 (n : Nat) : n % 5 < 5 := Nat.mod_lt n (by decide)
  have hz (n : Nat) : n % w < w := Nat.mod_lt n hw
  rcases kindOfCode_cases _ _ hkind with ⟨-, h⟩ | ⟨-, h⟩ | ⟨-, h⟩ | ⟨-, h⟩ | ⟨-, h⟩ | ⟨-, h⟩ <;>
    simp [InCube, viewCoord, hall, h, hhigh, hslice, h5, hz]

theorem inCube_single {w : Nat} (hw : 0 < w) {sel : ViewSel} {kind : ViewKind}
    (hkind : kindOfCode sel.kind = some kind) (hall : sel.all = false)
    (hin : coordsInRange kind w sel.x.toNat sel.y.toNat sel.z.toNat = true) {k : Nat} (hk : k < singleLen kind w) :
    InCube w (viewCoord w sel k) := by
  have hz : k % w < w := Nat.mod_lt k hw
  have h5 : k % 5 < 5 := Nat.mod_lt k (by decide)
  have hdiv (h : k < 5 * w) : k / w < 5 := Nat.div_lt_of_lt_mul (by omega)
  have hrow (h : k < 25) : k / 5 < 5 := Nat.div_lt_of_lt_mul h
  rcases kindOfCode_cases _ _ hkind with ⟨rfl, h⟩ | ⟨rfl, h⟩ | ⟨rfl, h⟩ | ⟨rfl, h⟩ | ⟨rfl, h⟩ | ⟨rfl, h⟩ <;>
    simp_all [InCube, viewCoord, coordsInRange, singleLen]

theorem inCube_viewCoord {w : Nat} (hw : 0 < w) {sel : ViewSel} (hvalid : viewValid w sel = true) {k : Nat}
    (hk : k < viewLength w sel) : InCube w (viewCoord w sel k) := by
  obtain ⟨kind, hcheck, hkind⟩ := exists_kind_of_viewValid hvalid
  rw [← viewLen_of_checkView hcheck, viewLen] at hk
  cases hall : sel.all with
  | true => exact inCube_bulk hw hkind hall (by simpa [hall] using hk)
  | false =>
    obtain ⟨-, hin⟩ := (checkView_ok_iff w sel kind).mp hcheck
    exact inCube_single hw hkind hall (by simpa [hall] using hin) (by simpa [hall] using hk)

theorem viewPos_lt {w : Nat} (hw : 0 < w) {sel : ViewSel} (hvalid : viewValid w sel = true) {k : Nat}
    (hk : k < viewLength w sel) : viewPos w sel k < 25 * w := by
  obtain ⟨hx, hy, hz⟩ := inCube_viewCoord hw hvalid hk
  exact flatIdx_lt w _ _ _ hx hy hz

/-! ## They are distinct -/

/-- A number is known from its digits in a mixed radix. -/
theorem eq_of_digits_eq {m n j k : Nat} (hlow : j % m = k % m) (hmid : j / m % n = k / m % n)
    (hhigh : j / (m * n) = k / (m * n)) : j = k := by
  rw [← Nat.div_div_eq_div_mul, ← Nat.div_div_eq_div_mul] at hhigh
  exact Nat.ext_div_mod (Nat.ext_div_mod hhigh hmid) hlow

theorem viewCoord_bulk_injective (w : Nat) {sel : ViewSel} {kind : ViewKind} (hkind : kindOfCode sel.kind = some kind)
    (hall : sel.all = true) {j k : Nat} (heq : viewCoord w sel j = viewCoord w sel k) : j = k := by
  have hlanes (hlow : j % w = k % w) (hmid : j / w % 5 = k / w % 5) (hhigh : j / (5 * w) = k / (5 * w)) : j = k :=
    eq_of_digits_eq hlow hmid (by rwa [Nat.mul_comm] at hhigh)
  have hplanes (hlow : j % 5 = k % 5) (hmid : j / 5 % w = k / 5 % w) (hhigh : j / (5 * w) = k / (5 * w)) : j = k :=
    eq_of_digits_eq hlow hmid hhigh
  rcases kindOfCode_cases _ _ hkind with ⟨-, h⟩ | ⟨-, h⟩ | ⟨-, h⟩ | ⟨-, h⟩ | ⟨-, h⟩ | ⟨-, h⟩ <;>
    simp only [viewCoord, h, hall, Prod.mk.injEq] at heq <;> obtain ⟨hx, hy, hz⟩ := heq
  · exact hlanes hz hx hy
  · exact hlanes hz hx hy
  · exact hlanes hz hy hx
  · exact hplanes hx hz hy
  · exact hplanes hy hz hx
  · exact eq_of_digits_eq (n := 5) hx hy hz

theorem viewCoord_single_injective (w : Nat) {sel : ViewSel} {kind : ViewKind} (hkind : kindOfCode sel.kind = some kind)
    (hall : sel.all = false) {j k : Nat} (heq : viewCoord w sel j = viewCoord w sel k) : j = k := by
  rcases kindOfCode_cases _ _ hkind with ⟨-, h⟩ | ⟨-, h⟩ | ⟨-, h⟩ | ⟨-, h⟩ | ⟨-, h⟩ | ⟨-, h⟩ <;>
    simp only [viewCoord, h, hall, Prod.mk.injEq] at heq <;> obtain ⟨hx, hy, hz⟩ := heq
  · exact hz
  · exact Nat.ext_div_mod hx hz
  · exact Nat.ext_div_mod hy hz
  · exact hx
  · exact hy
  · exact Nat.ext_div_mod hy hx

theorem flatIdx_injective {w : Nat} {c d : Nat × Nat × Nat} (hc : InCube w c) (hd : InCube w d)
    (heq : flatIdx w c.1 c.2.1 c.2.2 = flatIdx w d.1 d.2.1 d.2.2) : c = d := by
  obtain ⟨hcx, -, hcz⟩ := hc
  obtain ⟨hdx, -, hdz⟩ := hd
  obtain ⟨cx, cy, cz⟩ := flatIdx_coords w _ c.2.1 _ hcx hcz
  obtain ⟨dx, dy, dz⟩ := flatIdx_coords w _ d.2.1 _ hdx hdz
  rw [heq] at cx cy cz
  exact Prod.ext (cx.symm.trans dx) (Prod.ext (cy.symm.trans dy) (cz.symm.trans dz))

theorem viewPos_injective {w : Nat} (hw : 0 < w) {sel : ViewSel} (hvalid : viewValid w sel = true) {j k : Nat}
    (hj : j < viewLength w sel) (hk : k < viewLength w sel) (heq : viewPos w sel j = viewPos w sel k) : j = k := by
  obtain ⟨kind, -, hkind⟩ := exists_kind_of_viewValid hvalid
  have hcoord := flatIdx_injective (inCube_viewCoord hw hvalid hj) (inCube_viewCoord hw hvalid hk) heq
  cases hall : sel.all with
  | true => exact viewCoord_bulk_injective w hkind hall hcoord
  | false => exact viewCoord_single_injective w hkind hall hcoord

/-! ## A bulk view is a permutation of the state (R87) -/

theorem viewLength_bulk (w : Nat) {sel : ViewSel} (hall : sel.all = true) : viewLength w sel = 25 * w := if_pos hall

/-- The positions are as many as the bits of the state, and distinct. -/
theorem viewPos_surjective {w : Nat} (hw : 0 < w) {sel : ViewSel} (hvalid : viewValid w sel = true)
    (hall : sel.all = true) {i : Nat} (hi : i < 25 * w) : ∃ k < 25 * w, viewPos w sel k = i := by
  have hmaps : Set.MapsTo (viewPos w sel) (Finset.range (25 * w)) (Finset.range (25 * w)) := fun k hk =>
    Finset.mem_coe.mpr (Finset.mem_range.mpr (viewPos_lt hw hvalid (by simpa [viewLength_bulk w hall] using hk)))
  have hinj : Set.InjOn (viewPos w sel) (Finset.range (25 * w)) := fun j hj k hk =>
    viewPos_injective hw hvalid (by simpa [viewLength_bulk w hall] using hj) (by simpa [viewLength_bulk w hall] using hk)
  simpa using Finset.surjOn_of_injOn_of_card_le _ hmaps hinj le_rfl (by simpa using hi)

/-- Settles O25: the coordinates of a view's bits lie in the cube and are distinct, and a bulk view has as many bits as the
state. -/
theorem viewPositionsDistinct : Obligations.ViewPositionsDistinct := fun l _ _ hvalid =>
  have hw : 0 < 2 ^ l := Nat.two_pow_pos l
  ⟨fun _ hk => viewPos_lt hw hvalid hk, fun _ hj _ hk => viewPos_injective hw hvalid hj hk,
    fun hall _ hi => viewPos_surjective hw hvalid hall hi⟩

end Sys2Proof.Machine
end

section
/-!
PROOFS. The commands that write and read the state through a view: VIEW_SET, VIEW_XOR, and VIEW_GET on the alternating pattern
(41_cube_views.md rules R93 to R95).
-/
namespace Sys2Proof.Machine

/-! ## Writes at a view's positions -/

theorem viewBit_eq (w : Nat) (sel : ViewSel) (S : Store) (k : Nat) :
    viewBit w sel S k = S.getLsbD (viewPos w sel k) := rfl

section
variable {c : CfgReg} (hlegal : c.legal = true) {sel : ViewSel} (hvalid : viewValid c.w sel = true)
include hlegal hvalid

theorem viewPos_lt_storage {k : Nat} (hk : k < viewLength c.w sel) : viewPos c.w sel k < 1600 :=
  (viewPos_lt c.w_pos hvalid hk).trans_le (CfgReg.b_le_of_legal hlegal)

/-- Every bit of the view gets its value, the positions being distinct. -/
theorem viewBit_scatter (f : Nat → Bool) (S : Store) {k : Nat} (hk : k < viewLength c.w sel) :
    viewBit c.w sel (scatter (viewPos c.w sel) f (viewLength c.w sel) S) k = f k :=
  getLsbD_scatter _ f _ S k hk (fun _ => viewPos_lt_storage hlegal hvalid)
    (fun _ hi _ hj => viewPos_injective c.w_pos hvalid hi hj)

theorem getLsbD_scatter_outside (f : Nat → Bool) (S : Store) {i : Nat}
    (hi : ∀ k < viewLength c.w sel, viewPos c.w sel k ≠ i) :
    (scatter (viewPos c.w sel) f (viewLength c.w sel) S).getLsbD i = S.getLsbD i :=
  getLsbD_scatter_other _ f _ S i (fun _ => viewPos_lt_storage hlegal hvalid) hi

end

theorem viewIdx_of_kind (w : Nat) {sel : ViewSel} {kind : ViewKind} (hkind : kindOfCode sel.kind = some kind) :
    viewIdx kind w sel = viewPos w sel := funext (viewIdx_eq w sel kind hkind)

/-! ## VIEW_SET (R93) -/

theorem runViewSet_of_checkView_error {s : State} {sel : ViewSel} {e : ErrCode}
    (h : checkView s.actcfg.w sel = .error e) : runViewSet sel s = .raised e := by
  rw [runViewSet, h]

theorem runViewSet_of_length_ne {s : State} {sel : ViewSel} (hvalid : viewValid s.actcfg.w sel = true)
    (hlen : s.vlen.toNat ≠ viewLength s.actcfg.w sel) : runViewSet sel s = .raised .length := by
  obtain ⟨kind, hcheck, hkind⟩ := exists_kind_of_viewValid hvalid
  rw [runViewSet, hcheck]
  exact if_pos (viewLen_eq _ _ _ hkind ▸ hlen)

/-- The state VIEW_SET stages: VIEWBUF at the view's positions. -/
def viewWritten (sel : ViewSel) (s : State) : State :=
  { s.drew (viewLength s.actcfg.w sel) with
    store := scatter (viewPos s.actcfg.w sel) (viewOperand s) (viewLength s.actcfg.w sel) s.store }

theorem runViewSet_of_length_eq {s : State} {sel : ViewSel} (hvalid : viewValid s.actcfg.w sel = true)
    (hlen : s.vlen.toNat = viewLength s.actcfg.w sel) : runViewSet sel s = .done false (viewWritten sel s) := by
  obtain ⟨kind, hcheck, hkind⟩ := exists_kind_of_viewValid hvalid
  rw [runViewSet, hcheck]
  simp only [viewLen_eq _ _ _ hkind, viewIdx_of_kind _ hkind, hlen, ne_eq, not_true_eq_false, if_false]
  rfl

/-- Settles O27: the errors are those of the run's checks in order; past them VIEWBUF is written at distinct positions. -/
theorem viewSetResult : Obligations.ViewSetResult :=
  ⟨by decide, fun s sel =>
    ⟨fun hkind => exec_of_run_raised (.viewSet sel) (runViewSet_of_checkView_error (checkView_reserved _ sel hkind)),
      fun hkind hall hout =>
        exec_of_run_raised (.viewSet sel)
          (runViewSet_of_checkView_error (checkView_out_of_range _ sel hkind hall hout)),
      fun hvalid hlen => exec_of_run_raised (.viewSet sel) (runViewSet_of_length_ne hvalid hlen),
      fun hlegal hvalid hlen =>
        ⟨_, exec_of_run_done (.viewSet sel) (runViewSet_of_length_eq hvalid hlen), rfl,
          fun _ hk => viewBit_scatter hlegal hvalid _ _ hk,
          fun _ hi => getLsbD_scatter_outside hlegal hvalid _ _ hi⟩⟩⟩

/-! ## VIEW_XOR (R94) -/

theorem runViewXor_of_checkView_error {s : State} {sel : ViewSel} {e : ErrCode}
    (h : checkView s.actcfg.w sel = .error e) : runViewXor sel s = .raised e := by
  rw [runViewXor, h]

/-- The state VIEW_XOR stages: VIEWBUF XORed into the view's bits. -/
def viewXored (sel : ViewSel) (s : State) : State :=
  { s.drew (viewLength s.actcfg.w sel) with
    store := scatter (viewPos s.actcfg.w sel) (fun k => viewBit s.actcfg.w sel s.store k ^^ viewOperand s k)
      (viewLength s.actcfg.w sel) s.store }

theorem runViewXor_of_length_eq {s : State} {sel : ViewSel} (hvalid : viewValid s.actcfg.w sel = true)
    (hlen : s.vlen.toNat = viewLength s.actcfg.w sel) : runViewXor sel s = .done false (viewXored sel s) := by
  obtain ⟨kind, hcheck, hkind⟩ := exists_kind_of_viewValid hvalid
  rw [runViewXor, hcheck]
  simp only [viewLen_eq _ _ _ hkind, viewIdx_of_kind _ hkind, hlen, ne_eq, not_true_eq_false, if_false]
  rfl

theorem exec_viewXor_of_length_ne {s : State} {sel : ViewSel} (hvalid : viewValid s.actcfg.w sel = true)
    (hlen : s.vlen.toNat ≠ viewLength s.actcfg.w sel) : exec (.viewXor sel) s = .next (skipped s) :=
  congrArg (commit s) (runViewXor_of_length_ne hvalid hlen)

/-- Settles O28: the two errors are those of `check_view`; then the length decides between the silent no-op and the XOR at
distinct positions. -/
theorem viewXorResult : Obligations.ViewXorResult :=
  ⟨by decide, fun s sel =>
    ⟨fun hkind => exec_of_run_raised (.viewXor sel) (runViewXor_of_checkView_error (checkView_reserved _ sel hkind)),
      fun hkind hall hout =>
        exec_of_run_raised (.viewXor sel)
          (runViewXor_of_checkView_error (checkView_out_of_range _ sel hkind hall hout)),
      exec_viewXor_of_length_ne,
      fun hlegal hvalid hlen =>
        ⟨_, exec_of_run_done (.viewXor sel) (runViewXor_of_length_eq hvalid hlen), rfl,
          fun _ hk => viewBit_scatter hlegal hvalid _ _ hk,
          fun _ hi => getLsbD_scatter_outside hlegal hvalid _ _ hi⟩⟩⟩

/-! ## The alternating pattern (R95) -/

/-- With an even lane depth a flat index has the parity of its z coordinate. -/
theorem flatIdx_mod_two {w : Nat} (hw : w % 2 = 0) (x y z : Nat) : flatIdx w x y z % 2 = z % 2 := by
  rw [flatIdx, Nat.add_mod, Nat.mul_mod, hw, Nat.zero_mul, Nat.zero_mod, Nat.zero_add, Nat.mod_mod]

theorem CfgReg.w_even {c : CfgReg} (h : 1 ≤ c.l.toNat) : c.w % 2 = 0 :=
  Nat.mod_eq_zero_of_dvd (dvd_pow_self 2 (by omega))

/-- Settles O29: VIEW_GET puts bit `k` of the view at bit `k` of VIEWBUF, and its flat index is even iff its z is. -/
theorem alternatingPatternReads : Obligations.AlternatingPatternReads := by
  intro s sel hlegal hdepth hvalid _ hpattern
  obtain ⟨t, hexec, -, -, hbits⟩ := (viewGetResult.2 s sel).2.2 hlegal hvalid
  refine ⟨t, hexec, fun k hk => ?_⟩
  have hpos := viewPos_lt s.actcfg.w_pos hvalid hk
  have hk1600 : k < 1600 :=
    hk.trans_le ((viewLength_le s.actcfg.w_pos hvalid).trans (CfgReg.b_le_of_legal hlegal))
  rw [(hbits k hk1600).2, decide_eq_true hk, Bool.true_and, viewBit_eq, hpattern _ hpos, viewPos,
    flatIdx_mod_two (CfgReg.w_even hdepth)]

end Sys2Proof.Machine
end

section
/-!
PROOFS. Round-function commands issued one after the other (42_round_function.md rules R108, R111, R112): two mappings in a row
are their composition on the `b` bits of the state, since no mapping lets a bit above `b` reach one below. With an illegal
ACTCFG none of them runs (60_exceptions.md rule R149).
-/
namespace Sys2Proof.Machine

/-! ## Writes of the state (R18) -/

/-- Only the first `b` bits of the new value count, and only the other bits of the old one. -/
theorem putState_congr {b : Nat} {old old' T T' : Store} (hold : ∀ i, b ≤ i → old.getLsbD i = old'.getLsbD i)
    (hT : EqBelow b T T') : putState b old T = putState b old' T' := by
  apply BitVec.eq_of_getLsbD_eq
  intro i _
  rw [getLsbD_putState, getLsbD_putState]
  split_ifs with hi
  · exact hT i hi
  · exact hold i (Nat.not_lt.mp hi)

theorem EqBelow.refl (n : Nat) (S : Store) : EqBelow n S S := fun _ _ => rfl

theorem putState_self (b : Nat) (S : Store) : putState b S S = S := by
  apply BitVec.eq_of_getLsbD_eq
  intro i _
  rw [getLsbD_putState, ite_self]

theorem putState_eq_of_le (b : Nat) (old T : Store) {i : Nat} (hi : b ≤ i) :
    (putState b old T).getLsbD i = old.getLsbD i := by
  rw [getLsbD_putState, if_neg (Nat.not_lt.mpr hi)]

/-! ## Mappings in a row -/

/-- The mapping reads the `b` bits of the state and nothing above them, as far as its own first `b` bits go. -/
def ReadsCube (g : Nat → Store → Store) : Prop :=
  ∀ (l : Nat) (S T : Store), EqBelow (25 * 2 ^ l) S T → EqBelow (25 * 2 ^ l) (g l S) (g l T)

theorem readsCube_of_congr {g : Nat → Store → Store}
    (h : ∀ (l : Nat) (S T : Store), EqBelow (25 * 2 ^ l) S T → g l S = g l T) : ReadsCube g := by
  intro l S T hST i _
  rw [h l S T hST]

theorem mapped_mapped {g : Nat → Store → Store} (hg : ReadsCube g) (f : Nat → Store → Store) (s : State) :
    mapped g (mapped f s) = mapped (fun l S => g l (f l S)) s := by
  have hstore : putState s.actcfg.b (mapped f s).store (g s.actcfg.lNat (mapped f s).store) =
      putState s.actcfg.b s.store (g s.actcfg.lNat (f s.actcfg.lNat s.store)) :=
    putState_congr (fun _ => putState_eq_of_le _ _ _) (hg _ _ _ (eqBelow_putState _ _ _))
  simp only [mapped, okStatus, completed_completed] at hstore ⊢
  rw [hstore]

theorem execAll_cons {i : Instr} {s t : State} (h : exec i s = .next t) (rest : List Instr) :
    execAll (i :: rest) s = execAll rest t := by
  rw [execAll, h]

theorem execAll_append {front : List Instr} {s t : State} (h : execAll front s = .next t) (rest : List Instr) :
    execAll (front ++ rest) s = execAll rest t := by
  induction front generalizing s with
  | nil =>
    cases h
    rfl
  | cons i front ih =>
    rw [execAll] at h
    rw [List.cons_append, execAll]
    cases hi : exec i s with
    | next u =>
      rw [hi] at h
      exact ih h
    | fault f => simp [hi] at h
    | refused r => simp [hi] at h

/-! ## The five steps of a round (R111) -/

theorem readsCube_rho : ReadsCube fun l S => rho (2 ^ l) S :=
  readsCube_of_congr fun l S T h => ofLanes_congr _ fun x hx y hy => by rw [laneOf_congr h hx hy]

theorem pi_congr {w : Nat} {S T : Store} (h : EqBelow (25 * w) S T) : pi w S = pi w T :=
  ofLanes_congr _ fun _ hx _ _ => by rw [laneOf_congr h (Nat.mod_lt _ (by decide)) hx]

theorem readsCube_pi : ReadsCube fun l S => pi (2 ^ l) S := readsCube_of_congr fun _ _ _ => pi_congr

theorem readsCube_khi : ReadsCube fun l S => khi (2 ^ l) S :=
  readsCube_of_congr fun l S T h => ofLanes_congr _ fun x hx y hy => by
    rw [laneOf_congr h hx hy, laneOf_congr h (Nat.mod_lt _ (by decide)) hy, laneOf_congr h (Nat.mod_lt _ (by decide)) hy]

theorem readsCube_iota (ir : Nat) : ReadsCube fun l S => iota l S ir := fun _ _ _ h => h.xor _

theorem readsCube_roundFn (ir : Nat) : ReadsCube fun l S => roundFn l S ir :=
  readsCube_of_congr fun _ _ _ h => roundFn_congr h ir

/-- One mapping more: its run is composed with what the earlier ones have done. -/
theorem execAll_cons_mapped {i : Instr} {g : Nat → Store → Store} (hrun : ∀ s, commandRun i s = runMapping g s)
    (hg : ReadsCube g) {s : State} (hlegal : s.actcfg.legal = true) (f : Nat → Store → Store) (rest : List Instr) :
    execAll (i :: rest) (mapped f s) = execAll rest (mapped (fun l S => g l (f l S)) s) := by
  have hexec : exec i (mapped f s) = .next (mapped g (mapped f s)) := exec_of_runMapping (hrun _) hlegal
  rw [execAll_cons hexec, mapped_mapped hg]

theorem commandRun_round (ir : BitVec 8) (s : State) :
    commandRun (.round ir) s = runMapping (fun l S => roundFn l S (operandA ir)) s := rfl

theorem commandRun_permute (s : State) : commandRun .permute s = runMapping keccakF s := rfl

theorem exec_round (ir : BitVec 8) {s : State} (hlegal : s.actcfg.legal = true) :
    exec (.round ir) s = .next (mapped (fun l S => roundFn l S (operandA ir)) s) :=
  exec_of_runMapping (commandRun_round ir s) hlegal

/-- Settles O36: the five mappings in a row compose to the round. -/
theorem roundIsFiveSteps : Obligations.RoundIsFiveSteps := by
  intro s ir hlegal
  refine ⟨_, exec_round ir hlegal, ?_, writesOnlyCube_mapped _ s⟩
  rw [execAll_cons (exec_of_runMapping (commandRun_theta _) hlegal),
    execAll_cons_mapped commandRun_rho readsCube_rho hlegal, execAll_cons_mapped commandRun_pi readsCube_pi hlegal,
    execAll_cons_mapped commandRun_khi readsCube_khi hlegal,
    execAll_cons_mapped (commandRun_iota ir) (readsCube_iota _) hlegal, execAll]
  rfl

/-! ## The rounds of Keccak-f (R112) -/

/-- The command ROUND `k`. -/
def roundInstr (k : Nat) : Instr := .round (BitVec.ofNat 8 k)

theorem commandRun_roundInstr {k : Nat} (hk : k < 256) (s : State) :
    commandRun (roundInstr k) s = runMapping (fun l S => roundFn l S k) s := by
  have hoperand : operandA (BitVec.ofNat 8 k) = k := by rw [operandA, BitVec.toNat_ofNat, Nat.mod_eq_of_lt hk]
  rw [roundInstr, commandRun, hoperand]

theorem execAll_rounds {s : State} (hlegal : s.actcfg.legal = true) {n : Nat} (hn : n < 256) :
    execAll ((List.range (n + 1)).map roundInstr) s = .next (mapped (fun l S => roundsUpTo l S (n + 1)) s) := by
  induction n with
  | zero => exact execAll_cons (exec_of_runMapping (commandRun_roundInstr hn s) hlegal) []
  | succ n ih =>
    rw [List.range_succ, List.map_append, execAll_append (ih (by omega)), List.map_singleton,
      execAll_cons_mapped (commandRun_roundInstr hn) (readsCube_roundFn _) hlegal, execAll]
    rfl

/-- Settles O37: the rounds `0 .. n` in a row are `n + 1` rounds of the permutation. -/
theorem permuteIsRounds : Obligations.PermuteIsRounds := by
  intro s hlegal
  have hl := ((legal_iff s.actcfg).mp hlegal).1
  have hcount : 12 + 2 * s.actcfg.l.toNat = 11 + 2 * s.actcfg.l.toNat + 1 := by omega
  have hmapped : mapped keccakF s = mapped (fun l S => roundsUpTo l S (12 + 2 * s.actcfg.l.toNat)) s := rfl
  refine ⟨mapped keccakF s, exec_permute hlegal, ?_, writesOnlyCube_mapped keccakF s⟩
  rw [hmapped, hcount]
  exact execAll_rounds hlegal (by omega)

/-! ## The period of the round index (R111) -/

/-- The round-constant bits have period 255, and the index counts in steps of 7. -/
theorem rcLaneBelow_255 (n : Nat) : rcLaneBelow 255 n = rcLaneBelow 0 n := by
  induction n with
  | zero => rfl
  | succ n ih =>
    have hrc : rc (n + 7 * 255) = rc (n + 7 * 0) := by rw [rc, rc, Nat.add_mul_mod_self_right, Nat.mul_zero, Nat.add_zero]
    rw [rcLaneBelow, rcLaneBelow, ih, hrc]

theorem iota_255 (l : Nat) (S : Store) : iota l S 255 = iota l S 0 := by rw [iota, iota, rcLane, rcLane, rcLaneBelow_255]

/-- Settles O38: both commands use the index in ι alone. -/
theorem roundIndexPeriod : Obligations.RoundIndexPeriod := by
  intro s
  have hround : (fun l S => roundFn l S (operandA 255#8)) = fun l S => roundFn l S (operandA 0#8) :=
    funext₂ fun l _ => iota_255 l _
  have hiota : (fun l S => iota l S (operandA 255#8)) = fun l S => iota l S (operandA 0#8) := funext₂ iota_255
  exact ⟨congrArg (fun g => commit s (runMapping g s)) hround, congrArg (fun g => commit s (runMapping g s)) hiota⟩

/-! ## PI twenty-four times (R108) -/

theorem execAll_pi {s : State} (hlegal : s.actcfg.legal = true) (n : Nat) :
    execAll (List.replicate (n + 1) .pi) s = .next (mapped (fun l => (pi (2 ^ l))^[n + 1]) s) := by
  induction n generalizing s with
  | zero => exact execAll_cons (exec_of_runMapping (commandRun_pi s) hlegal) []
  | succ n ih =>
    have hreads : ReadsCube fun l => (pi (2 ^ l))^[n + 1] := readsCube_of_congr fun l S T h => by
      rw [Function.iterate_succ_apply, Function.iterate_succ_apply, pi_congr h]
    rw [List.replicate_succ, execAll_cons (exec_of_runMapping (commandRun_pi s) hlegal),
      ih (s := mapped _ s) hlegal, mapped_mapped hreads]
    rfl

/-- The lane π moves to lane `(x, y)` (R99). -/
def piSource (lane : Nat × Nat) : Nat × Nat := ((lane.1 + 3 * lane.2) % 5, lane.1)

theorem piSource_24 : ∀ x < 5, ∀ y < 5, piSource^[24] (x, y) = (x, y) := by decide

theorem cubeBit_pi_iterate {w : Nat} (hw64 : w ≤ 64) (S : Store) {x y z : Nat} (hx : x < 5) (hy : y < 5) (hz : z < w)
    (n : Nat) :
    cubeBit w ((pi w)^[n] S) x y z = cubeBit w S (piSource^[n] (x, y)).1 (piSource^[n] (x, y)).2 z := by
  induction n generalizing x y with
  | zero => rfl
  | succ n ih =>
    rw [Function.iterate_succ_apply', cubeBit_pi hw64 _ hx hy hz, ih (Nat.mod_lt _ (by decide)) hx,
      Function.iterate_succ_apply]
    rfl

/-- Every bit of the state has its coordinates (R85). -/
theorem flatIdx_of_coords (w i : Nat) : flatIdx w (i / w % 5) (i / w / 5) (i % w) = i := by
  rw [flatIdx, Nat.div_add_mod, Nat.div_add_mod]

theorem eqBelow_of_cubeBit {w : Nat} {S T : Store}
    (h : ∀ x < 5, ∀ y < 5, ∀ z < w, cubeBit w S x y z = cubeBit w T x y z) : EqBelow (25 * w) S T := by
  intro i hi
  have hw : 0 < w := by omega
  have hdiv : i / w < 25 := Nat.div_lt_of_lt_mul (by rwa [Nat.mul_comm])
  have hbit := h (i / w % 5) (by omega) (i / w / 5) (by omega) (i % w) (Nat.mod_lt i hw)
  rwa [cubeBit, cubeBit, flatIdx_of_coords] at hbit

theorem eqBelow_pi_24 {w : Nat} (hw64 : w ≤ 64) (S : Store) : EqBelow (25 * w) ((pi w)^[24] S) S :=
  eqBelow_of_cubeBit fun x hx y hy z hz => by rw [cubeBit_pi_iterate hw64 S hx hy hz, piSource_24 x hx y hy]

/-- Settles O39: twenty-four moves bring every lane back to its place. -/
theorem piTwentyFourTimes : Obligations.PiTwentyFourTimes := by
  intro s hlegal
  have hstore : putState s.actcfg.b s.store ((pi (2 ^ s.actcfg.lNat))^[24] s.store) = s.store :=
    (putState_congr (fun _ _ => rfl) (eqBelow_pi_24 (CfgReg.w_le_of_legal hlegal) s.store)).trans (putState_self _ _)
  rw [execAll_pi hlegal 23, mapped, hstore]

/-! ## An illegal ACTCFG (R149) -/

theorem exec_of_run_stuck {i : Instr} {s : State} {f : Fault} (h : commandRun i s = .stuck f) :
    exec i s = .fault f := by
  rw [exec_eq_commit, h, commit_stuck]

theorem exec_mapping_illegal {i : Instr} {g : Nat → Store → Store} {s : State} (hrun : commandRun i s = runMapping g s)
    (hillegal : s.actcfg.legal = false) : exec i s = .fault .inconsistentStateSize :=
  exec_of_run_stuck (hrun.trans (runMapping_illegal g s hillegal))

theorem exec_absorbBlock_illegal {s : State} (hillegal : s.actcfg.legal = false) :
    exec .absorbBlock s = .fault .inconsistentStateSize :=
  exec_of_run_stuck (if_pos (Bool.eq_false_iff.mp hillegal))

theorem runProcess_illegal {s : State} (hillegal : s.actcfg.legal = false) (hsuffix : s.suffix.len.toNat ≤ 8)
    (hmsg : s.msglen.toNat ≤ 8 * s.params.msgBytes) (hout : (s.outlen.toNat + 7) / 8 ≤ s.params.outBytes) :
    runProcess s = .stuck .inconsistentStateSize := by
  rw [runProcess, if_neg (Nat.not_lt.mpr hsuffix), if_neg (Nat.not_lt.mpr hmsg), if_neg (Nat.not_lt.mpr hout),
    if_pos (Bool.eq_false_iff.mp hillegal)]

/-- Settles O16: every one of these runs asks for a legal ACTCFG, PROCESS after its three checks. -/
theorem roundCommandsStuckOnIllegalConfig : Obligations.RoundCommandsStuckOnIllegalConfig := by
  rintro s i hillegal (hi | ⟨ir, rfl | rfl⟩ | ⟨rfl, hsuffix, hmsg, hout⟩)
  · simp only [List.mem_cons, List.not_mem_nil, or_false] at hi
    obtain rfl | rfl | rfl | rfl | rfl | rfl := hi
    · exact exec_mapping_illegal (commandRun_theta s) hillegal
    · exact exec_mapping_illegal (commandRun_rho s) hillegal
    · exact exec_mapping_illegal (commandRun_pi s) hillegal
    · exact exec_mapping_illegal (commandRun_khi s) hillegal
    · exact exec_mapping_illegal (commandRun_permute s) hillegal
    · exact exec_absorbBlock_illegal hillegal
  · exact exec_mapping_illegal (commandRun_iota ir s) hillegal
  · exact exec_mapping_illegal (commandRun_round ir s) hillegal
  · exact exec_of_run_stuck (runProcess_illegal hillegal hsuffix hmsg hout)

end Sys2Proof.Machine
end

section
/-!
PROOFS. The results of ABSORB_BLOCK (43_sponge.md rule R117) and of PROCESS (rules R115, R120, R123): what each stages, bit by
bit, and why a longer output begins with the shorter one.
-/
namespace Sys2Proof.Machine

/-! ## ABSORB_BLOCK as PERMUTE (R117) -/

/-- The state with VIEWBUF[0..r) XORed into its first `r` bits. -/
def blockXored (s : State) : State :=
  { s.drew s.actcfg.rate.toNat with
    store := s.store ^^^ bitsToStore (bitsOf (viewOperand s) s.actcfg.rate.toNat) }

theorem getLsbD_blockXored {s : State} (hlegal : s.actcfg.legal = true) (i : Nat) :
    (blockXored s).store.getLsbD i =
      (s.store.getLsbD i ^^ (decide (i < s.actcfg.rate.toNat) && viewOperand s i)) := by
  have hrate := (CfgReg.rate_lt_b hlegal).trans_le (CfgReg.b_le_of_legal hlegal)
  rw [blockXored, BitVec.getLsbD_xor, getLsbD_bitsToStore, getD_bitsOf]
  by_cases hi : i < s.actcfg.rate.toNat
  · simp [hi, hi.trans hrate]
  · simp [hi]

/-- The rate part lies in the state, so the block changes no bit of STORE above `b`. -/
theorem getLsbD_blockXored_of_le {s : State} (hlegal : s.actcfg.legal = true) {i : Nat} (hi : s.actcfg.b ≤ i) :
    (blockXored s).store.getLsbD i = s.store.getLsbD i := by
  have hge : ¬i < s.actcfg.rate.toNat := Nat.not_lt.mpr ((CfgReg.rate_lt_b hlegal).le.trans hi)
  rw [getLsbD_blockXored hlegal, decide_eq_false hge, Bool.false_and, Bool.xor_false]

theorem mapped_blockXored {s : State} (hlegal : s.actcfg.legal = true) :
    mapped keccakF (blockXored s) = complete .none false (absorbed s) := by
  have habsorbed : (absorbed s).store = putState s.actcfg.b s.store (keccakF s.actcfg.lNat (blockXored s).store) := by
    rw [absorbed, absorbOne, blockXored]
  have hcfg : (blockXored s).actcfg = s.actcfg := rfl
  rw [mapped, hcfg, putState_congr (fun _ => getLsbD_blockXored_of_le hlegal) (EqBelow.refl _ _), ← habsorbed]
  rfl

/-- Settles O41: with VLEN = RATE the block is XORed into the state and the permutation follows, as PERMUTE does it. -/
theorem absorbBlockResult : Obligations.AbsorbBlockResult :=
  ⟨by decide, fun s hlegal =>
    ⟨fun hvlen =>
        ⟨blockXored s, mapped keccakF (blockXored s),
          (exec_absorbBlock hlegal hvlen).trans (congrArg _ (mapped_blockXored hlegal).symm), exec_permute hlegal, rfl,
          getLsbD_blockXored hlegal⟩,
      fun hvlen => congrArg (commit s) (runAbsorbBlock_of_vlen_ne hlegal hvlen)⟩⟩

/-! ## The result of PROCESS (R120) -/

theorem exec_process {s : State} (hlegal : s.actcfg.legal = true) (hsuffix : s.suffix.len.toNat ≤ 8)
    (hmsg : s.msglen.toNat ≤ 8 * s.params.msgBytes) (hout : (s.outlen.toNat + 7) / 8 ≤ s.params.outBytes) :
    exec .process s = .next { processed s with status := okStatus s } :=
  exec_of_run_done .process ((runProcess_done_iff s false _).mpr ⟨hsuffix, hmsg, hout, hlegal, rfl, rfl⟩)

theorem isWritten_processed {s : State} {i : Nat} (hi : i < 8 * s.params.outBytes) :
    (processed s).outbuf.isWritten i = true := by
  rw [processed, (Memory.bits_full _ i).1, length_toBytesN, decide_eq_true hi]

/-- The output has OUTLEN bits (R115 (5)). -/
theorem getD_processSponge_of_le {s : State} {i : Nat} (hi : s.outlen.toNat ≤ i) :
    (processSponge s).1.getD i false = false :=
  List.getD_eq_default _ _ ((List.length_take_le _ _).trans hi)

theorem storedBit_processed_eq {s : State} {i : Nat} (hi : i < 8 * s.params.outBytes) :
    (processed s).outbuf.storedBit i = (decide (i < s.outlen.toNat) && (processSponge s).1.getD i false) := by
  rw [storedBit_processed hi]
  by_cases h : i < s.outlen.toNat
  · rw [decide_eq_true h, Bool.true_and]
  · rw [getD_processSponge_of_le (Nat.not_lt.mp h), Bool.and_false]

/-- Settles O43: OUTBUF holds the bytes of the sponge's output, filled up with zeros, and the state the sponge's final `T`. -/
theorem processResult : Obligations.ProcessResult := fun s hlegal hsuffix hmsg hout =>
  ⟨_, processSponge s, exec_process hlegal hsuffix hmsg hout, rfl, rfl,
    fun _ hi => ⟨isWritten_processed hi, storedBit_processed_eq hi⟩, getLsbD_putState _ _ _⟩

/-! ## The squeeze loop for two output lengths (R115 (4), R123) -/

theorem squeezeLoop_stop {r d : Nat} {Z : Bits} {T : Store} (hd : d ≤ (Z ++ ratePart r T).length) (l n : Nat) :
    squeezeLoop l r d n Z T = (Z ++ ratePart r T, T) := by
  cases n with
  | zero => rfl
  | succ n => exact if_pos hd

theorem squeezeLoop_permute {r d : Nat} {Z : Bits} {T : Store} (hd : ¬d ≤ (Z ++ ratePart r T).length) (l n : Nat) :
    squeezeLoop l r d (n + 1) Z T = squeezeLoop l r d n (Z ++ ratePart r T) (keccakF l T) := if_neg hd

/-- What has been taken stays at the front of the output. -/
theorem squeezeLoop_extends (l r d n : Nat) (Z : Bits) (T : Store) :
    ∃ W, (squeezeLoop l r d n Z T).1 = Z ++ ratePart r T ++ W := by
  induction n generalizing Z T with
  | zero => exact ⟨[], (List.append_nil _).symm⟩
  | succ n ih =>
    by_cases hd : d ≤ (Z ++ ratePart r T).length
    · exact ⟨[], by rw [squeezeLoop_stop hd, List.append_nil]⟩
    · obtain ⟨W, hW⟩ := ih (Z ++ ratePart r T) (keccakF l T)
      exact ⟨ratePart r (keccakF l T) ++ W, by rw [squeezeLoop_permute hd, hW, List.append_assoc]⟩

/-- The two loops take the same bits until the shorter one has enough. The bounds on `n` and `n'` say that neither runs out of
steps, every take being of at least one bit. -/
theorem take_squeezeLoop {l r d d' : Nat} (hr : 1 ≤ r) (hdd' : d ≤ d') {n n' : Nat} {Z : Bits} (hn : d ≤ Z.length + n)
    (hn' : d' ≤ Z.length + n') (T : Store) :
    (squeezeLoop l r d n Z T).1.take d = (squeezeLoop l r d' n' Z T).1.take d := by
  have hlen (T : Store) : (Z ++ ratePart r T).length = Z.length + r := by rw [List.length_append, length_ratePart]
  induction n generalizing n' Z T with
  | zero =>
    obtain ⟨W, hW⟩ := squeezeLoop_extends l r d' n' Z T
    have hd : d ≤ (Z ++ ratePart r T).length := by rw [hlen]; omega
    rw [squeezeLoop_stop hd, hW, List.take_append_of_le_length hd]
  | succ n ih =>
    by_cases hd : d ≤ (Z ++ ratePart r T).length
    · obtain ⟨W, hW⟩ := squeezeLoop_extends l r d' n' Z T
      rw [squeezeLoop_stop hd, hW, List.take_append_of_le_length hd]
    · have hd' : ¬d' ≤ (Z ++ ratePart r T).length := fun h => hd (hdd'.trans h)
      obtain ⟨m, rfl⟩ : ∃ m, n' = m + 1 := ⟨n' - 1, by rw [hlen] at hd'; omega⟩
      rw [squeezeLoop_permute hd, squeezeLoop_permute hd']
      exact ih (by rw [hlen]; omega) (by rw [hlen]; omega) _ fun T => by rw [List.length_append, length_ratePart]

/-! ## The output for a smaller length (R123) -/

/-- The state of the sponge once the padded message is absorbed; it does not depend on OUTLEN. -/
def messageAbsorbed (s : State) : Store :=
  absorbBlocks s.actcfg.lNat s.actcfg.rate.toNat
    ((padded s.actcfg.rate.toNat (messageOperand s) s.suffix.suffix).length / s.actcfg.rate.toNat)
    (padded s.actcfg.rate.toNat (messageOperand s) s.suffix.suffix) 0#1600

theorem processSponge_fst (s : State) :
    (processSponge s).1 =
      (squeezeLoop s.actcfg.lNat s.actcfg.rate.toNat s.outlen.toNat s.outlen.toNat [] (messageAbsorbed s)).1.take
        s.outlen.toNat := rfl

theorem getD_processSponge_outlen {s : State} (hlegal : s.actcfg.legal = true) {d' : Word}
    (hle : s.outlen.toNat ≤ d'.toNat) {i : Nat} (hi : i < s.outlen.toNat) :
    (processSponge s).1.getD i false = (processSponge { s with outlen := d' }).1.getD i false := by
  have hrate := ((legal_iff s.actcfg).mp hlegal).2.1
  have htake := take_squeezeLoop (l := s.actcfg.lNat) (Z := []) hrate hle (Nat.le_add_left _ 0) (Nat.le_add_left _ 0)
    (messageAbsorbed s)
  have habsorbed : messageAbsorbed { s with outlen := d' } = messageAbsorbed s := rfl
  rw [processSponge_fst, processSponge_fst, habsorbed, htake, getD_take_of_lt _ hi,
    getD_take_of_lt _ (hi.trans_le hle)]

theorem legal_of_exec_process_ok {s t : State} (hexec : exec .process s = .next t) (hok : t.status.err = .none) :
    s.actcfg.legal = true := by
  rw [exec_eq_commit, commit_next_iff] at hexec
  obtain ⟨k, u, hrun, rfl⟩ | ⟨e, hrun, rfl⟩ := hexec
  · obtain ⟨-, -, -, hlegal, -⟩ := (runProcess_done_iff s k u).mp hrun
    exact hlegal
  · exact absurd hok (commandRun_raised .process s e hrun).1

/-- Settles O46: both commands absorb the same message, and the squeeze loops take the same bits up to the smaller length. -/
theorem processOutputPrefix : Obligations.ProcessOutputPrefix := by
  intro s t t' d' hexec hexec' hok hok' hle
  have hlegal := legal_of_exec_process_ok hexec hok
  obtain ⟨hout, rfl⟩ := exec_process_ok hexec hok
  obtain ⟨hout', rfl⟩ := exec_process_ok hexec' hok'
  refine ⟨fun i hi => ?_, fun i hi hge => ?_⟩
  · have hi' : i < 8 * s.params.outBytes := by omega
    rw [complete_outbuf, complete_outbuf, storedBit_processed hi', storedBit_processed (s := { s with outlen := d' }) hi']
    exact getD_processSponge_outlen hlegal hle hi
  · rw [complete_outbuf, storedBit_processed hi, getD_processSponge_of_le hge]

end Sys2Proof.Machine
end

section
/-!
PROOFS. What each command stages when it raises nothing, once for all commands (45_control.md rule R132), and the frame of
every command that follows from it.
-/
namespace Sys2Proof.Machine

/-- What a command that raises nothing stages. -/
def Stages (i : Instr) (s u : State) : Prop :=
  match i with
  | .nop => u = s
  | .configure => s.cfg.legal = true ∧ u = { s with actcfg := s.cfg, store := 0#1600 }
  | .clear | .theta | .rho | .pi | .khi | .iota _ | .round _ | .permute =>
    ∃ T, u = { s with store := putState s.actcfg.b s.store T }
  | .absorbBlock => u = s ∨ u = absorbed s
  | .extractBlock | .viewGet _ => ∃ bits n, u = { s with viewbuf := ViewBuf.full bits, vlen := n }
  | .process => u = processed s
  | .selectVariant v => ∃ row, varTab s.params v.toNat = some row ∧ u = applyVariant row s
  | .hashInit v => ∃ row, varTab s.params v.toNat = some row ∧ u = { applyVariant row s with msglen := 0#32 }
  | .hashUpdate n => s.msglen.toNat + 8 * n.toNat ≤ 8 * s.params.msgBytes ∧ u = appended n.toNat s
  | .viewSet sel => viewValid s.actcfg.w sel = true ∧ u = viewWritten sel s
  | .viewXor sel => u = s ∨ (viewValid s.actcfg.w sel = true ∧ u = viewXored sel s)

/-! ## The runs that branch -/

theorem stages_runMapping {g : Nat → Store → Store} {s u : State} {k : Bool} (h : runMapping g s = .done k u) :
    ∃ T, u = { s with store := putState s.actcfg.b s.store T } := by
  rw [runMapping] at h
  split at h
  · cases h
    exact ⟨_, rfl⟩
  · cases h

theorem stages_configure {s u : State} {k : Bool} (h : runConfigure s = .done k u) : Stages .configure s u := by
  by_cases hlegal : s.cfg.legal = true
  · rw [runConfigure_legal hlegal] at h
    cases h
    exact ⟨hlegal, rfl⟩
  · rw [runConfigure_illegal hlegal] at h
    cases h

theorem stages_absorbBlock {s u : State} {k : Bool} (h : runAbsorbBlock s = .done k u) : Stages .absorbBlock s u := by
  have hlegal := legal_of_exec_absorbBlock ((commit_next_iff s _ _).mpr (.inl ⟨k, u, h, rfl⟩))
  by_cases hvlen : s.vlen = s.actcfg.rate
  · rw [runAbsorbBlock_of_vlen hlegal hvlen] at h
    cases h
    exact .inr rfl
  · rw [runAbsorbBlock_of_vlen_ne hlegal hvlen] at h
    cases h
    exact .inl rfl

theorem stages_selectVariant {v : BitVec 8} {s u : State} {k : Bool} (h : runSelectVariant v.toNat s = .done k u) :
    Stages (.selectVariant v) s u := by
  cases hrow : varTab s.params v.toNat with
  | none =>
    rw [runSelectVariant_of_none hrow] at h
    cases h
  | some row =>
    rw [runSelectVariant_of_row hrow] at h
    cases h
    exact ⟨row, hrow, rfl⟩

theorem stages_hashInit {v : BitVec 8} {s u : State} {k : Bool} (h : runHashInit v.toNat s = .done k u) :
    Stages (.hashInit v) s u := by
  rw [runHashInit_eq] at h
  cases hrow : varTab s.params v.toNat with
  | none =>
    rw [hrow] at h
    cases h
  | some row =>
    rw [hrow] at h
    cases h
    exact ⟨row, hrow, rfl⟩

theorem stages_hashUpdate {n : BitVec 8} {s u : State} {k : Bool} (h : runHashUpdate n.toNat s = .done k u) :
    Stages (.hashUpdate n) s u := by
  rw [runHashUpdate] at h
  split_ifs at h with hn hlen
  cases h
  exact ⟨Nat.not_lt.mp hlen, rfl⟩

theorem stages_viewGet {sel : ViewSel} {s u : State} {k : Bool} (h : runViewGet sel s = .done k u) :
    Stages (.viewGet sel) s u := by
  cases hcheck : checkView s.actcfg.w sel with
  | error e =>
    rw [runViewGet_of_checkView_error hcheck] at h
    cases h
  | ok kind =>
    rw [runViewGet_of_viewValid ((viewValid_iff _ _).mpr ⟨kind, hcheck⟩)] at h
    cases h
    exact ⟨_, _, rfl⟩

theorem stages_viewSet {sel : ViewSel} {s u : State} {k : Bool} (h : runViewSet sel s = .done k u) :
    Stages (.viewSet sel) s u := by
  cases hcheck : checkView s.actcfg.w sel with
  | error e =>
    rw [runViewSet_of_checkView_error hcheck] at h
    cases h
  | ok kind =>
    have hvalid := (viewValid_iff _ _).mpr ⟨kind, hcheck⟩
    by_cases hlen : s.vlen.toNat = viewLength s.actcfg.w sel
    · rw [runViewSet_of_length_eq hvalid hlen] at h
      cases h
      exact ⟨hvalid, rfl⟩
    · rw [runViewSet_of_length_ne hvalid hlen] at h
      cases h

theorem stages_viewXor {sel : ViewSel} {s u : State} {k : Bool} (h : runViewXor sel s = .done k u) :
    Stages (.viewXor sel) s u := by
  cases hcheck : checkView s.actcfg.w sel with
  | error e =>
    rw [runViewXor_of_checkView_error hcheck] at h
    cases h
  | ok kind =>
    have hvalid := (viewValid_iff _ _).mpr ⟨kind, hcheck⟩
    by_cases hlen : s.vlen.toNat = viewLength s.actcfg.w sel
    · rw [runViewXor_of_length_eq hvalid hlen] at h
      cases h
      exact .inr ⟨hvalid, rfl⟩
    · rw [runViewXor_of_length_ne hvalid hlen] at h
      cases h
      exact .inl rfl

theorem stages_of_run_done {i : Instr} {s u : State} {k : Bool} (h : commandRun i s = .done k u) : Stages i s u := by
  cases i with
  | nop =>
    cases h
    rfl
  | clear =>
    cases h
    exact ⟨0#1600, rfl⟩
  | extractBlock =>
    cases h
    exact ⟨_, _, rfl⟩
  | theta | rho | pi | khi | iota | round | permute =>
    rw [commandRun] at h
    exact stages_runMapping h
  | configure => exact stages_configure h
  | absorbBlock => exact stages_absorbBlock h
  | process =>
    obtain ⟨-, -, -, -, -, hu⟩ := (runProcess_done_iff s k u).mp h
    exact hu
  | selectVariant v => exact stages_selectVariant h
  | hashInit v => exact stages_hashInit h
  | hashUpdate n => exact stages_hashUpdate h
  | viewGet sel => exact stages_viewGet h
  | viewSet sel => exact stages_viewSet h
  | viewXor sel => exact stages_viewXor h

/-- A command that answers completes what it has staged, or the state it started from. -/
theorem exec_cases {i : Instr} {s t : State} (h : exec i s = .next t) :
    (∃ k u, Stages i s u ∧ t = complete .none k u) ∨ ∃ e, e ≠ .none ∧ e ≠ .format ∧ t = complete e false s := by
  rw [exec_eq_commit, commit_next_iff] at h
  obtain ⟨k, u, hrun, rfl⟩ | ⟨e, hrun, rfl⟩ := h
  · exact .inl ⟨k, u, stages_of_run_done hrun, rfl⟩
  · obtain ⟨hnone, hformat⟩ := commandRun_raised i s e hrun
    exact .inr ⟨e, hnone, hformat, rfl⟩

/-! ## The frame -/

/-- Settles O17: completion writes STATUS alone, so the frame is that of what the command stages, command by command. -/
theorem commandFrame : Obligations.CommandFrame := by
  intro i s t h
  obtain ⟨k, u, hstages, rfl⟩ | ⟨e, -, -, rfl⟩ := exec_cases h
  · cases i with
    | nop =>
      cases hstages
      simp
    | configure =>
      obtain ⟨-, rfl⟩ := hstages
      simp
    | clear | theta | rho | pi | khi | iota | round | permute =>
      obtain ⟨T, rfl⟩ := hstages
      simp
    | absorbBlock =>
      obtain rfl | rfl := hstages <;> simp [absorbed]
    | extractBlock | viewGet =>
      obtain ⟨bits, n, rfl⟩ := hstages
      simp
    | process =>
      cases hstages
      simp [processed]
    | selectVariant | hashInit =>
      obtain ⟨row, -, rfl⟩ := hstages
      simp [applyVariant]
    | hashUpdate =>
      obtain ⟨-, rfl⟩ := hstages
      simp [appended]
    | viewSet =>
      obtain ⟨-, rfl⟩ := hstages
      simp [viewWritten]
    | viewXor =>
      obtain rfl | ⟨-, rfl⟩ := hstages <;> simp [viewXored]
  · simp

end Sys2Proof.Machine
end

section
/-!
PROOFS. The invariant (10_state.md rules R18, R25; 60_exceptions.md rules R142, R149; 70_reset_and_hazards.md rule R165): it holds
right after reset, and the ENGINE, the host and the reset input keep it.
-/
namespace Sys2Proof.Machine

/-! ## Its clauses, bit by bit -/

theorem storeHigh_iff (b : Nat) (S : Store) :
    S &&& ~~~(lowMask b) = 0#1600 ↔ ∀ i, b ≤ i → S.getLsbD i = false := by
  constructor
  · intro h i hi
    by_cases hi1600 : i < 1600
    · have hbit : (S &&& ~~~(lowMask b)).getLsbD i = (0#1600).getLsbD i := by rw [h]
      rw [BitVec.getLsbD_and, BitVec.getLsbD_not, getLsbD_lowMask, decide_eq_false (Nat.not_lt.mpr hi)] at hbit
      simpa [hi1600] using hbit
    · exact BitVec.getLsbD_of_ge _ _ (Nat.not_lt.mp hi1600)
  · intro h
    apply BitVec.eq_of_getLsbD_eq
    intro i hi
    by_cases hb : i < b
    · simp [getLsbD_lowMask, hi, hb]
    · simp [h i (Nat.not_lt.mp hb)]

theorem ViewBuf.wf_iff (vb : ViewBuf) :
    vb.wf = true ↔ ∀ i, vb.bits.getLsbD i = true → vb.written.getLsbD i = true := by
  rw [ViewBuf.wf, beq_iff_eq]
  constructor
  · intro h i hbit
    have hi : i < 1600 := BitVec.lt_of_getLsbD hbit
    have hand : (vb.bits &&& ~~~vb.written).getLsbD i = (0#1600).getLsbD i := by rw [h]
    simpa [hi, hbit] using hand
  · intro h
    apply BitVec.eq_of_getLsbD_eq
    intro i hi
    cases hbit : vb.bits.getLsbD i with
    | false => simp [hbit]
    | true => simp [hbit, h i hbit]

theorem ViewBuf.wf_full (bits : Store) : (ViewBuf.full bits).wf = true := by
  refine (ViewBuf.wf_iff _).mpr fun i hbit => ?_
  rw [ViewBuf.full, BitVec.getLsbD_allOnes, decide_eq_true (BitVec.lt_of_getLsbD hbit)]

theorem ViewBuf.wf_writeWord {vb : ViewBuf} (h : vb.wf = true) {k : Nat} (hk : k < 50) (v : Word) :
    (vb.writeWord k v).wf = true := by
  refine (ViewBuf.wf_iff _).mpr fun i hbit => ?_
  obtain ⟨hwritten, hbits⟩ := ViewBuf.bits_writeWord vb k hk v i
  rw [hbits] at hbit
  rw [hwritten]
  by_cases hin : 32 * k ≤ i ∧ i < 32 * k + 32
  · simp [hin]
  · rw [if_neg hin] at hbit
    rw [(ViewBuf.wf_iff vb).mp h i hbit, Bool.or_true]

/-! ## Updates that keep it, one for each part of the state -/

section
variable {s : State} (h : s.Inv)
include h

theorem State.Inv.store_high {i : Nat} (hi : s.actcfg.b ≤ i) : s.store.getLsbD i = false :=
  (storeHigh_iff _ _).mp h.storeHigh i hi

theorem State.Inv.with_store {S : Store} (hS : ∀ i, s.actcfg.b ≤ i → S.getLsbD i = false) :
    State.Inv { s with store := S } :=
  { h with storeHigh := (storeHigh_iff _ _).mpr hS }

theorem State.Inv.with_putState (T : Store) :
    State.Inv { s with store := putState s.actcfg.b s.store T } :=
  h.with_store fun _ hi => (putState_eq_of_le _ _ _ hi).trans (h.store_high hi)

theorem State.Inv.with_cleared {c : CfgReg} (hc : c.legal = true) :
    State.Inv { s with actcfg := c, store := 0#1600 } :=
  { h with config := hc, storeHigh := (storeHigh_iff _ _).mpr fun _ _ => BitVec.getLsbD_zero }

theorem State.Inv.with_status {st : Status} (hformat : st.err ≠ .format) (hskip : st.skip = true → st.err = .none) :
    State.Inv { s with status := st } :=
  { h with notFormat := hformat, skipNoError := hskip }

theorem State.Inv.with_viewbuf {vb : ViewBuf} (hvb : vb.wf = true) : State.Inv { s with viewbuf := vb } :=
  { h with viewbuf := hvb }

theorem State.Inv.with_msgbuf {m : Memory} (hm : m.wf = true) (hbelow : m.below s.params.msgBytes = true) :
    State.Inv { s with msgbuf := m } :=
  { h with msgbuf := hm, msgbufBelow := hbelow }

/-- The draw counter is no part of the invariant. -/
theorem State.Inv.drew (n : Nat) : (s.drew n).Inv := { h with }

/-! ## The ENGINE -/

/-- A view has no position at `b` or above. -/
theorem State.Inv.with_scatter {sel : ViewSel} (hvalid : viewValid s.actcfg.w sel = true) (f : Nat → Bool) :
    State.Inv { s with store := scatter (viewPos s.actcfg.w sel) f (viewLength s.actcfg.w sel) s.store } :=
  h.with_store fun i hi => by
    have hout : ∀ k < viewLength s.actcfg.w sel, viewPos s.actcfg.w sel k ≠ i := fun k hk =>
      ((viewPos_lt s.actcfg.w_pos hvalid hk).trans_le hi).ne
    rw [getLsbD_scatter_outside h.config hvalid f _ hout, h.store_high hi]

/-- Every variant has a legal rate on 1600 bits (R7, R124). -/
theorem State.Inv.applyVariant {v : Nat} {row : Variant} (hrow : varTab s.params v = some row) :
    (applyVariant row s).Inv := by
  have hcapacity : 1 ≤ row.capacity ∧ row.capacity < 1600 := by
    have hparams := h.params
    simp only [Params.wf, Bool.and_eq_true, decide_eq_true_eq] at hparams
    unfold varTab at hrow
    split at hrow <;> cases hrow <;> simp <;> omega
  have hrate := toNat_rate_applyVariant row s
  exact { h.with_cleared (c := (Machine.applyVariant row s).actcfg)
      ((legal_iff _).mpr ⟨le_refl 6, by rw [hrate]; omega, by rw [hrate]; exact Nat.sub_lt (by omega) (by omega)⟩) with }

theorem State.Inv.appended {n : Nat} (hlen : s.msglen.toNat + 8 * n ≤ 8 * s.params.msgBytes) : (appended n s).Inv :=
  { h.with_msgbuf (Memory.wf_writeBits _ h.msgbuf s.msglen.toNat (dinOperand s n))
      (Memory.below_writeBits _ _ h.msgbufBelow _ _ (by rwa [dinOperand, length_bitsOf])) with }

/-- PROCESS writes OUTBUF in full (R120, R165). -/
theorem State.Inv.processed : (processed s).Inv :=
  have hbelow : (Memory.full (toBytesN s.params.outBytes (processSponge s).1)).below s.params.outBytes = true := by
    simpa only [length_toBytesN] using Memory.below_full (toBytesN s.params.outBytes (processSponge s).1)
  { h.with_putState (processSponge s).2 with
    outbuf := Memory.wf_full _
    outbufBelow := hbelow
    outbufWhole := .inr fun _ hi => isWritten_processed hi }

theorem State.Inv.of_stages {i : Instr} {u : State} (hstages : Stages i s u) : u.Inv := by
  cases i with
  | nop =>
    cases hstages
    exact h
  | configure =>
    obtain ⟨hlegal, rfl⟩ := hstages
    exact h.with_cleared hlegal
  | clear | theta | rho | pi | khi | iota | round | permute =>
    obtain ⟨T, rfl⟩ := hstages
    exact h.with_putState T
  | absorbBlock =>
    obtain rfl | rfl := hstages
    · exact h
    · exact (h.drew s.actcfg.rate.toNat).with_putState _
  | extractBlock | viewGet =>
    obtain ⟨bits, n, rfl⟩ := hstages
    exact { h.with_viewbuf (ViewBuf.wf_full bits) with }
  | process =>
    cases hstages
    exact h.processed
  | selectVariant =>
    obtain ⟨row, hrow, rfl⟩ := hstages
    exact h.applyVariant hrow
  | hashInit =>
    obtain ⟨row, hrow, rfl⟩ := hstages
    exact { h.applyVariant hrow with }
  | hashUpdate =>
    obtain ⟨hlen, rfl⟩ := hstages
    exact h.appended hlen
  | viewSet sel =>
    obtain ⟨hvalid, rfl⟩ := hstages
    exact (h.drew _).with_scatter hvalid _
  | viewXor sel =>
    obtain rfl | ⟨hvalid, rfl⟩ := hstages
    · exact h
    · exact (h.drew _).with_scatter hvalid _

/-- Completion reports a skip with no error only (R133). -/
theorem State.Inv.complete {code : ErrCode} (hformat : code ≠ .format) (skip : Bool) : (complete code skip s).Inv :=
  h.with_status hformat fun hskip => by
    by_contra hcode
    rw [completed_err] at hcode
    rw [completed_error_skip _ _ hcode] at hskip
    cases hskip

theorem State.Inv.of_exec {i : Instr} {t : State} (hexec : exec i s = .next t) : t.Inv := by
  obtain ⟨k, u, hstages, rfl⟩ | ⟨e, -, hformat, rfl⟩ := exec_cases hexec
  · exact (h.of_stages hstages).complete (code := .none) nofun k
  · exact h.complete hformat false

end

/-! ## The host -/

theorem lowReg_ne_word (off k : Nat) : lowReg off ≠ .viewWord k ∧ lowReg off ≠ .msgWord k := by
  unfold lowReg
  split <;> exact ⟨nofun, nofun⟩

theorem lt_of_regAt_viewWord {p : Params} {off k : Nat} (h : regAt p off = .viewWord k) : k < 50 := by
  unfold regAt at h
  split_ifs at h
  · exact absurd h (lowReg_ne_word off k).1
  all_goals cases h
  omega

theorem lt_of_regAt_msgWord {p : Params} {off k : Nat} (h : regAt p off = .msgWord k) : 4 * k < p.msgBytes := by
  unfold regAt at h
  split_ifs at h
  · exact absurd h (lowReg_ne_word off k).2
  all_goals cases h
  omega

theorem four_dvd_msgBytes {p : Params} (h : p.wf = true) : p.msgBytes % 4 = 0 := by
  simp only [Params.wf, Bool.and_eq_true, beq_iff_eq] at h
  omega

section
variable {s : State} (h : s.Inv)
include h

theorem State.Inv.accept (c : Word) : (accept c s).Inv := by
  unfold Machine.accept
  split
  · exact h.with_status h.notFormat h.skipNoError
  · exact { h.with_status (st := s.status.accepted) h.notFormat h.skipNoError with }

/-- A write while BUSY = 0 reaches no part of the invariant but STATUS and the two buffers. -/
theorem State.Inv.writeIdle {off : Nat} {r : Reg} (hr : regAt s.params off = r) (v : Word) : (writeIdle r v s).Inv := by
  cases r with
  | status => exact h.with_status h.notFormat h.skipNoError
  | cmd => exact h.accept v
  | viewWord k => exact h.with_viewbuf (ViewBuf.wf_writeWord h.viewbuf (lt_of_regAt_viewWord hr) v)
  | msgWord k =>
    have hk := lt_of_regAt_msgWord hr
    have hsize := four_dvd_msgBytes h.params
    exact h.with_msgbuf (Memory.wf_writeWord _ h.msgbuf _ v) (Memory.below_writeWord _ _ h.msgbufBelow _ (by omega) v)
  | _ => exact { h with }

theorem State.Inv.writeBusy (r : Reg) (v : Word) : (writeBusy r v s).Inv := by
  cases r with
  | cmd => exact h.accept v
  | _ => exact h.with_status h.notFormat h.skipNoError

theorem State.Inv.writeReg (off : Nat) (v : Word) : (writeReg (regAt s.params off) v s).Inv := by
  unfold Machine.writeReg
  split
  · exact h.writeBusy _ v
  · exact h.writeIdle rfl v

theorem State.Inv.readReg (r : Reg) : (readReg r s).2.Inv := by
  obtain ⟨n, hn⟩ := readReg_state r s
  rw [hn]
  exact h.drew n

theorem State.Inv.of_performAccess {a : Access} {t : State} (haccess : performAccess a s = .next t) : t.Inv := by
  obtain ⟨-, rfl⟩ := (performAccess_next_iff a s t).mp haccess
  cases a.dir with
  | read => exact { h.readReg _ with }
  | write v => exact h.writeReg _ v

theorem State.Inv.with_host (ops : List HostOp) : State.Inv { s with host := ops } := { h with }

theorem State.Inv.of_hostMove {t : State} (hmove : hostMove s = .next t) : t.Inv := by
  obtain ⟨-, rfl⟩ | ⟨a, rest, -, haccess⟩ | ⟨rest, -, rfl⟩ := hostMove_cases s t hmove
  · exact h
  · exact (h.with_host rest).of_performAccess haccess
  · split
    · exact { h with }
    · exact { h.with_host rest with }

end

/-! ## Reset, and the step (R132, R159, R160) -/

theorem inv_resetWith {p : Params} (h : p.wf = true) : (State.resetWith p).Inv where
  params := h
  config := show CfgReg.reset.legal = true by decide
  storeHigh := BitVec.zero_and
  notFormat := nofun
  skipNoError := nofun
  viewbuf := (ViewBuf.wf_iff _).mpr fun i hbit => by
    rw [State.resetWith, ViewBuf.empty, BitVec.getLsbD_zero] at hbit
    cases hbit
  msgbuf := Memory.wf_empty
  msgbufBelow := Memory.below_empty _
  outbuf := Memory.wf_empty
  outbufBelow := Memory.below_empty _
  outbufWhole := .inl rfl

/-- Settles O19: every register has a legal value and no buffer bit is written. -/
theorem resetMeetsInvariant : Obligations.ResetMeetsInvariant := fun _ => inv_resetWith

theorem State.Inv.with_sched {s : State} (h : s.Inv) (turns : List Turn) : State.Inv { s with sched := turns } := { h with }

theorem State.Inv.of_nextMove {s s' : State} (h : s.Inv)
    (hmove : nextMove s = .engine s' ∨ nextMove s = .host s' ∨ nextMove s = .reset s' ∨ nextMove s = .idle s') :
    s'.Inv := by
  rw [nextMove_state s s' hmove]
  exact h.with_sched _

/-- Settles O18: each of the five outcomes of a step keeps the invariant. -/
theorem stepKeepsInvariant : Obligations.StepKeepsInvariant := by
  intro s t h hstep
  obtain ⟨s', i, hmove, -, hexec⟩ | ⟨s', e, hmove, -, rfl⟩ | ⟨s', hmove, hhost⟩ | ⟨s', hmove, rfl⟩ | hidle :=
    step_cases s t hstep
  · exact (h.of_nextMove (.inl hmove)).of_exec hexec
  · exact (h.of_nextMove (.inl hmove)).complete (code := .illegal) nofun false
  · exact (h.of_nextMove (.inr (.inl hmove))).of_hostMove hhost
  · exact { inv_resetWith (h.of_nextMove (.inr (.inr (.inl hmove)))).params with }
  · exact h.of_nextMove (.inr (.inr (.inr hidle)))

/-! ## No command is stuck (R136, R149) -/

/-- Only an illegal ACTCFG stops a command, and the invariant excludes it. -/
theorem State.Inv.exec_completes {s : State} (h : s.Inv) (i : Instr) :
    ∃ t, exec i s = .next t ∧ t.status.busy = false := by
  rw [exec_eq_commit]
  cases hrun : commandRun i s with
  | done k u => exact ⟨Machine.complete .none k u, rfl, rfl⟩
  | raised e => exact ⟨Machine.complete e false s, rfl, rfl⟩
  | stuck f => exact absurd h.config (Bool.eq_false_iff.mp (commandRun_not_stuck i s f hrun))

/-- Settles O15: a word that decodes runs its command, and any other completes with ILLEGAL. -/
theorem engineStepAlwaysCompletes : Obligations.EngineStepAlwaysCompletes := by
  intro s s' h hmove
  cases hfetch : fetch s' with
  | ok i =>
    rw [step_of_fetch_ok hmove hfetch]
    exact (h.of_nextMove (.inl hmove)).exec_completes i
  | error e => exact ⟨_, step_of_fetch_error hmove hfetch, rfl⟩

end Sys2Proof.Machine
end

section
/-!
PROOFS. Single steps: the ENGINE step (45_control.md rule R132), the reset input (70_reset_and_hazards.md rules R159, R160) and a
platform of several engines (60_exceptions.md rule R156).
-/
namespace Sys2Proof.Machine

/-! ## The ENGINE step (R132) -/

theorem eq_with_sched_of_nextMove_engine {s s' : State} (h : nextMove s = .engine s') :
    s' = { s with sched := s.sched.tail } := by
  obtain ⟨-, ⟨hsched, rfl⟩ | ⟨rest, hsched, rfl⟩⟩ := (nextMove_engine_iff s s').mp h
  · have htail : s'.sched.tail = s'.sched := by rw [hsched, List.tail_nil]
    rw [htail]
  · rw [hsched, List.tail_cons]

/-- Settles O6: the ENGINE's turn is the head of the schedule, and PEND is not touched. -/
theorem stepRunsDecodedCommand : Obligations.StepRunsDecodedCommand := by
  intro s s' i hmove hdecode
  have hs' := eq_with_sched_of_nextMove_engine hmove
  have hfetch : fetch s' = .ok i := by rw [hs', fetch, hdecode]
  exact ⟨step_of_fetch_ok hmove hfetch, hs', ((nextMove_engine_iff s s').mp hmove).1⟩

/-- Settles O7: the two forms of an ENGINE turn, each with BUSY = 1. -/
theorem engineEnabledExactlyWhenBusy : Obligations.EngineEnabledExactlyWhenBusy := by
  intro s
  simp only [nextMove_engine_iff]
  constructor
  · rintro ⟨s', hbusy, ⟨hsched, -⟩ | ⟨rest, hsched, -⟩⟩
    · exact ⟨hbusy, .inl hsched⟩
    · exact ⟨hbusy, .inr ⟨rest, hsched⟩⟩
  · rintro ⟨hbusy, hsched | ⟨rest, hsched⟩⟩
    · exact ⟨s, hbusy, .inl ⟨hsched, rfl⟩⟩
    · exact ⟨_, hbusy, .inr ⟨rest, hsched, rfl⟩⟩

/-! ## Reset (R159, R160) -/

/-- Settles O21: a reset turn is taken off the schedule and the block is reset, whatever BUSY is. -/
theorem resetInputTakesEffect : Obligations.ResetInputTakesEffect := by
  intro s rest hsched
  have hmove : nextMove s = .reset { s with sched := rest } := by simp only [nextMove, hsched]
  rw [step, hmove]
  rfl

theorem statusWord_reset : Status.reset.word = 0#32 := by decide

theorem cfgWord_reset : CfgReg.reset.word = 0x04400006#32 := by decide

theorem suffixWord_reset : SuffixReg.reset.word = 0x00000202#32 := by decide

/-- Settles O20: each offset names its register, whose reset value is read as it stands. -/
theorem resetLeavesSpecValues : Obligations.ResetLeavesSpecValues := fun _ =>
  ⟨rfl, statusWord_reset, rfl, cfgWord_reset, cfgWord_reset, suffixWord_reset, rfl, rfl, rfl, rfl, rfl, rfl,
    fun _ => ⟨BitVec.getLsbD_zero, BitVec.getLsbD_zero⟩⟩

/-! ## A platform (R156) -/

theorem platformStep_cases {P Q : Platform} {k : Nat} (h : platformStep P k = .next Q) :
    Q = P ∨ ∃ t, Q = { engines := P.engines.set k t } := by
  unfold platformStep at h
  split at h
  · cases h
    exact .inl rfl
  · split at h <;> cases h
    exact .inr ⟨_, rfl⟩

/-- Settles O60: a step replaces the state of the engine that moves. -/
theorem enginesShareNoState : Obligations.EnginesShareNoState := by
  intro P Q k j hstep hne
  obtain rfl | ⟨t, rfl⟩ := platformStep_cases hstep
  · rfl
  · exact List.getElem?_set_ne hne.symm

end Sys2Proof.Machine
end

section
/-!
PROOFS. The host port (10_state.md rules R20 to R35; 20_memory.md rules R42 to R48): the register at each offset, accesses while
BUSY = 1, what reads return, and what is read back after a write.
-/
namespace Sys2Proof.Machine

/-! ## Accesses while BUSY = 1 (R48) -/

theorem readReg_busy (r : Reg) {s : State} (h : s.status.busy = true) : readReg r s = readBusy r s := by
  simp [readReg, h]

theorem writeReg_busy (r : Reg) (v : Word) {s : State} (h : s.status.busy = true) :
    writeReg r v s = writeBusy r v s := by
  simp [writeReg, h]

theorem readReg_id (s : State) : readReg .id s = (idValue, s) := ite_self _

theorem readReg_status (s : State) : readReg .status s = (s.status.word, s) := ite_self _

theorem readBusy_other {r : Reg} (hid : r ≠ .id) (hstatus : r ≠ .status) (s : State) :
    readBusy r s = (bitsToWord (freeBits s 32), s.drew 32) := by
  cases r with
  | id => exact absurd rfl hid
  | status => exact absurd rfl hstatus
  | _ => rfl

theorem writeReg_busy_other {r : Reg} (hstatus : r ≠ .status) (v : Word) {s : State} (h : s.status.busy = true) :
    writeReg r v s = { s with status := s.status.overrun } := by
  cases r with
  | status => exact absurd rfl hstatus
  | cmd => rw [writeReg_cmd, accept_busy v s h]
  | _ => exact writeReg_busy _ v h

theorem getLsbD_freeWord (s : State) {j : Nat} (hj : j < 32) :
    (bitsToWord (freeBits s 32)).getLsbD j = s.freshBit j := by
  rw [getLsbD_bitsToWord, freeBits, getD_bitsOf, decide_eq_true hj, Bool.true_and, Bool.true_and]

/-- Settles O50: ID and STATUS do not look at BUSY on a read, nor STATUS on a write; any other read draws 32 free bits and any
other write sets OVR. -/
theorem accessesWhileBusy : Obligations.AccessesWhileBusy := by
  intro s r v hbusy
  refine ⟨readReg_id s, readReg_status s, fun hid hstatus => ?_, writeReg_status v s,
    fun hstatus => writeReg_busy_other hstatus v hbusy⟩
  rw [readReg_busy r hbusy, readBusy_other hid hstatus]
  exact ⟨rfl, fun j hj => getLsbD_freeWord s hj⟩

/-! ## The register at an offset (R20, R44) -/

theorem performAccess_read (s : State) {off : Nat} (halign : off % 4 = 0) (hoff : off < 0x10000) :
    performAccess ⟨s.params.base + off, 4, .read⟩ s =
      .next (respond (readReg (regAt s.params off) s).1 (readReg (regAt s.params off) s).2) := by
  have hsub : s.params.base + off - s.params.base = off := Nat.add_sub_cancel_left ..
  rw [performAccess_next_iff]
  exact ⟨by simp [Access.good, inWindow, supported, hsub, halign, hoff], by simp only [accessReg, hsub]⟩

theorem outBytes_le_of_paramsWf {p : Params} (h : p.wf = true) : p.outBytes ≤ 1024 := by
  simp only [Params.wf, Bool.and_eq_true, decide_eq_true_eq] at h
  omega

theorem lowReg_reserved {off : Nat} (h : 0x28 ≤ off) : lowReg off = .reserved := by
  unfold lowReg
  split
  case h_11 => rfl
  all_goals omega

theorem regAt_viewWord (p : Params) {k : Nat} (hk : k < 50) : regAt p (0x200 + 4 * k) = .viewWord k := by
  have hword : (0x200 + 4 * k - 0x200) / 4 = k := by omega
  rw [regAt, if_neg (by omega), if_neg (by omega), if_neg (by omega), if_pos (by omega), hword]

theorem regAt_outWord {p : Params} {k : Nat} (hk : 4 * k < p.outBytes) : regAt p (0x400 + 4 * k) = .outWord k := by
  have hword : (0x400 + 4 * k - 0x400) / 4 = k := by omega
  rw [regAt, if_neg (by omega), if_neg (by omega), if_neg (by omega), if_neg (by omega), if_neg (by omega),
    if_pos (by omega), hword]

/-- OUTBUF ends below the MSGBUF window (R9). -/
theorem regAt_msgWord {p : Params} (hp : p.wf = true) {k : Nat} (hk : 4 * k < p.msgBytes) :
    regAt p (0x1000 + 4 * k) = .msgWord k := by
  have hword : (0x1000 + 4 * k - 0x1000) / 4 = k := by omega
  have hout := outBytes_le_of_paramsWf hp
  rw [regAt, if_neg (by omega), if_neg (by omega), if_neg (by omega), if_neg (by omega), if_neg (by omega),
    if_neg (by omega), if_neg (by omega), if_pos (by omega), hword]

/-- The reserved offsets (R20, R35). -/
theorem regAt_reserved {p : Params} (hp : p.wf = true) {off : Nat}
    (h : (0x28 ≤ off ∧ off < 0x100) ∨ (0x1C8 ≤ off ∧ off < 0x200) ∨ (0x2C8 ≤ off ∧ off < 0x400) ∨
      (0x400 + p.outBytes ≤ off ∧ off < 0x1000) ∨ 0x1000 + p.msgBytes ≤ off) : regAt p off = .reserved := by
  have hout := outBytes_le_of_paramsWf hp
  unfold regAt
  split_ifs
  · exact lowReg_reserved (by omega)
  · omega
  · rfl
  · omega
  · rfl
  · omega
  · rfl
  · omega
  · rfl

/-- Settles O55: what stands at a reserved offset reads 0 and ignores a write. -/
theorem reservedOffsetsInert : Obligations.ReservedOffsetsInert := by
  intro s off v hidle hparams halign hoff hreserved
  rw [performAccess_read s halign hoff, performAccess_write s v halign hoff, regAt_reserved hparams hreserved,
    readReg_idle _ hidle, writeReg_idle _ _ hidle]
  exact ⟨rfl, rfl⟩

/-! ## STATUS as a word (R22, R140) -/

theorem getLsbD_statusWord (st : Status) (j : Nat) :
    st.word.getLsbD j =
      ((decide (j = 0) && st.busy) || (decide (j = 1) && st.skip) || (decide (j = 2) && st.errSeen) ||
        (decide (j = 3) && st.ovr) || (decide (4 ≤ j) && st.err.code.getLsbD (j - 4))) := by
  have hcode : (st.err.code.setWidth 32 <<< 4).getLsbD j = (decide (4 ≤ j) && st.err.code.getLsbD (j - 4)) := by
    rw [BitVec.getLsbD_shiftLeft, BitVec.getLsbD_setWidth]
    by_cases hj : j < 32
    · by_cases h4 : 4 ≤ j
      · simp [hj, h4, show j - 4 < 32 by omega]
      · simp [h4]
    · rw [BitVec.getLsbD_of_ge st.err.code _ (by omega)]
      simp
  simp only [Status.word, BitVec.getLsbD_or, getLsbD_flagBit _ _ _ (show 0 < 32 by decide),
    getLsbD_flagBit _ _ _ (show 1 < 32 by decide), getLsbD_flagBit _ _ _ (show 2 < 32 by decide),
    getLsbD_flagBit _ _ _ (show 3 < 32 by decide), hcode]

theorem statusWord_flags (st : Status) :
    st.word.getLsbD 0 = st.busy ∧ st.word.getLsbD 1 = st.skip ∧ st.word.getLsbD 2 = st.errSeen ∧
      st.word.getLsbD 3 = st.ovr := by
  simp only [getLsbD_statusWord]
  simp

theorem statusWord_code (st : Status) : st.word.extractLsb' 4 4 = st.err.code := by
  apply BitVec.eq_of_getLsbD_eq
  intro j hj
  rw [BitVec.getLsbD_extractLsb', getLsbD_statusWord]
  simp [hj, show 4 + j ≠ 1 by omega, show 4 + j ≠ 2 by omega, show 4 + j ≠ 3 by omega]

theorem statusWord_high (st : Status) {j : Nat} (hj : 8 ≤ j) : st.word.getLsbD j = false := by
  rw [getLsbD_statusWord, BitVec.getLsbD_of_ge st.err.code _ (by omega)]
  simp [show j ≠ 0 by omega, show j ≠ 1 by omega, show j ≠ 2 by omega, show j ≠ 3 by omega]

/-! ## Reads (R39, R42, R47) -/

theorem wordOfBits_congr {f g : Nat → Bool} {k : Nat} (h : ∀ j < 32, f (32 * k + j) = g (32 * k + j)) :
    wordOfBits f k = wordOfBits g k := by
  apply BitVec.eq_of_getLsbD_eq
  intro j hj
  rw [getLsbD_wordOfBits f k j hj, getLsbD_wordOfBits g k j hj, h j hj]

theorem readReg_frame (r : Reg) (s : State) :
    (readReg r s).2 = { s with draws := (readReg r s).2.draws } ∧ s.draws ≤ (readReg r s).2.draws := by
  obtain ⟨n, hn⟩ := readReg_state r s
  rw [hn]
  exact ⟨rfl, Nat.le_add_right _ _⟩

/-- A second read draws other free bits, and a word whose bits are written holds none. -/
theorem readReg_repeat {r : Reg} {s : State} (hidle : s.status.busy = false)
    (hview : ∀ k, r = .viewWord k → ∀ j < 32, s.viewbuf.written.getLsbD (32 * k + j) = true)
    (hmsg : ∀ k, r = .msgWord k → ∀ j < 32, s.msgbuf.isWritten (32 * k + j) = true)
    (hout : ∀ k, r = .outWord k → ∀ j < 32, s.outbuf.isWritten (32 * k + j) = true) :
    (readReg r (readReg r s).2).1 = (readReg r s).1 := by
  have hidle' : (readReg r s).2.status.busy = false := by
    obtain ⟨n, hn⟩ := readReg_state r s
    rw [hn, drew_status, hidle]
  rw [readReg_idle r hidle', readReg_idle r hidle]
  cases r with
  | viewWord k =>
    exact wordOfBits_congr fun j hj =>
      (ViewBuf.read_of_written _ _ _ (hview k rfl j hj)).trans (ViewBuf.read_of_written _ _ _ (hview k rfl j hj)).symm
  | msgWord k =>
    exact wordOfBits_congr fun j hj =>
      (Memory.read_of_written _ _ _ (hmsg k rfl j hj)).trans (Memory.read_of_written _ _ _ (hmsg k rfl j hj)).symm
  | outWord k =>
    exact wordOfBits_congr fun j hj =>
      (Memory.read_of_written _ _ _ (hout k rfl j hj)).trans (Memory.read_of_written _ _ _ (hout k rfl j hj)).symm
  | _ => rfl

/-- Settles O56: the bits of STATUS as a word, then what a read leaves, the bits of a buffer word, and the second read. -/
theorem readsRepeat : Obligations.ReadsRepeat := by
  refine ⟨fun _ => rfl, fun s => ?_, fun s r => ⟨readReg_frame r s, fun hidle k j hj => ?_, readReg_repeat⟩⟩
  · obtain ⟨hbusy, hskip, herrSeen, hovr⟩ := statusWord_flags s.status
    rw [readReg_status]
    refine ⟨hbusy, hskip, herrSeen, hovr, (statusWord_code s.status).trans ?_, fun _ => statusWord_high s.status⟩
    cases s.status.err <;> rfl
  · rw [readReg_idle r hidle]
    refine ⟨?_, ?_, ?_⟩ <;> rintro rfl <;> exact getLsbD_wordOfBits _ k j hj

/-! ## Read back after a write (R24 to R34) -/

theorem cfgWord_ofWord (v : Word) : (CfgReg.ofWord v).word = v &&& 0x07FF0007#32 := by
  apply BitVec.eq_of_getLsbD_eq
  intro j hj
  rw [getLsbD_cfgWord, CfgReg.ofWord]
  interval_cases j <;> simp

theorem suffixWord_ofWord (v : Word) : (SuffixReg.ofWord v).word = v &&& 0x00000FFF#32 := by
  apply BitVec.eq_of_getLsbD_eq
  intro j hj
  simp only [SuffixReg.word, SuffixReg.ofWord, BitVec.getLsbD_or, BitVec.getLsbD_and, BitVec.getLsbD_shiftLeft,
    BitVec.getLsbD_setWidth, BitVec.getLsbD_extractLsb']
  interval_cases j <;> simp

theorem vlenWord_setWidth (v : Word) : (v.setWidth 11).setWidth 32 = v &&& 0x000007FF#32 := by
  apply BitVec.eq_of_getLsbD_eq
  intro j hj
  simp only [BitVec.getLsbD_and, BitVec.getLsbD_setWidth]
  interval_cases j <;> simp

theorem wordOfBits_eq {f : Nat → Bool} {k : Nat} {v : Word} (h : ∀ j < 32, f (32 * k + j) = v.getLsbD j) :
    wordOfBits f k = v := by
  apply BitVec.eq_of_getLsbD_eq
  intro j hj
  rw [getLsbD_wordOfBits f k j hj, h j hj]

theorem read_viewbuf_writeWord (vb : ViewBuf) {k : Nat} (hk : k < 50) (v : Word) (free : Nat → Bool) :
    wordOfBits ((vb.writeWord k v).read free) k = v := by
  refine wordOfBits_eq fun j hj => ?_
  obtain ⟨hwritten, hbits⟩ := ViewBuf.bits_writeWord vb k hk v (32 * k + j)
  have hin : 32 * k ≤ 32 * k + j ∧ 32 * k + j < 32 * k + 32 := by omega
  rw [ViewBuf.read_of_written _ _ _ (by simp [hwritten, hj]), hbits, if_pos hin, Nat.add_sub_cancel_left]

theorem read_msgbuf_writeWord {m : Memory} (hm : m.wf = true) (k : Nat) (v : Word) (free : Nat → Bool) :
    wordOfBits ((m.writeWord (4 * k) v).read free) k = v := by
  refine wordOfBits_eq fun j hj => ?_
  obtain ⟨hwritten, hstored⟩ := Memory.bits_writeWord m hm (4 * k) v (32 * k + j)
  have hin : 8 * (4 * k) ≤ 32 * k + j ∧ 32 * k + j < 8 * (4 * k) + 32 := by omega
  have hsub : 32 * k + j - 8 * (4 * k) = j := by omega
  rw [Memory.read_of_written _ _ _ (by simp [hwritten, hin]), hstored, if_pos hin, hsub]

section
variable {s : State} (hidle : s.status.busy = false) (v : Word)
include hidle

/-- While BUSY = 0 a write to any register but STATUS and CMD keeps STATUS, so the read that follows is one while BUSY = 0. -/
theorem readReg_writeReg_idle {r : Reg} (hstatus : (writeIdle r v s).status = s.status) :
    (readReg r (writeReg r v s)).1 = (readIdle r (writeIdle r v s)).1 := by
  rw [writeReg_idle r v hidle, readReg_idle r (by rw [hstatus, hidle])]

/-- A write to a VIEWBUF word reads back and touches the 32 bits of that word alone. -/
theorem viewWord_readBack {k : Nat} (hk : k < 50) :
    (readReg (.viewWord k) (writeReg (.viewWord k) v s)).1 = v ∧
      writeReg (.viewWord k) v s = { s with viewbuf := (writeReg (.viewWord k) v s).viewbuf } ∧
      ∀ j, (32 * k ≤ j ∧ j < 32 * k + 32 → (writeReg (.viewWord k) v s).viewbuf.written.getLsbD j = true) ∧
        (¬(32 * k ≤ j ∧ j < 32 * k + 32) →
          (writeReg (.viewWord k) v s).viewbuf.written.getLsbD j = s.viewbuf.written.getLsbD j ∧
            (writeReg (.viewWord k) v s).viewbuf.bits.getLsbD j = s.viewbuf.bits.getLsbD j) := by
  refine ⟨(readReg_writeReg_idle hidle v rfl).trans (read_viewbuf_writeWord s.viewbuf hk v _), ?_, fun j => ?_⟩ <;>
    rw [writeReg_idle _ v hidle, writeIdle]
  obtain ⟨hwritten, hbits⟩ := ViewBuf.bits_writeWord s.viewbuf k hk v j
  refine ⟨fun hin => ?_, fun hout => ⟨?_, hbits.trans (if_neg hout)⟩⟩
  · rw [hwritten, ← Bool.decide_and, decide_eq_true hin, Bool.true_or]
  · rw [hwritten, ← Bool.decide_and, decide_eq_false hout, Bool.false_or]

/-- A write to a MSGBUF word reads back and touches the 32 bits of that word alone. -/
theorem msgWord_readBack (hbuf : s.msgbuf.wf = true) (k : Nat) :
    (readReg (.msgWord k) (writeReg (.msgWord k) v s)).1 = v ∧
      writeReg (.msgWord k) v s = { s with msgbuf := (writeReg (.msgWord k) v s).msgbuf } ∧
      ∀ j, (32 * k ≤ j ∧ j < 32 * k + 32 → (writeReg (.msgWord k) v s).msgbuf.isWritten j = true) ∧
        (¬(32 * k ≤ j ∧ j < 32 * k + 32) →
          (writeReg (.msgWord k) v s).msgbuf.isWritten j = s.msgbuf.isWritten j ∧
            (writeReg (.msgWord k) v s).msgbuf.storedBit j = s.msgbuf.storedBit j) := by
  refine ⟨(readReg_writeReg_idle hidle v rfl).trans (read_msgbuf_writeWord hbuf k v _), ?_, fun j => ?_⟩ <;>
    rw [writeReg_idle _ v hidle, writeIdle]
  obtain ⟨hwritten, hstored⟩ := Memory.bits_writeWord s.msgbuf hbuf (4 * k) v j
  have hbytes : 8 * (4 * k) = 32 * k := by omega
  rw [hbytes, ← Bool.decide_and] at hwritten
  rw [hbytes] at hstored
  refine ⟨fun hin => ?_, fun hout => ⟨?_, hstored.trans (if_neg hout)⟩⟩
  · rw [hwritten, decide_eq_true hin, Bool.true_or]
  · rw [hwritten, decide_eq_false hout, Bool.false_or]

end

/-- Settles O53: the access link in every state; then register by register the write that BUSY = 0 lets through and the read
that follows it. -/
theorem registerReadBack : Obligations.RegisterReadBack := by
  refine ⟨fun s v off halign hoff => ⟨performAccess_write s v halign hoff, performAccess_read s halign hoff⟩, ?_⟩
  intro s v k hidle hbuf hparams write back read inWord
  refine ⟨⟨?_, writeReg_idle .cfg v hidle⟩, ⟨?_, writeReg_idle .suffix v hidle⟩, ⟨?_, writeReg_idle .msglen v hidle⟩,
    ⟨?_, writeReg_idle .outlen v hidle⟩, ⟨?_, writeReg_idle .vlen v hidle⟩, ⟨?_, writeReg_idle .din v hidle⟩,
    fun hk => ?_, fun hk => ?_, ⟨writeReg_idle .id v hidle, writeReg_idle .actcfg v hidle, fun hk => ?_⟩, ?_, ?_, ?_⟩
  · exact (readReg_writeReg_idle hidle v rfl).trans (cfgWord_ofWord v)
  · exact (readReg_writeReg_idle hidle v rfl).trans (suffixWord_ofWord v)
  · exact readReg_writeReg_idle (r := .msglen) hidle v rfl
  · exact readReg_writeReg_idle (r := .outlen) hidle v rfl
  · exact (readReg_writeReg_idle (r := .vlen) hidle v rfl).trans (vlenWord_setWidth v)
  · exact readReg_writeReg_idle (r := .din) hidle v rfl
  · simp only [back, write, regAt_viewWord s.params hk]
    exact viewWord_readBack hidle v hk
  · simp only [back, write, regAt_msgWord hparams hk]
    exact msgWord_readBack hidle v hbuf k
  · have hreg := regAt_outWord hk
    refine ⟨hreg, ?_⟩
    simp only [write, hreg]
    exact writeReg_idle _ v hidle
  · exact congrArg Prod.fst (readReg_id s)
  · exact congrArg Prod.fst (readReg_idle .cmd hidle)
  · intro j
    have hread : read 0x010 = s.actcfg.word := congrArg Prod.fst (readReg_idle .actcfg hidle)
    rw [hread, getLsbD_cfgWord]

end Sys2Proof.Machine
end

section
/-!
PROOFS. The agents against each other: what no move of the host writes (10_state.md rules R25, R31, R33), who sets and clears
BUSY and OVR (45_control.md rules R131 to R134), and how a WAIT ends (30_encoding.md rule R68; 70_reset_and_hazards.md rule R168).
-/
namespace Sys2Proof.Machine

/-! ## What a move of the host leaves (R25, R31, R33) -/

/-- The ENGINE's results: the state cube, ACTCFG and OUTBUF; and the parameters. -/
def SameResults (s t : State) : Prop :=
  t.store = s.store ∧ t.actcfg = s.actcfg ∧ t.outbuf = s.outbuf ∧ t.params = s.params

theorem sameResults_accept (c : Word) (s : State) : SameResults s (accept c s) := by
  rw [accept]
  split <;> exact ⟨rfl, rfl, rfl, rfl⟩

theorem sameResults_writeReg (r : Reg) (v : Word) (s : State) : SameResults s (writeReg r v s) := by
  cases r with
  | cmd =>
    rw [writeReg_cmd]
    exact sameResults_accept v s
  | _ =>
    rw [writeReg]
    split <;> exact ⟨rfl, rfl, rfl, rfl⟩

theorem sameResults_performAccess {a : Access} {s t : State} (h : performAccess a s = .next t) : SameResults s t := by
  obtain ⟨-, rfl⟩ := (performAccess_next_iff a s t).mp h
  cases a.dir with
  | read =>
    obtain ⟨n, hn⟩ := readReg_state (accessReg s.params a) s
    simp only [hn]
    exact ⟨rfl, rfl, rfl, rfl⟩
  | write v => exact sameResults_writeReg _ v s

theorem sameResults_hostMove {s t : State} (h : hostMove s = .next t) : SameResults s t := by
  obtain ⟨-, rfl⟩ | ⟨a, rest, -, haccess⟩ | ⟨rest, -, rfl⟩ := hostMove_cases s t h
  · exact ⟨rfl, rfl, rfl, rfl⟩
  · exact sameResults_performAccess (s := { s with host := rest }) haccess
  · split <;> exact ⟨rfl, rfl, rfl, rfl⟩

theorem step_of_nextMove_host {s s' : State} (hmove : nextMove s = .host s') : step s = hostMove s' := by
  simp only [step, hmove]

/-- Settles O57: no write of a register reaches them, and a read or a poll writes no register. -/
theorem hostMovesKeepEngineResults : Obligations.HostMovesKeepEngineResults := by
  intro s s' t hmove hstep
  rw [step_of_nextMove_host hmove] at hstep
  have hsched := nextMove_state s s' (.inr (.inl hmove))
  have hsame := sameResults_hostMove hstep
  rw [hsched] at hsame
  exact hsame

/-! ## BUSY and OVR (R36, R131, R133, R134, R163) -/

/-- BUSY does not fall, and OVR rises only while BUSY = 1. -/
def HostFlags (old new : Status) : Prop :=
  (old.busy = true → new.busy = true) ∧ (old.ovr = false → new.ovr = true → old.busy = true)

theorem HostFlags.of_eq {old new : Status} (h : new = old) : HostFlags old new :=
  ⟨fun hbusy => h ▸ hbusy, fun hclear hset => by rw [h, hclear] at hset; cases hset⟩

theorem hostFlags_overrun {st : Status} (hbusy : st.busy = true) : HostFlags st st.overrun :=
  ⟨fun _ => hbusy, fun _ _ => hbusy⟩

theorem hostFlags_accept (c : Word) (s : State) : HostFlags s.status (accept c s).status := by
  cases hbusy : s.status.busy with
  | true =>
    rw [accept_busy c s hbusy]
    exact hostFlags_overrun hbusy
  | false =>
    rw [accept_idle c s hbusy]
    exact ⟨fun _ => rfl, fun hclear hset => absurd (hset.symm.trans hclear) nofun⟩

theorem hostFlags_cleared (st : Status) (v : Word) : HostFlags st (st.cleared v) :=
  ⟨id, fun hclear hset => by rw [Status.cleared, hclear, Bool.false_and] at hset; cases hset⟩

theorem hostFlags_writeReg (r : Reg) (v : Word) (s : State) : HostFlags s.status (writeReg r v s).status := by
  cases hbusy : s.status.busy with
  | true =>
    by_cases hr : r = .status
    · rw [hr, writeReg_status]
      exact hostFlags_cleared _ v
    · rw [writeReg_busy_other hr v hbusy]
      exact hostFlags_overrun hbusy
  | false =>
    rw [writeReg_idle r v hbusy]
    cases r with
    | status => exact hostFlags_cleared _ v
    | cmd => exact hostFlags_accept v s
    | _ => exact .of_eq rfl

theorem hostFlags_performAccess {a : Access} {s t : State} (h : performAccess a s = .next t) :
    HostFlags s.status t.status := by
  obtain ⟨-, rfl⟩ := (performAccess_next_iff a s t).mp h
  cases a.dir with
  | read =>
    obtain ⟨n, hn⟩ := readReg_state (accessReg s.params a) s
    simp only [hn]
    exact .of_eq rfl
  | write v => exact hostFlags_writeReg _ v s

theorem hostFlags_hostMove {s t : State} (h : hostMove s = .next t) : HostFlags s.status t.status := by
  obtain ⟨-, rfl⟩ | ⟨a, rest, -, haccess⟩ | ⟨rest, -, rfl⟩ := hostMove_cases s t h
  · exact .of_eq rfl
  · exact hostFlags_performAccess (s := { s with host := rest }) haccess
  · split <;> exact .of_eq rfl

/-- Every step by who moves, with what it does to STATUS. -/
theorem step_status_cases {s t : State} (h : step s = .next t) :
    (∃ s', nextMove s = .engine s' ∧ t.status.busy = false ∧ t.status.ovr = s.status.ovr) ∨
      (∃ s', nextMove s = .host s' ∧ HostFlags s.status t.status) ∨
      (∃ s', nextMove s = .reset s' ∧ t.status.busy = false ∧ t.status.ovr = false) ∨ t.status = s.status := by
  cases hmove : nextMove s with
  | engine s' =>
    have hstatus := status_of_engine_step hmove h
    exact .inl ⟨s', rfl, by rw [hstatus, statusAfterCommand], by rw [hstatus, statusAfterCommand]⟩
  | host s' =>
    rw [step_of_nextMove_host hmove] at h
    have hflags := hostFlags_hostMove h
    rw [nextMove_state s s' (.inr (.inl hmove))] at hflags
    exact .inr (.inl ⟨s', rfl, hflags⟩)
  | reset s' =>
    simp only [step, hmove, Host.Outcome.next.injEq] at h
    subst h
    exact .inr (.inr (.inl ⟨s', rfl, rfl, rfl⟩))
  | idle s' =>
    simp only [step, hmove, Host.Outcome.next.injEq] at h
    subst h
    rw [nextMove_state s s' (.inr (.inr (.inr hmove)))]
    exact .inr (.inr (.inr rfl))

/-- Settles O58: the ENGINE clears BUSY and keeps OVR, a reset clears both, and the host does the rest. -/
theorem flagsLifeCycle : Obligations.FlagsLifeCycle := by
  intro s t h
  have clash {b : Bool} {p : Prop} (hclear : b = false) (hset : b = true) : p := absurd (hclear.symm.trans hset) nofun
  obtain ⟨s', hmove, hbusy, hovr⟩ | ⟨s', hmove, hkeep, hrise⟩ | ⟨s', hmove, hbusy, hovr⟩ | hsame := step_status_cases h
  · rw [hovr]
    exact ⟨fun _ => clash hbusy, fun _ _ => ⟨s', .inl hmove⟩, fun hset hclear => clash hclear hset, clash⟩
  · exact ⟨fun _ _ => ⟨s', hmove⟩, fun hset hclear => clash hclear (hkeep hset), fun _ _ => ⟨s', .inl hmove⟩,
      fun hclear hset => ⟨hrise hclear hset, s', hmove⟩⟩
  · exact ⟨fun _ => clash hbusy, fun _ _ => ⟨s', .inr hmove⟩, fun _ _ => ⟨s', .inr hmove⟩, fun _ => clash hovr⟩
  · rw [hsame]
    exact ⟨clash, fun hset hclear => clash hclear hset, fun hset hclear => clash hclear hset, clash⟩

/-! ## WAIT (R68, R168) -/

theorem run_succ {s t : State} (h : step s = .next t) (n : Nat) :
    Host.Core.run Sys2Proof.core (n + 1) s = Host.Core.run Sys2Proof.core n t := by
  have hcore : Sys2Proof.core.step s = .next t := h
  simp only [Host.Core.run, hcore]

/-- With the schedule used up and BUSY = 1, the ENGINE's step leaves the host, the schedule and the responses as they are. -/
theorem step_engine_completes {s : State} (h : s.Inv) (hbusy : s.status.busy = true) (hsched : s.sched = []) :
    ∃ t, step s = .next t ∧ t.status.busy = false ∧ t.host = s.host ∧ t.sched = s.sched ∧ t.responses = s.responses := by
  have hmove : nextMove s = .engine s := (nextMove_engine_iff s s).mpr ⟨hbusy, .inl ⟨hsched, rfl⟩⟩
  cases hfetch : fetch s with
  | ok i =>
    obtain ⟨t, hexec, hidle⟩ := h.exec_completes i
    obtain ⟨-, -, -, -, hhost, hsched', hresponses, -⟩ := commandFrame i s t hexec
    exact ⟨t, (step_of_fetch_ok hmove hfetch).trans hexec, hidle, hhost, hsched', hresponses⟩
  | error e => exact ⟨_, step_of_fetch_error hmove hfetch, rfl, rfl, rfl, rfl⟩

/-- A poll while BUSY = 1 answers STATUS and leaves the WAIT on the host's list. -/
theorem step_poll_busy {s : State} {ops : List HostOp} {turns : List Turn} (hbusy : s.status.busy = true)
    (hhost : s.host = .wait :: ops) (hsched : s.sched = .host :: turns) :
    step s = .next (respond s.status.word { s with sched := turns }) := by
  have hmove : nextMove s = .host { s with sched := turns } := by simp only [nextMove, hsched]
  rw [step_of_nextMove_host hmove]
  simp [hostMove, hhost, hbusy]

/-- The poll that reads BUSY = 0 takes the WAIT off the host's list. -/
theorem step_poll_idle {s : State} {ops : List HostOp} (hidle : s.status.busy = false) (hhost : s.host = .wait :: ops)
    (hsched : s.sched = []) : step s = .next (respond s.status.word { s with host := ops }) := by
  have hmove : nextMove s = .host s := by simp [nextMove, hsched, hidle, hhost]
  rw [step_of_nextMove_host hmove]
  simp [hostMove, hhost, hidle]

/-- `n` polls, then the ENGINE step. -/
theorem run_wait {n : Nat} {s : State} {ops : List HostOp} (h : s.Inv) (hbusy : s.status.busy = true)
    (hhost : s.host = .wait :: ops) (hsched : s.sched = List.replicate n .host) :
    ∃ t, (∀ k, Host.Core.run Sys2Proof.core (n + 1 + k) s = Host.Core.run Sys2Proof.core k t) ∧
      t.status.busy = false ∧ t.host = .wait :: ops ∧
      t.responses = s.responses ++ List.replicate n s.status.word ∧ t.sched = [] := by
  induction n generalizing s with
  | zero =>
    obtain ⟨t, hstep, hidle, hhost', hsched', hresponses⟩ := step_engine_completes h hbusy hsched
    refine ⟨t, fun k => ?_, hidle, hhost'.trans hhost, ?_, hsched'.trans hsched⟩
    · rw [Nat.zero_add, Nat.add_comm, run_succ hstep]
    · rw [hresponses, List.replicate_zero, List.append_nil]
  | succ n ih =>
    rw [List.replicate_succ] at hsched
    have hstep := step_poll_busy hbusy hhost hsched
    have hinv := stepKeepsInvariant s _ h hstep
    obtain ⟨t, hrun, hidle, hhost', hresponses, hsched'⟩ := ih hinv hbusy hhost rfl
    refine ⟨t, fun k => ?_, hidle, hhost', ?_, hsched'⟩
    · rw [Nat.add_right_comm, run_succ hstep, hrun]
    · rw [hresponses, respond_responses, respond_status, List.append_assoc, List.replicate_succ, List.singleton_append]

/-- Settles O59: the polls and the ENGINE step lead to a state in which the host's next poll reads BUSY = 0. -/
theorem waitEndsWithEngineStep : Obligations.WaitEndsWithEngineStep := by
  intro n s rest h hbusy hhost hsched
  obtain ⟨t, hrun, hidle, hhost', hresponses, hsched'⟩ := run_wait h hbusy hhost hsched
  have hpoll := step_poll_idle hidle hhost' hsched'
  refine ⟨t, _, hrun 0, hidle, hhost', hresponses, hsched', (hrun 1).trans (run_succ hpoll 0), hpoll, rfl, ?_⟩
  rw [(statusWord_flags t.status).1, hidle]

end Sys2Proof.Machine
end
